-- ==== Sys2Proof/Config.lean ====
section
/-! DEFINITION. What an instance of the block fixes (00_scope.md R6) and the values the spec
leaves open: the fixed screen geometry, the named parameters with their alternatives, and the
free values, which are constants with no body. -/

namespace Sys2Proof

/-- The two byte orders of the movie header, parameter `HOST_ENDIAN` (20_memory.md R55). -/
inductive Endian
  | little
  | big
deriving DecidableEq, Repr

/-- The two frame record layouts, parameter `SCAN_ORIENT` (43_movie_player.md R172). -/
inductive ScanOrient
  | horizontal
  | vertical
deriving DecidableEq, Repr

/-- Which size a frame is centred by, parameter `CENTER_BY` (43_movie_player.md R182). -/
inductive CenterBy
  | video
  | lcd
deriving DecidableEq, Repr

/-- When the pacing stamp is taken, parameter `PACE_STAMP` (43_movie_player.md R185). -/
inductive PaceStamp
  | atFlush
  | afterSleep
deriving DecidableEq, Repr

/-- The named parameters of 00_scope.md R6 that have alternatives or are OPEN. They are fixed for
an instance of the block. -/
structure Params where
  /-- `HOST_ENDIAN` -/
  hostEndian : Endian
  /-- `SCAN_ORIENT` -/
  scanOrient : ScanOrient
  /-- `CENTER_BY` -/
  centerBy : CenterBy
  /-- `PACE_STAMP` -/
  paceStamp : PaceStamp
  /-- `RECT_INVERTED_IS_ERROR` -/
  rectInvertedIsError : Bool
  /-- `PACE_MARGIN_MS` (OPEN) -/
  paceMarginMs : Nat
  /-- `SRC_SIZE` (OPEN, at least 1) -/
  srcSize : Nat
  /-- `MOVIE_MAX_BYTES` (OPEN) -/
  movieMaxBytes : Nat
deriving DecidableEq, Repr

namespace Config

/-- `SCREEN_W` (00_scope.md R6). -/
abbrev screenW : Nat := 192

/-- `SCREEN_H` (00_scope.md R6). -/
abbrev screenH : Nat := 96

/-- `BPP`, bits per pixel of the framebuffer (00_scope.md R6). -/
abbrev bpp : Nat := 2

/-- `PPB`, pixels per byte, `8 / BPP` (00_scope.md R6). -/
abbrev ppb : Nat := 8 / bpp

/-- `FB_ROWS`, pages, `ceil(SCREEN_H / PPB)` (00_scope.md R6). -/
abbrev fbRows : Nat := (screenH + ppb - 1) / ppb

/-- `FB_COLS` (00_scope.md R6). -/
abbrev fbCols : Nat := screenW

/-- `FB_BYTES` (00_scope.md R6). -/
abbrev fbBytes : Nat := fbRows * fbCols

/-- `HEADER_SIZE` of a movie file (00_scope.md R6). -/
abbrev headerSize : Nat := 32

/-- `MAGIC` of a movie file (00_scope.md R6). -/
abbrev magic : BitVec 32 := 0x4C564946#32

/-- Free value: how many milliseconds the host's clock has advanced when the `n`-th sample is
drawn (60_exceptions.md R212, 93_implementation_defined.md I4). It is a difference of two
samples, so the samples are monotone whatever it is. Log entry 5. -/
opaque clockAdvance : Nat → Nat

/-- Free value: `PACE_MARGIN_MS` of the instance (00_scope.md R6, OPEN). Log entry 4. -/
opaque paceMarginMs : Nat

/-- Free value: one less than `SRC_SIZE` of the instance, which is at least 1 (00_scope.md R6,
OPEN). Log entry 4. -/
opaque srcSizeLessOne : Nat

/-- Free value: `MOVIE_MAX_BYTES` of the instance (00_scope.md R6, OPEN). Log entry 4. -/
opaque movieMaxBytes : Nat

/-- Free value: `a div 0`. R9 of 00_scope.md defines `div` for a positive divisor only; no run
from reset divides by 0. Log entry 16. -/
opaque divByZero : Nat → Nat

/-- Free value: `a mod 0`. R9 of 00_scope.md defines `mod` for a positive divisor only; no run
from reset divides by 0. Log entry 16. -/
opaque modByZero : Nat → Nat

/-- The instance's parameters: the spec's values (00_scope.md R6) where it states one, a free
value where it says OPEN. -/
def params : Params where
  hostEndian := .little
  scanOrient := .horizontal
  centerBy := .video
  paceStamp := .atFlush
  rectInvertedIsError := false
  paceMarginMs := paceMarginMs
  srcSize := srcSizeLessOne + 1
  movieMaxBytes := movieMaxBytes

end Config
end Sys2Proof
end

