-- ==== Sys2Proof/Word.lean ====
section
/-! DEFINITION. The two bit-vector types the spec uses: a byte of `FB`, `SRC` or `MOV_BUF`
(20_memory.md R50) and a 32-bit word of the command port or the response channel
(30_encoding.md R70, R81). Every other quantity of the spec is a mathematical integer
(00_scope.md R8) and is an `Int` or a `Nat` here. -/

namespace Sys2Proof

/-- A byte of one of the three stores (20_memory.md R50). -/
abbrev Byte := BitVec 8

/-- A 32-bit word: a command word (30_encoding.md R70), a header register (10_state.md R29)
or `RES` (10_state.md R25). -/
abbrev Word := BitVec 32

end Sys2Proof
end

