-- ==== Sys2Proof/Machine/Operands.lean ====
section
/-! DEFINITION. Operand words and the integer primitives of 00_scope.md R9: reading an operand
word as s32 or u32, writing one, and the divisions, masks and byte joins the rules use. -/

namespace Sys2Proof.Machine

/-- `sext_32`: an operand word read as s32 (30_encoding.md R72). -/
def s32 (w : Word) : Int := w.toInt

/-- `zext_32`: an operand word read as u32 (30_encoding.md R72). -/
def u32 (w : Word) : Nat := w.toNat

/-- The 32-bit two's-complement word of an integer (30_encoding.md R78, R81). -/
def wordOfInt (v : Int) : Word := BitVec.ofInt 32 v

/-- `a div b` (00_scope.md R9); `a div 0` is a free value. -/
def divN (a b : Nat) : Nat := if b = 0 then Config.divByZero a else a / b

/-- `a mod b` (00_scope.md R9); `a mod 0` is a free value. -/
def modN (a b : Nat) : Nat := if b = 0 then Config.modByZero a else a % b

/-- `ceil_div(a, b) = (a + b - 1) div b` (00_scope.md R9). -/
def ceilDiv (a b : Nat) : Nat := divN (a + b - 1) b

/-- `tdiv(a, b)`: division truncated toward zero (00_scope.md R9). -/
def tdiv (a b : Int) : Int := Int.tdiv a b

/-- `level & LEVEL_MASK`: the two low bits of a two's-complement level (40_pixelstore.md R101). -/
def maskLevel (level : Int) : Byte := BitVec.ofInt 8 level &&& 3#8

/-- The four bytes of a u32 header field, in file order, joined in the host's byte order
(20_memory.md R55). -/
def joinBytes : Endian → Byte → Byte → Byte → Byte → Word
  | .little, b0, b1, b2, b3 => b3 ++ b2 ++ b1 ++ b0
  | .big, b0, b1, b2, b3 => b0 ++ b1 ++ b2 ++ b3

end Sys2Proof.Machine
end

