-- ==== Sys2Proof/Syntax.lean ====
section
/-! DEFINITION. The commands of the block: one constructor for each row of the opcode map
(30_encoding.md R74, spec/opcode_table.json), with the operands in the map's order. An operand is
a mathematical integer after decoding (30_encoding.md R72): `Int` for an s32, `Nat` for a u32. -/

namespace Sys2Proof

/-- A command (30_encoding.md R74). -/
inductive Instr
  /-- `SETPT x, y, level` (40_pixelstore.md R103) -/
  | setpt (x y level : Int)
  /-- `GETPT x, y` (40_pixelstore.md R104) -/
  | getpt (x y : Int)
  /-- `CLEAR level` (40_pixelstore.md R105) -/
  | clear (level : Int)
  /-- `SETORI mode` (40_pixelstore.md R106) -/
  | setori (mode : Int)
  /-- `FLUSH` (40_pixelstore.md R107) -/
  | flush
  /-- `LINE x0, y0, x1, y1, colour` (41_rasterizer.md R121) -/
  | line (x0 y0 x1 y1 colour : Int)
  /-- `LINETO x, y, colour` (41_rasterizer.md R122) -/
  | lineto (x y colour : Int)
  /-- `RECT x1, y1, x2, y2, colour` (41_rasterizer.md R123) -/
  | rect (x1 y1 x2 y2 colour : Int)
  /-- `CIRCLE cx, cy, r, colour` (41_rasterizer.md R126) -/
  | circle (cx cy r colour : Int)
  /-- `ELLIPSE cx, cy, rx, ry, colour` (41_rasterizer.md R129) -/
  | ellipse (cx cy rx ry colour : Int)
  /-- `RECTF x1, y1, x2, y2, colour` (41_rasterizer.md R124) -/
  | rectf (x1 y1 x2 y2 colour : Int)
  /-- `CIRCLEF cx, cy, r, colour` (41_rasterizer.md R127) -/
  | circlef (cx cy r colour : Int)
  /-- `ELLIPSEF cx, cy, rx, ry, colour` (41_rasterizer.md R130) -/
  | ellipsef (cx cy rx ry colour : Int)
  /-- `BLIT src, x0, y0, vx0, vx1, w, h, bg, fg` (42_compositor.md R153) -/
  | blit (src : Nat) (x0 y0 vx0 vx1 w h bg fg : Int)
  /-- `MLOAD src, len` (43_movie_player.md R173) -/
  | mload (src len : Nat)
  /-- `MREWIND` (43_movie_player.md R176) -/
  | mrewind
  /-- `MSTEP colour` (43_movie_player.md R183) -/
  | mstep (colour : Int)
  /-- `MTEARDOWN` (43_movie_player.md R187) -/
  | mteardown
deriving DecidableEq, Repr

end Sys2Proof
end

