-- ==== Sys2Proof/WellFormed.lean ====
section
/-! DEFINITION. Which commands can be encoded: every s32 operand in `[-2^31, 2^31)` and every u32
operand in `[0, 2^32)` (30_encoding.md R72, R78). -/

namespace Sys2Proof

/-- An s32 value (00_scope.md R9). -/
def isS32 (v : Int) : Bool := decide (-2147483648 ≤ v) && decide (v < 2147483648)

/-- A u32 value (00_scope.md R9). -/
def isU32 (v : Nat) : Bool := decide (v < 4294967296)

/-- The operands fit their operand words (30_encoding.md R72). -/
def Instr.wf : Instr → Bool
  | .setpt x y level => isS32 x && isS32 y && isS32 level
  | .getpt x y => isS32 x && isS32 y
  | .clear level => isS32 level
  | .setori mode => isS32 mode
  | .flush => true
  | .line x0 y0 x1 y1 colour => isS32 x0 && isS32 y0 && isS32 x1 && isS32 y1 && isS32 colour
  | .lineto x y colour => isS32 x && isS32 y && isS32 colour
  | .rect x1 y1 x2 y2 colour => isS32 x1 && isS32 y1 && isS32 x2 && isS32 y2 && isS32 colour
  | .circle cx cy r colour => isS32 cx && isS32 cy && isS32 r && isS32 colour
  | .ellipse cx cy rx ry colour => isS32 cx && isS32 cy && isS32 rx && isS32 ry && isS32 colour
  | .rectf x1 y1 x2 y2 colour => isS32 x1 && isS32 y1 && isS32 x2 && isS32 y2 && isS32 colour
  | .circlef cx cy r colour => isS32 cx && isS32 cy && isS32 r && isS32 colour
  | .ellipsef cx cy rx ry colour => isS32 cx && isS32 cy && isS32 rx && isS32 ry && isS32 colour
  | .blit src x0 y0 vx0 vx1 w h bg fg =>
      isU32 src && isS32 x0 && isS32 y0 && isS32 vx0 && isS32 vx1 && isS32 w && isS32 h &&
        isS32 bg && isS32 fg
  | .mload src len => isU32 src && isU32 len
  | .mrewind => true
  | .mstep colour => isS32 colour
  | .mteardown => true

end Sys2Proof
end

