-- ==== Sys2Proof/Decode.lean ====
section
/-! DEFINITION. The command encoding (30_encoding.md): the opcode map, the decoder from the words
on the command port, total on any words and rejecting by name, and the encoder. -/

namespace Sys2Proof

/-- The eighteen rows of the opcode map (30_encoding.md R74). -/
inductive Opcode
  | setpt | getpt | clear | setori | flush
  | line | lineto | rect | circle | ellipse | rectf | circlef | ellipsef
  | blit
  | mload | mrewind | mstep | mteardown
deriving DecidableEq, Repr

/-- How an operand word is read (30_encoding.md R72). -/
inductive OperandType
  | s32
  | u32
deriving DecidableEq, Repr

/-- Why a header word is illegal: (a), (b) and (c) of 30_encoding.md R76. -/
inductive IllegalHeader
  /-- (a): `RSV` is not 0 -/
  | reservedBits
  /-- (b): `OP` is no opcode of R74 -/
  | unknownOpcode
  /-- (c): `N` is not the opcode's operand count -/
  | operandCount
deriving DecidableEq, Repr

/-- What the decoder makes of the words on the command port. -/
inductive Decoded
  /-- a command, and the words after it -/
  | command (i : Instr) (rest : List Word)
  /-- an illegal header word (30_encoding.md R76) -/
  | illegal (why : IllegalHeader)
  /-- a legal header whose operand words have not all arrived, or no word at all -/
  | incomplete
deriving DecidableEq, Repr

/-- Every opcode, in the order of R74. -/
def Opcode.all : List Opcode :=
  [.setpt, .getpt, .clear, .setori, .flush, .line, .lineto, .rect, .circle, .ellipse,
   .rectf, .circlef, .ellipsef, .blit, .mload, .mrewind, .mstep, .mteardown]

/-- The `OP` column of R74. -/
def Opcode.code : Opcode → Nat
  | .setpt => 0x01
  | .getpt => 0x02
  | .clear => 0x03
  | .setori => 0x04
  | .flush => 0x05
  | .line => 0x10
  | .lineto => 0x11
  | .rect => 0x12
  | .circle => 0x13
  | .ellipse => 0x14
  | .rectf => 0x92
  | .circlef => 0x93
  | .ellipsef => 0x94
  | .blit => 0x20
  | .mload => 0x30
  | .mrewind => 0x31
  | .mstep => 0x32
  | .mteardown => 0x33

/-- The `operands` column of R74. -/
def Opcode.operandTypes : Opcode → List OperandType
  | .setpt => [.s32, .s32, .s32]
  | .getpt => [.s32, .s32]
  | .clear => [.s32]
  | .setori => [.s32]
  | .flush => []
  | .line => [.s32, .s32, .s32, .s32, .s32]
  | .lineto => [.s32, .s32, .s32]
  | .rect => [.s32, .s32, .s32, .s32, .s32]
  | .circle => [.s32, .s32, .s32, .s32]
  | .ellipse => [.s32, .s32, .s32, .s32, .s32]
  | .rectf => [.s32, .s32, .s32, .s32, .s32]
  | .circlef => [.s32, .s32, .s32, .s32]
  | .ellipsef => [.s32, .s32, .s32, .s32, .s32]
  | .blit => [.u32, .s32, .s32, .s32, .s32, .s32, .s32, .s32, .s32]
  | .mload => [.u32, .u32]
  | .mrewind => []
  | .mstep => [.s32]
  | .mteardown => []

/-- The `N` column of R74: how many operand words follow the header. -/
def Opcode.operandCount (op : Opcode) : Nat := op.operandTypes.length

/-- The row of R74 with this `OP`, if there is one. -/
def Opcode.ofCode (c : Nat) : Option Opcode := Opcode.all.find? fun op => op.code == c

/-- `OP = header[7:0]` (30_encoding.md R71). -/
def headerOp (h : Word) : Nat := (h.extractLsb' 0 8).toNat

/-- `N = header[15:8]` (30_encoding.md R71). -/
def headerCount (h : Word) : Nat := (h.extractLsb' 8 8).toNat

/-- `RSV = header[31:16]` (30_encoding.md R71). -/
def headerReserved (h : Word) : Nat := (h.extractLsb' 16 16).toNat

/-- The opcode of a legal header word, or why it is illegal (30_encoding.md R71, R76). -/
def headerOpcode (h : Word) : Except IllegalHeader Opcode :=
  if headerReserved h ≠ 0 then .error .reservedBits
  else
    match Opcode.ofCode (headerOp h) with
    | none => .error .unknownOpcode
    | some op => if headerCount h = op.operandCount then .ok op else .error .operandCount

/-- The command with these operand words, each read by its operand type (30_encoding.md R72, R74).
`none` only for a list of another length than the opcode's operand count. -/
def buildInstr : Opcode → List Word → Option Instr
  | .setpt, [x, y, l] => some (.setpt (Machine.s32 x) (Machine.s32 y) (Machine.s32 l))
  | .getpt, [x, y] => some (.getpt (Machine.s32 x) (Machine.s32 y))
  | .clear, [l] => some (.clear (Machine.s32 l))
  | .setori, [m] => some (.setori (Machine.s32 m))
  | .flush, [] => some .flush
  | .line, [a, b, c, d, e] =>
      some (.line (Machine.s32 a) (Machine.s32 b) (Machine.s32 c) (Machine.s32 d) (Machine.s32 e))
  | .lineto, [x, y, c] => some (.lineto (Machine.s32 x) (Machine.s32 y) (Machine.s32 c))
  | .rect, [a, b, c, d, e] =>
      some (.rect (Machine.s32 a) (Machine.s32 b) (Machine.s32 c) (Machine.s32 d) (Machine.s32 e))
  | .circle, [a, b, c, d] =>
      some (.circle (Machine.s32 a) (Machine.s32 b) (Machine.s32 c) (Machine.s32 d))
  | .ellipse, [a, b, c, d, e] =>
      some (.ellipse (Machine.s32 a) (Machine.s32 b) (Machine.s32 c) (Machine.s32 d)
        (Machine.s32 e))
  | .rectf, [a, b, c, d, e] =>
      some (.rectf (Machine.s32 a) (Machine.s32 b) (Machine.s32 c) (Machine.s32 d) (Machine.s32 e))
  | .circlef, [a, b, c, d] =>
      some (.circlef (Machine.s32 a) (Machine.s32 b) (Machine.s32 c) (Machine.s32 d))
  | .ellipsef, [a, b, c, d, e] =>
      some (.ellipsef (Machine.s32 a) (Machine.s32 b) (Machine.s32 c) (Machine.s32 d)
        (Machine.s32 e))
  | .blit, [a, b, c, d, e, f, g, h, i] =>
      some (.blit (Machine.u32 a) (Machine.s32 b) (Machine.s32 c) (Machine.s32 d) (Machine.s32 e)
        (Machine.s32 f) (Machine.s32 g) (Machine.s32 h) (Machine.s32 i))
  | .mload, [a, b] => some (.mload (Machine.u32 a) (Machine.u32 b))
  | .mrewind, [] => some .mrewind
  | .mstep, [c] => some (.mstep (Machine.s32 c))
  | .mteardown, [] => some .mteardown
  | _, _ => none

/-- The command at the head of the words on the port (30_encoding.md R75): the header first, then
its `N` operand words. -/
def decode : List Word → Decoded
  | [] => .incomplete
  | h :: ws =>
    match headerOpcode h with
    | .error why => .illegal why
    | .ok op =>
      match buildInstr op (ws.take op.operandCount) with
      | some i => .command i (ws.drop op.operandCount)
      | none => .incomplete

/-- The row of R74 a command belongs to. -/
def Instr.opcode : Instr → Opcode
  | .setpt .. => .setpt
  | .getpt .. => .getpt
  | .clear .. => .clear
  | .setori .. => .setori
  | .flush => .flush
  | .line .. => .line
  | .lineto .. => .lineto
  | .rect .. => .rect
  | .circle .. => .circle
  | .ellipse .. => .ellipse
  | .rectf .. => .rectf
  | .circlef .. => .circlef
  | .ellipsef .. => .ellipsef
  | .blit .. => .blit
  | .mload .. => .mload
  | .mrewind => .mrewind
  | .mstep .. => .mstep
  | .mteardown => .mteardown

/-- The operands of a command as integers, in the order of R74. -/
def Instr.operands : Instr → List Int
  | .setpt x y level => [x, y, level]
  | .getpt x y => [x, y]
  | .clear level => [level]
  | .setori mode => [mode]
  | .flush => []
  | .line x0 y0 x1 y1 colour => [x0, y0, x1, y1, colour]
  | .lineto x y colour => [x, y, colour]
  | .rect x1 y1 x2 y2 colour => [x1, y1, x2, y2, colour]
  | .circle cx cy r colour => [cx, cy, r, colour]
  | .ellipse cx cy rx ry colour => [cx, cy, rx, ry, colour]
  | .rectf x1 y1 x2 y2 colour => [x1, y1, x2, y2, colour]
  | .circlef cx cy r colour => [cx, cy, r, colour]
  | .ellipsef cx cy rx ry colour => [cx, cy, rx, ry, colour]
  | .blit src x0 y0 vx0 vx1 w h bg fg => [src, x0, y0, vx0, vx1, w, h, bg, fg]
  | .mload src len => [src, len]
  | .mrewind => []
  | .mstep colour => [colour]
  | .mteardown => []

/-- The legal header word of an opcode, `(N << 8) | OP` (30_encoding.md R71). -/
def Opcode.header (op : Opcode) : Word := BitVec.ofNat 32 (op.operandCount * 256 + op.code)

/-- The words of a command: the header, then each operand as a 32-bit two's-complement word
(30_encoding.md R70, R78). -/
def encode (i : Instr) : List Word := i.opcode.header :: i.operands.map Machine.wordOfInt

/-- How many words the longest command has: `1 + N` with `N` at most 9 (30_encoding.md R70). -/
abbrev maxCommandWords : Nat := 10

/-- The words of a command whose bits, numbered as spec/opcode_table.json numbers them, are the
low `nbits` bits of `w`; the bits above `nbits` are 0. Word `k` is bits `32k+31` to `32k`. -/
def tableWords (nbits w : Nat) : List Word :=
  (List.range maxCommandWords).map fun k => BitVec.ofNat 32 ((w % 2 ^ nbits) >>> (32 * k))

/-- The command the decoder reads from an opcode-table word (`none` where it refuses). -/
def decodeTableWord (nbits w : Nat) : Option Instr :=
  match decode (tableWords nbits w) with
  | .command i _ => some i
  | .illegal _ => none
  | .incomplete => none

end Sys2Proof
end

