-- ==== Sys2Proof/Machine/State.lean ====
section
/-! DEFINITION. The state of the block and of its channels (10_state.md, 60_exceptions.md section 5),
the faults and refusals a step can end in, and the state after reset (70_reset_and_hazards.md R230).
INVENTORY.md lists every field with its rule and its reset value. -/

namespace Sys2Proof.Machine

/-- A byte store: the bytes that are not `0x00`, by rising address. An unlisted address reads as
`0x00`, the reset value of `FB` (10_state.md R20) and, in this model, of `SRC` (log entry 6). -/
abbrev Mem := List Host.Cell

/-- `ORIENT` (10_state.md R22). -/
structure Orient where
  mirrorX : Bool
  mirrorY : Bool
deriving DecidableEq, Repr

/-- `PSTATE` (10_state.md R27). -/
inductive PState
  | stopped
  | start
  | running
deriving DecidableEq, Repr

/-- The eight header registers (10_state.md R29). -/
structure Header where
  magic : Word
  videoW : Word
  videoH : Word
  lcdW : Word
  lcdH : Word
  fps : Word
  frameCount : Word
  bpp : Word
deriving DecidableEq, Repr

/-- An event of the event channel (60_exceptions.md R210). -/
inductive Event
  /-- `FLUSH(snapshot)`: the framebuffer as it stood; its 4608 bytes in row-major order are
  `fbBytes snapshot` -/
  | flush (snapshot : Mem)
  /-- `SLEEP(ms)` -/
  | sleep (ms : Nat)
deriving DecidableEq, Repr

/-- What the host does to the block, in the order it does it (log entry 1). -/
inductive HostInput
  /-- the next 32-bit word on the command port (30_encoding.md R70) -/
  | word (w : Word)
  /-- the acknowledgement of a `SLEEP` (60_exceptions.md R213) -/
  | ackSleep
  /-- the host consumes the response of the last command (30_encoding.md R81) -/
  | readResponse
  /-- the host writes one byte of `SRC` (20_memory.md R50, R61) -/
  | writeSrc (addr : Nat) (value : Byte)
  /-- the reset input (70_reset_and_hazards.md R230) -/
  | reset
deriving DecidableEq, Repr

/-- The machine: the architectural state (10_state.md R36), the block's channels
(60_exceptions.md section 5), and the host's side of them. -/
structure State where
  /-- the instance's parameters (00_scope.md R6); no step changes them (log entry 3) -/
  params : Params
  /-- `FB`, address `r * 192 + c` (10_state.md R20) -/
  fb : Mem
  /-- `ORIENT` (10_state.md R22) -/
  orient : Orient
  /-- `CUR_X`, an s32 (10_state.md R23) -/
  curX : Int
  /-- `CUR_Y`, an s32 (10_state.md R23) -/
  curY : Int
  /-- `RES` (10_state.md R25) -/
  res : Word
  /-- `LOADED` (10_state.md R26) -/
  loaded : Bool
  /-- `PSTATE` (10_state.md R27) -/
  pstate : PState
  /-- `FRAME_IDX` (10_state.md R28) -/
  frameIdx : Nat
  /-- `HDR_*` (10_state.md R29) -/
  hdr : Header
  /-- `FRAME_SIZE` (10_state.md R29) -/
  frameSize : Nat
  /-- `MOV_BUF`; its length is `MOV_LEN` (10_state.md R30) -/
  movBuf : List Byte
  /-- `T_PREV` (10_state.md R32) -/
  tPrev : Nat
  /-- `HAS_PREV` (10_state.md R32) -/
  hasPrev : Bool
  /-- `FAULTED`, a mark of the model (10_state.md R33) -/
  faulted : Bool
  /-- `REFUSED`, a mark of the model (10_state.md R33) -/
  refused : Bool
  /-- `SRC`, the host's source memory (20_memory.md R50, R52) -/
  src : Mem
  /-- the event channel, oldest first (60_exceptions.md R210) -/
  events : List Event
  /-- the response the host has not yet consumed (30_encoding.md R81) -/
  response : Option Word
  /-- an `MSTEP` waits inside `Pace()` for its `SLEEP` to be acknowledged; the clock sample it took
  (43_movie_player.md R185, 60_exceptions.md R213, log entry 7) -/
  sleeping : Option Nat
  /-- the host's clock at the last sample (60_exceptions.md R212, log entry 5) -/
  clockLast : Nat
  /-- how many samples were drawn past `clockIn`: the index of the next free clock value
  (log entry 5) -/
  clockDraws : Nat
  /-- the clock's advance before each coming sample, as far as the host has fixed them
  (log entry 5) -/
  clockIn : List Nat
  /-- what the host does next, in order (log entry 1) -/
  inbox : List HostInput
deriving DecidableEq, Repr

/-- The faults (60_exceptions.md R204). Each carries the state the block is left in: `FAULTED` set
and the framebuffer writes made before the fault kept. -/
inductive Fault
  /-- `SRC_OUT_OF_RANGE`: raised by `BLIT` on a read of `SRC` at or past `SRC_SIZE`, and by `MLOAD`
  on a file range not inside `SRC`. Safe: the spec gives the fault (60_exceptions.md R204). -/
  | srcOutOfRange (s : State)
  /-- `MOV_OUT_OF_RANGE`: raised by `MSTEP` on a read of `MOV_BUF` at or past `MOV_LEN`, which no
  run reaches. Safe: the spec gives the fault (20_memory.md R54). -/
  | movOutOfRange (s : State)
  /-- The step after a fault: raised by `step` in a state marked `FAULTED`. Safe: the run has
  stopped and has no handler (60_exceptions.md R207, log entry 9). -/
  | alreadyFaulted (s : State)
deriving DecidableEq, Repr

/-- The refusals (60_exceptions.md R205). Each that ends a run carries the state it is left in:
`REFUSED` set and nothing else written. -/
inductive Refusal
  /-- An instruction with no meaning in `exec` yet; no arm uses it. Safe. -/
  | notModelled (mnemonic : String)
  /-- `ILLEGAL_COMMAND`: raised by `step` on an illegal header word (30_encoding.md R76). Safe: the
  spec gives the refusal. -/
  | illegalCommand (why : IllegalHeader) (s : State)
  /-- `CONCURRENT_COMMAND`: raised by `step` on a command word during a `SLEEP` or before the last
  response is consumed (60_exceptions.md R205, R214; 70_reset_and_hazards.md R237). Safe: the spec
  gives the refusal. -/
  | concurrentCommand (s : State)
  /-- Raised by `step` when the host writes `SRC` while a command executes
  (93_implementation_defined.md I9, log entry 10). Safe: the spec gives the refusal. -/
  | srcWriteDuringCommand (s : State)
  /-- Raised by `step` on a host input the spec gives no place for: an acknowledgement with no
  `SLEEP`, a response read with none there, a write of `SRC` past its end, another input between
  the words of one command (log entry 11). Safe: the model stops. -/
  | strayHostInput (s : State)
  /-- The step after a refusal: raised by `step` in a state marked `REFUSED`. Safe: no later
  command of the stream has a meaning (60_exceptions.md R205, log entry 9). -/
  | alreadyRefused (s : State)
deriving DecidableEq, Repr

/-- The header registers all 0 (10_state.md R29). -/
def Header.zero : Header where
  magic := 0#32
  videoW := 0#32
  videoH := 0#32
  lcdW := 0#32
  lcdH := 0#32
  fps := 0#32
  frameCount := 0#32
  bpp := 0#32

/-- The state at launch, right after reset (70_reset_and_hazards.md R230, R231; 10_state.md R36).
The host's side starts with nothing issued, no sample drawn and every byte of `SRC` `0x00`
(log entries 1, 5, 6, 13). -/
def State.reset : State where
  params := Config.params
  fb := []
  orient := ⟨false, false⟩
  curX := 0
  curY := 0
  res := 0#32
  loaded := false
  pstate := .stopped
  frameIdx := 0
  hdr := Header.zero
  frameSize := 0
  movBuf := []
  tPrev := 0
  hasPrev := false
  faulted := false
  refused := false
  src := []
  events := []
  response := none
  sleeping := none
  clockLast := 0
  clockDraws := 0
  clockIn := []
  inbox := []

end Sys2Proof.Machine
end

