-- ==== Sys2Proof/Machine/Flags.lean ====
section
/-! DEFINITION. The block has no arithmetic flags and no condition codes (10_state.md R34). What a
command reports is the value it leaves in `RES` (10_state.md R25): this file holds those values. -/

namespace Sys2Proof.Machine

/-- `RES` of a command that succeeds and has no value of its own (10_state.md R25). -/
abbrev resultOk : Int := 0

/-- The sentinel of an argument or format error (60_exceptions.md R200). -/
abbrev sentinel : Int := -1

/-- The codes of `PSTATE` that `MSTEP` returns (10_state.md R27). -/
def PState.code : PState → Int
  | .stopped => 0
  | .start => 1
  | .running => 2

end Sys2Proof.Machine
end

