-- ==== Sys2Proof/Machine/Ops.lean ====
section
/-! DEFINITION. The named operations over the stores and registers: byte reads and writes, the
pixel procedures of 40_pixelstore.md section 1, the reads of `SRC` and `MOV_BUF`, events, the
clock, and the four ways a command ends: a result, a fault, a refusal, or a wait.

The block has no exceptions to take and none to return from (60_exceptions.md R207); `raiseFault`
and `refuse` are the two outcomes that take an exception's place (R204, R205). -/

namespace Sys2Proof.Machine

/-- The outcome of a step on this state. -/
abbrev Result := Host.Outcome State Fault Refusal

/-! ### Byte stores -/

/-- The byte at an address; an unlisted one is `0x00`. -/
def Mem.read : Mem → Nat → Byte
  | [], _ => 0#8
  | c :: m, a => if c.1 = a then c.2 else Mem.read m a

/-- The store with no entry at an address. -/
def Mem.erase (m : Mem) (a : Nat) : Mem := m.filter fun c => decide (c.1 ≠ a)

/-- The store with an entry put before the first higher address. -/
def Mem.insert (a : Nat) (b : Byte) : Mem → Mem
  | [] => [(a, b)]
  | c :: m => if a < c.1 then (a, b) :: c :: m else c :: Mem.insert a b m

/-- Write one byte, keeping the canonical form: `0x00` is what an unlisted address reads as, so
writing it removes the entry. -/
def Mem.write (m : Mem) (a : Nat) (b : Byte) : Mem :=
  if b = 0#8 then Mem.erase m a else Mem.insert a b (Mem.erase m a)

/-- The canonical form: addresses strictly rising, no entry `0x00`. -/
def Mem.wf : Mem → Bool
  | [] => true
  | c :: m => decide (c.2 ≠ 0#8) && (m.all fun d => decide (c.1 < d.1)) && Mem.wf m

/-- Every listed address is below a bound. -/
def Mem.below (m : Mem) (n : Nat) : Bool := m.all fun c => decide (c.1 < n)

/-- The store whose first `n` bytes all hold `b` and whose others are unlisted. -/
def Mem.fill (n : Nat) (b : Byte) : Mem :=
  if b = 0#8 then [] else (List.range n).map fun a => (a, b)

/-- The 4608 bytes of a framebuffer or of a `FLUSH` snapshot in row-major order, byte `r * 192 + c`
(10_state.md R20, 60_exceptions.md R210). -/
def fbBytes (fb : Mem) : List Byte := (List.range Config.fbBytes).map (Mem.read fb)

/-! ### Pixels (40_pixelstore.md section 1) -/

/-- `Mirror(x, y)` (40_pixelstore.md R100). -/
def mirror (o : Orient) (x y : Int) : Int × Int :=
  (if o.mirrorX then Config.screenW - 1 - x else x,
   if o.mirrorY then Config.screenH - 1 - y else y)

/-- A physical coordinate on the screen (20_memory.md R51). -/
def onScreen (p : Int × Int) : Bool :=
  decide (0 ≤ p.1) && decide (p.1 < Config.screenW) &&
    decide (0 ≤ p.2) && decide (p.2 < Config.screenH)

/-- The address of the byte of a physical pixel: page `Y div 4`, column `X`
(20_memory.md R51, 10_state.md R20). -/
def pixelAddr (p : Int × Int) : Nat :=
  p.2.toNat / Config.ppb * Config.fbCols + p.1.toNat

/-- The shift of the field of a physical pixel (20_memory.md R51). -/
def pixelShift (p : Int × Int) : Nat := (Config.ppb - 1 - p.2.toNat % Config.ppb) * Config.bpp

/-- The field at a shift of a framebuffer byte (20_memory.md R51). -/
def getField (b : Byte) (shift : Nat) : Byte := (b >>> shift) &&& 3#8

/-- A framebuffer byte with the field at a shift replaced by a masked level, the other fields
unchanged (40_pixelstore.md R101). -/
def setField (b : Byte) (shift : Nat) (level : Int) : Byte :=
  (b &&& ~~~(3#8 <<< shift)) ||| (maskLevel level <<< shift)

/-- `PlotPixel(x, y, level)` (40_pixelstore.md R101): one field of one byte, or nothing off
screen. -/
def plotPixel (o : Orient) (x y level : Int) (fb : Mem) : Mem :=
  let p := mirror o x y
  if onScreen p then
    Mem.write fb (pixelAddr p) (setField (Mem.read fb (pixelAddr p)) (pixelShift p) level)
  else fb

/-- `ReadPixel(x, y)` (40_pixelstore.md R102): the level, or -1 off screen. -/
def readPixel (o : Orient) (x y : Int) (fb : Mem) : Int :=
  let p := mirror o x y
  if onScreen p then ((getField (Mem.read fb (pixelAddr p)) (pixelShift p)).toNat : Int)
  else sentinel

/-- Plot a list of logical points with one level, in order. -/
def plotPoints (o : Orient) (level : Int) (ps : List (Int × Int)) (fb : Mem) : Mem :=
  ps.foldl (fun fb p => plotPixel o p.1 p.2 level fb) fb

/-! ### Source memory and movie buffer -/

/-- `SrcRead(a)`; `none` stands for `Fault(SRC_OUT_OF_RANGE)` (20_memory.md R52). -/
def srcRead (s : State) (a : Nat) : Option Byte :=
  if a < s.params.srcSize then some (Mem.read s.src a) else none

/-- `MOV_LEN` (10_state.md R30). -/
def State.movLen (s : State) : Nat := s.movBuf.length

/-- `MovRead(o)`; `none` stands for `Fault(MOV_OUT_OF_RANGE)` (20_memory.md R54). -/
def movRead (s : State) (o : Nat) : Option Byte := s.movBuf[o]?

/-- What a drawing that reads memory leaves: the framebuffer after every pixel, or the framebuffer
as it stood at a read out of range (60_exceptions.md R204). -/
inductive Drawn
  | done (fb : Mem)
  | outOfRange (fb : Mem)
deriving DecidableEq, Repr

/-- `for i in [first, first + n)`, stopping at a read out of range (00_scope.md R9). -/
def drawRange (body : Nat → Mem → Drawn) : Nat → Nat → Mem → Drawn
  | 0, _, fb => .done fb
  | n + 1, first, fb =>
    match body first fb with
    | .done fb' => drawRange body n (first + 1) fb'
    | .outOfRange fb' => .outOfRange fb'

/-! ### Events and the clock (60_exceptions.md section 5) -/

/-- `Emit(e)` (60_exceptions.md R210). -/
def emit (e : Event) (s : State) : State := { s with events := s.events ++ [e] }

/-- `Emit(FLUSH(copy of FB))` (40_pixelstore.md R107). -/
def emitFlush (s : State) : State := emit (.flush s.fb) s

/-- `Clock()`: the sample, and the state after drawing it (60_exceptions.md R212). The advance
since the last sample is the host's next one where it has fixed it, else a free value, so a sample
is never smaller than an earlier one and is otherwise any value. -/
def clock (s : State) : Nat × State :=
  match s.clockIn with
  | d :: ds =>
    (s.clockLast + d, { s with clockLast := s.clockLast + d, clockIn := ds })
  | [] =>
    let now := s.clockLast + Config.clockAdvance s.clockDraws
    (now, { s with clockLast := now, clockDraws := s.clockDraws + 1 })

/-! ### How a command ends (60_exceptions.md R206) -/

/-- A command completes: `RES` is written last and its value is the response word
(10_state.md R25, 30_encoding.md R81). -/
def complete (v : Int) (s : State) : Result :=
  .next { s with res := wordOfInt v, response := some (wordOfInt v) }

/-- The state a fault leaves: `FAULTED` set, no `RES`, no response (60_exceptions.md R204). -/
def markFaulted (s : State) : State := { s with faulted := true }

/-- `raise Fault(SRC_OUT_OF_RANGE)` (60_exceptions.md R204). -/
def raiseSrcFault (s : State) : Result := .fault (.srcOutOfRange (markFaulted s))

/-- `raise Fault(MOV_OUT_OF_RANGE)` (60_exceptions.md R204). -/
def raiseMovFault (s : State) : Result := .fault (.movOutOfRange (markFaulted s))

/-- `refuse(reason)`: nothing is written, `REFUSED` is set (60_exceptions.md R205). -/
def refuse (reason : State → Refusal) (s : State) : Result :=
  .refused (reason { s with refused := true })

/-- No movie and no pacing state: the registers that `MLOAD` and `MTEARDOWN` release
(43_movie_player.md R173, R187). -/
def releaseMovie (s : State) : State :=
  { s with
    loaded := false, movBuf := [], hdr := Header.zero, frameSize := 0, frameIdx := 0,
    pstate := .stopped, hasPrev := false, tPrev := 0 }

/-- `FB[r][c] <- b` for every page and column (40_pixelstore.md R105). -/
def fillFb (b : Byte) (s : State) : State := { s with fb := Mem.fill Config.fbBytes b }

/-- The reset input (70_reset_and_hazards.md R230): every architectural register to its reset
value, the block idle; no event, and the marks, `SRC`, the clock and the parameters kept. -/
def resetInput (s : State) : State :=
  { s with
    fb := State.reset.fb, orient := State.reset.orient,
    curX := State.reset.curX, curY := State.reset.curY, res := State.reset.res,
    loaded := State.reset.loaded, pstate := State.reset.pstate,
    frameIdx := State.reset.frameIdx, hdr := State.reset.hdr,
    frameSize := State.reset.frameSize, movBuf := State.reset.movBuf,
    tPrev := State.reset.tPrev, hasPrev := State.reset.hasPrev,
    response := none, sleeping := none }

end Sys2Proof.Machine
end

