-- ==== Sys2Proof/Machine/Compositor.lean ====
section
/-! DEFINITION. The compositor command (42_compositor.md). -/

namespace Sys2Proof.Machine

/-- The bit of column `i` in a bitmap byte: bit 7 is the leftmost (42_compositor.md R151). -/
def bitmapBit (b : Byte) (i : Nat) : Bool := b.getLsbD (7 - i % 8)

/-- One pixel of `BlitCore` (42_compositor.md R150): column `i` of row `j`, skipped outside the
window, else read through `rd` and plotted. -/
def blitPixel (rd : Nat → Option Byte) (o : Orient) (x0 y0 vx0 vx1 : Int) (bpr : Nat)
    (bg fg : Int) (j i : Nat) (fb : Mem) : Drawn :=
  if x0 + i < vx0 ∨ vx1 < x0 + i then .done fb
  else
    match rd (j * bpr + i / 8) with
    | none => .outOfRange fb
    | some b => .done (plotPixel o (x0 + i) (y0 + j) (if bitmapBit b i then fg else bg) fb)

/-- `BlitCore(rd, x0, y0, vx0, vx1, w, h, bg, fg)` (42_compositor.md R150). -/
def blitCore (rd : Nat → Option Byte) (o : Orient) (x0 y0 vx0 vx1 w h bg fg : Int) (fb : Mem) :
    Drawn :=
  if w ≤ 0 ∨ h ≤ 0 then .done fb
  else
    drawRange
      (fun j => drawRange (blitPixel rd o x0 y0 vx0 vx1 (ceilDiv w.toNat 8) bg fg j) w.toNat 0)
      h.toNat 0 fb

/-- `BLIT src, x0, y0, vx0, vx1, w, h, bg, fg` (42_compositor.md R153, R154): the argument errors
first, then the copy, whose pixels before a read out of range stay drawn. -/
def execBlit (src : Nat) (x0 y0 vx0 vx1 w h bg fg : Int) (s : State) : Result :=
  if src = 0 then complete sentinel s
  else if vx1 < vx0 then complete sentinel s
  else
    match blitCore (fun k => srcRead s (src + k)) s.orient x0 y0 vx0 vx1 w h bg fg s.fb with
    | .done fb => complete resultOk { s with fb := fb }
    | .outOfRange fb => raiseSrcFault { s with fb := fb }

end Sys2Proof.Machine
end

