-- ==== Sys2Proof/Machine/MoviePlayer.lean ====
section
/-! DEFINITION. The movie player commands (43_movie_player.md): loading, rewinding, frame decoding
and drawing, stepping, pacing and teardown. -/

namespace Sys2Proof.Machine

/-! ### Load and rewind -/

/-- Pixels per byte of a frame record, `q = 8 div HDR_BPP` (43_movie_player.md R172). -/
def framePpb (bpp : Nat) : Nat := divN 8 bpp

/-- `FRAME_SIZE` (43_movie_player.md R172). -/
def frameSizeOf : ScanOrient → Nat → Nat → Nat → Nat
  | .horizontal, lcdW, lcdH, bpp => ceilDiv lcdW (framePpb bpp) * lcdH
  | .vertical, lcdW, lcdH, bpp => ceilDiv lcdH (framePpb bpp) * lcdW

/-- Field `k` of the header of the file at `src` (43_movie_player.md R171, R173). The range check
at the head of `MLOAD` makes every one of these reads legal. -/
def headerField (s : State) (src k : Nat) : Word :=
  joinBytes s.params.hostEndian (Mem.read s.src (src + 4 * k)) (Mem.read s.src (src + 4 * k + 1))
    (Mem.read s.src (src + 4 * k + 2)) (Mem.read s.src (src + 4 * k + 3))

/-- The header of the file at `src` (43_movie_player.md R171). -/
def readHeader (s : State) (src : Nat) : Header where
  magic := headerField s src 0
  videoW := headerField s src 1
  videoH := headerField s src 2
  lcdW := headerField s src 3
  lcdH := headerField s src 4
  fps := headerField s src 5
  frameCount := headerField s src 6
  bpp := headerField s src 7

/-- The frame size a header declares (43_movie_player.md R172). -/
def Header.frameSize (p : Params) (h : Header) : Nat :=
  frameSizeOf p.scanOrient h.lcdW.toNat h.lcdH.toNat h.bpp.toNat

/-- The file size a header declares, exact (43_movie_player.md R173). -/
def Header.totalSize (p : Params) (h : Header) : Nat :=
  Config.headerSize + h.frameCount.toNat * h.frameSize p

/-- The checks of `MLOAD` on a header and the file's length (43_movie_player.md R173): magic, bits
per pixel, fps and frame count, capacity, exact size. -/
def headerAccepted (p : Params) (h : Header) (len : Nat) : Bool :=
  decide (h.magic = Config.magic) &&
    (decide (h.bpp = 1#32) || decide (h.bpp = 2#32)) &&
    decide (1 ≤ h.fps.toNat) && decide (1 ≤ h.frameCount.toNat) &&
    decide (h.totalSize p ≤ p.movieMaxBytes) && decide (len = h.totalSize p)

/-- The movie registers after a successful load of the file at `src` (43_movie_player.md R173). -/
def installMovie (h : Header) (src : Nat) (s : State) : State :=
  { s with
    movBuf := (List.range (h.totalSize s.params)).map fun k => Mem.read s.src (src + k)
    hdr := h
    frameSize := h.frameSize s.params
    loaded := true
    pstate := .start }

/-- `MLOAD src, len` (43_movie_player.md R173, 60_exceptions.md R206): the range fault before any
change, then the release, then the checks. -/
def execMload (src len : Nat) (s : State) : Result :=
  if src = 0 then complete sentinel (releaseMovie s)
  else if s.params.srcSize < src + len then raiseSrcFault s
  else if len < Config.headerSize then complete sentinel (releaseMovie s)
  else if headerAccepted s.params (readHeader s src) len then
    complete resultOk (installMovie (readHeader s src) src (releaseMovie s))
  else complete sentinel (releaseMovie s)

/-- `MREWIND` (43_movie_player.md R176). -/
def execMrewind (s : State) : Result :=
  if s.loaded then complete resultOk { s with pstate := .start } else complete sentinel s

/-! ### Frames -/

/-- The field of a frame byte `k`-th from its most significant end (43_movie_player.md R178,
R179), as an integer. -/
def fieldOfByte (bpp : Nat) (b : Byte) (k : Nat) : Nat :=
  (b.toNat >>> ((framePpb bpp - 1 - k) * bpp)) &&& (2 ^ bpp - 1)

/-- The offset in `MOV_BUF` of the byte of frame pixel `(i, j)` of the record at `base`
(43_movie_player.md R178, R179). -/
def frameByteOffset (so : ScanOrient) (h : Header) (base i j : Nat) : Nat :=
  match so with
  | .horizontal =>
    base + j * ceilDiv h.lcdW.toNat (framePpb h.bpp.toNat) + divN i (framePpb h.bpp.toNat)
  | .vertical => base + divN j (framePpb h.bpp.toNat) * h.lcdW.toNat + i

/-- Which field of that byte holds frame pixel `(i, j)` (43_movie_player.md R178, R179). -/
def frameFieldIndex (so : ScanOrient) (h : Header) (i j : Nat) : Nat :=
  match so with
  | .horizontal => modN i (framePpb h.bpp.toNat)
  | .vertical => modN j (framePpb h.bpp.toNat)

/-- `FrameField(base, i, j)` (43_movie_player.md R178, R179). -/
def frameField (s : State) (base i j : Nat) : Option Nat :=
  (movRead s (frameByteOffset s.params.scanOrient s.hdr base i j)).map fun b =>
    fieldOfByte s.hdr.bpp.toNat b (frameFieldIndex s.params.scanOrient s.hdr i j)

/-- The gray level of a field (43_movie_player.md R180). -/
def frameLevel (h : Header) (colour : Int) (f : Nat) : Int :=
  if h.bpp = 1#32 then (if f = 1 then colour else 0) else f

/-- The frame origin (43_movie_player.md R182). -/
def frameOrigin (p : Params) (h : Header) : Int × Int :=
  match p.centerBy with
  | .video =>
    (tdiv (Config.screenW - h.videoW.toNat) 2 - 1, tdiv (Config.screenH - h.videoH.toNat) 2 - 1)
  | .lcd =>
    (tdiv (Config.screenW - h.lcdW.toNat) 2 - 1, tdiv (Config.screenH - h.lcdH.toNat) 2 - 1)

/-- What `FrameDraw` answers (43_movie_player.md R181). -/
inductive FrameDrawn
  /-- `OK` -/
  | ok (fb : Mem)
  /-- `FAIL`: never answered, kept because the spec names it (43_movie_player.md R181) -/
  | fail (fb : Mem)
  /-- a read of `MOV_BUF` out of range (20_memory.md R54) -/
  | outOfRange (fb : Mem)
deriving DecidableEq, Repr

/-- One pixel of `FrameDraw` (43_movie_player.md R181): column `i` of row `j`. -/
def framePixel (s : State) (base : Nat) (colour : Int) (j i : Nat) (fb : Mem) : Drawn :=
  let x := (frameOrigin s.params s.hdr).1 + i
  let y := (frameOrigin s.params s.hdr).2 + j
  if x < 0 ∨ Config.screenW - 1 < x then .done fb
  else
    match frameField s base i j with
    | none => .outOfRange fb
    | some f => .done (plotPixel s.orient x y (frameLevel s.hdr colour f) fb)

/-- The pixels of `FrameDraw`, row by row (43_movie_player.md R181). -/
def framePixels (s : State) (base : Nat) (colour : Int) (fb : Mem) : Drawn :=
  drawRange (fun j => drawRange (framePixel s base colour j) s.hdr.lcdW.toNat 0)
    s.hdr.lcdH.toNat 0 fb

/-- `FrameDraw(base, colour)` (43_movie_player.md R181). -/
def frameDraw (base : Nat) (colour : Int) (s : State) : FrameDrawn :=
  match framePixels s base colour s.fb with
  | .done fb => .ok fb
  | .outOfRange fb => .outOfRange fb

/-- Where frame `n` starts in `MOV_BUF` (43_movie_player.md R177). -/
def frameBase (s : State) (n : Nat) : Nat := Config.headerSize + n * s.frameSize

/-! ### Pacing -/

/-- The end of `Pace()` and of the `MSTEP` it stands in: the stamp is recorded and `RES` is
`RUNNING` (43_movie_player.md R185, R183). -/
def finishPace (now : Nat) (s : State) : Result :=
  complete PState.running.code { s with tPrev := now, hasPrev := true, sleeping := none }

/-- The frame period `P` in whole milliseconds (43_movie_player.md R185). -/
def framePeriod (h : Header) : Nat := divN 1000 h.fps.toNat

/-- The elapsed time since the previous stamp (43_movie_player.md R185), exact. -/
def elapsed (now : Nat) (s : State) : Int := now - s.tPrev

/-- `Pace()` with the clock sample `now` taken (43_movie_player.md R185): either the frame is on
time and the stamp is recorded, or a `SLEEP` is emitted and the `MSTEP` waits for its
acknowledgement (60_exceptions.md R213). -/
def paceAt (now : Nat) (s : State) : Result :=
  if s.hasPrev = true ∧ elapsed now s < framePeriod s.hdr then
    .next
      { emit (.sleep (framePeriod s.hdr - elapsed now s + s.params.paceMarginMs).toNat) s with
        sleeping := some now }
  else finishPace now s

/-- `Pace()` (43_movie_player.md R185). -/
def pace (s : State) : Result := paceAt (clock s).1 (clock s).2

/-- The host acknowledges the `SLEEP` of an `MSTEP` that took the sample `now`: the rest of
`Pace()`, with a second sample where the stamp is taken after the sleep
(43_movie_player.md R185, 60_exceptions.md R213). -/
def resumePace (now : Nat) (s : State) : Result :=
  match s.params.paceStamp with
  | .atFlush => finishPace now s
  | .afterSleep => finishPace (clock s).1 (clock s).2

/-! ### Step and teardown -/

/-- Draw the current frame, flush it and pace it (43_movie_player.md R183, the end of the
`RUNNING` arm). -/
def showFrame (colour : Int) (s : State) : Result :=
  match frameDraw (frameBase s s.frameIdx) colour s with
  | .ok fb => pace (emitFlush { s with fb := fb })
  | .fail fb => complete PState.stopped.code { s with fb := fb, pstate := .stopped }
  | .outOfRange fb => raiseMovFault { s with fb := fb }

/-- `MSTEP colour` (43_movie_player.md R183). -/
def execMstep (colour : Int) (s : State) : Result :=
  if s.loaded then
    match s.pstate with
    | .stopped => complete PState.stopped.code s
    | .start => complete PState.running.code { s with frameIdx := 0, pstate := .running }
    | .running =>
      if (s.frameIdx : Int) < s.hdr.frameCount.toNat - 1 then
        showFrame colour { s with frameIdx := s.frameIdx + 1 }
      else complete PState.stopped.code { s with pstate := .stopped }
  else complete PState.stopped.code { s with pstate := .stopped }

/-- `MTEARDOWN` (43_movie_player.md R187). -/
def execMteardown (s : State) : Result :=
  complete resultOk (emitFlush (fillFb 0x00#8 (releaseMovie s)))

end Sys2Proof.Machine
end

