-- ==== Sys2Proof/Machine/PixelStore.lean ====
section
/-! DEFINITION. The PixelStore commands (40_pixelstore.md section 2). -/

namespace Sys2Proof.Machine

/-- `SETPT x, y, level` (40_pixelstore.md R103): the cursor takes the logical point, on screen or
off. -/
def execSetpt (x y level : Int) (s : State) : Result :=
  complete resultOk { s with fb := plotPixel s.orient x y level s.fb, curX := x, curY := y }

/-- `GETPT x, y` (40_pixelstore.md R104). -/
def execGetpt (x y : Int) (s : State) : Result :=
  complete (readPixel s.orient x y s.fb) s

/-- `CLEAR level` (40_pixelstore.md R105): a byte fill, on the whole operand. -/
def execClear (level : Int) (s : State) : Result :=
  complete resultOk (fillFb (if level ≠ 0 then 0xFF#8 else 0x00#8) s)

/-- The orientation of a mode: `MIRROR_X = mode[0]`, `MIRROR_Y = mode[1]`
(40_pixelstore.md R106). -/
def orientOfMode (mode : Int) : Orient :=
  ⟨(wordOfInt mode).getLsbD 0, (wordOfInt mode).getLsbD 1⟩

/-- `SETORI mode` (40_pixelstore.md R106). -/
def execSetori (mode : Int) (s : State) : Result :=
  if 0 ≤ mode ∧ mode ≤ 3 then complete resultOk { s with orient := orientOfMode mode }
  else complete sentinel s

/-- `FLUSH` (40_pixelstore.md R107). -/
def execFlush (s : State) : Result := complete resultOk (emitFlush s)

end Sys2Proof.Machine
end

