-- ==== Sys2Proof/Machine/Rasterizer.lean ====
section
/-! DEFINITION. The rasterizer commands (41_rasterizer.md). The generators of points are lists,
in the order the rules plot or yield them; every pixel goes through `plotPixel`.

Each loop of the spec is a recursion on a number of rounds that is at least the number of rounds
the loop runs (70_reset_and_hazards.md R241), so it ends by the loop's own test (log entry 15). -/

namespace Sys2Proof.Machine

/-! ### Lines -/

/-- The step of a coordinate: `1` toward a larger end, else `-1` (41_rasterizer.md R120). -/
def lineSign (a b : Int) : Int := if a < b then 1 else -1

/-- The loop of `DrawLine` (41_rasterizer.md R120) from the point `(x, y)` with error `err`, for
at most the given number of rounds. -/
def lineLoop (x1 y1 dx dy sx sy : Int) : Nat → Int → Int → Int → List (Int × Int)
  | 0, _, _, _ => []
  | n + 1, err, x, y =>
    (x, y) ::
      if x = x1 ∧ y = y1 then []
      else
        let stepX : Bool := decide (-dy < 2 * err)
        let stepY : Bool := decide (2 * err < dx)
        lineLoop x1 y1 dx dy sx sy n
          (err - (if stepX then dy else 0) + (if stepY then dx else 0))
          (if stepX then x + sx else x)
          (if stepY then y + sy else y)

/-- The points `DrawLine(x0, y0, x1, y1, c)` plots, in order (41_rasterizer.md R120). -/
def linePoints (x0 y0 x1 y1 : Int) : List (Int × Int) :=
  let dx : Int := (x1 - x0).natAbs
  let dy : Int := (y1 - y0).natAbs
  lineLoop x1 y1 dx dy (lineSign x0 x1) (lineSign y0 y1) ((max dx dy).toNat + 1) (dx - dy) x0 y0

/-- `DrawLine(x0, y0, x1, y1, c)` (41_rasterizer.md R120). -/
def drawLine (o : Orient) (x0 y0 x1 y1 c : Int) (fb : Mem) : Mem :=
  plotPoints o c (linePoints x0 y0 x1 y1) fb

/-- `LINE x0, y0, x1, y1, colour` (41_rasterizer.md R121). -/
def execLine (x0 y0 x1 y1 colour : Int) (s : State) : Result :=
  complete resultOk
    { s with fb := drawLine s.orient x0 y0 x1 y1 colour s.fb, curX := x1, curY := y1 }

/-- `LINETO x, y, colour` (41_rasterizer.md R122). -/
def execLineto (x y colour : Int) (s : State) : Result :=
  complete resultOk
    { s with fb := drawLine s.orient s.curX s.curY x y colour s.fb, curX := x, curY := y }

/-! ### Rectangles -/

/-- Inverted corners are an error of this instance (41_rasterizer.md R123, 90_conflicts.md C2). -/
def rectRejected (s : State) (x1 y1 x2 y2 : Int) : Bool :=
  (decide (x2 < x1) || decide (y2 < y1)) && s.params.rectInvertedIsError

/-- The four sides of `RECT`: top, right, bottom, left (41_rasterizer.md R123). -/
def drawRect (o : Orient) (x1 y1 x2 y2 c : Int) (fb : Mem) : Mem :=
  drawLine o x1 y2 x1 y1 c
    (drawLine o x2 y2 x1 y2 c
      (drawLine o x2 y1 x2 y2 c
        (drawLine o x1 y1 x2 y1 c fb)))

/-- The columns of `RECTF`: one vertical line for each of `n` columns from `x`, ascending
(41_rasterizer.md R124). -/
def drawColumns (o : Orient) (y1 y2 c : Int) : Nat → Int → Mem → Mem
  | 0, _, fb => fb
  | n + 1, x, fb => drawColumns o y1 y2 c n (x + 1) (drawLine o x y1 x y2 c fb)

/-- `RECT x1, y1, x2, y2, colour` (41_rasterizer.md R123). -/
def execRect (x1 y1 x2 y2 colour : Int) (s : State) : Result :=
  if rectRejected s x1 y1 x2 y2 then complete sentinel s
  else
    complete resultOk
      { s with fb := drawRect s.orient x1 y1 x2 y2 colour s.fb, curX := x1, curY := y1 }

/-- `RECTF x1, y1, x2, y2, colour` (41_rasterizer.md R124): the columns `[xa, xb + 1)`. -/
def execRectf (x1 y1 x2 y2 colour : Int) (s : State) : Result :=
  if rectRejected s x1 y1 x2 y2 then complete sentinel s
  else
    complete resultOk
      { s with
        fb := drawColumns s.orient y1 y2 colour
          (max x1 x2 + 1 - min x1 x2).toNat (min x1 x2) s.fb
        curX := max x1 x2
        curY := y2 }

/-! ### Circles -/

/-- The loop of `CircleSteps` (41_rasterizer.md R125), for at most the given number of rounds. -/
def circleLoop : Nat → Int → Int → Int → List (Int × Int)
  | 0, _, _, _ => []
  | n + 1, x, y, d =>
    if x ≤ y then
      (x, y) ::
        if d < 0 then circleLoop n (x + 1) y (d + 2 * (x + 1) + 1)
        else circleLoop n (x + 1) (y - 1) (d + 2 * (x + 1 - (y - 1)) + 1)
    else []

/-- `CircleSteps(r)` (41_rasterizer.md R125). -/
def circleSteps (r : Int) : List (Int × Int) := circleLoop (r.toNat + 1) 0 r (1 - r)

/-- The eight reflections of an octant point about the centre (41_rasterizer.md R126). -/
def circleOctants (cx cy : Int) (p : Int × Int) : List (Int × Int) :=
  [(cx + p.1, cy + p.2), (cx - p.1, cy + p.2), (cx + p.1, cy - p.2), (cx - p.1, cy - p.2),
   (cx + p.2, cy + p.1), (cx - p.2, cy + p.1), (cx + p.2, cy - p.1), (cx - p.2, cy - p.1)]

/-- The points `CIRCLE` plots, in order (41_rasterizer.md R126). -/
def circlePoints (cx cy r : Int) : List (Int × Int) :=
  (circleSteps r).flatMap (circleOctants cx cy)

/-- The points of a horizontal chord about `cx` in row `y` (41_rasterizer.md R127, R130). -/
def chord (cx y half : Int) : List (Int × Int) := linePoints (cx - half) y (cx + half) y

/-- The four chords of an octant point (41_rasterizer.md R127). -/
def circleChords (cx cy : Int) (p : Int × Int) : List (Int × Int) :=
  chord cx (cy + p.2) p.1 ++ chord cx (cy - p.2) p.1 ++
    chord cx (cy + p.1) p.2 ++ chord cx (cy - p.1) p.2

/-- The points `CIRCLEF` plots, in order (41_rasterizer.md R127). -/
def circleFillPoints (cx cy r : Int) : List (Int × Int) :=
  (circleSteps r).flatMap (circleChords cx cy)

/-- `CIRCLE cx, cy, r, colour` (41_rasterizer.md R126). -/
def execCircle (cx cy r colour : Int) (s : State) : Result :=
  complete resultOk { s with fb := plotPoints s.orient colour (circlePoints cx cy r) s.fb }

/-- `CIRCLEF cx, cy, r, colour` (41_rasterizer.md R127). -/
def execCirclef (cx cy r colour : Int) (s : State) : Result :=
  complete resultOk { s with fb := plotPoints s.orient colour (circleFillPoints cx cy r) s.fb }

/-! ### Ellipses -/

/-- Region 2 of `EllipseSteps` (41_rasterizer.md R128), for at most the given number of rounds;
`a = rx * rx` and `b = ry * ry`. -/
def ellipseRegion2 (a b : Int) : Nat → Int → Int → Int → List (Int × Int)
  | 0, _, _, _ => []
  | n + 1, x, y, p2 =>
    if 0 ≤ y then
      (x, y) ::
        if 0 < p2 then ellipseRegion2 a b n x (y - 1) (p2 + 4 * (a - 2 * a * (y - 1)))
        else
          ellipseRegion2 a b n (x + 1) (y - 1)
            (p2 + 4 * (2 * b * (x + 1) - 2 * a * (y - 1) + a))
    else []

/-- The decision value region 2 starts from (41_rasterizer.md R128). -/
def ellipseP2 (a b x y : Int) : Int :=
  b * (2 * x + 1) ^ 2 + 4 * a * (y - 1) ^ 2 - 4 * a * b

/-- Region 1 of `EllipseSteps`, then region 2 (41_rasterizer.md R128), for at most the given
number of rounds of region 1. -/
def ellipseRegion1 (a b : Int) : Nat → Int → Int → Int → List (Int × Int)
  | 0, _, _, _ => []
  | n + 1, x, y, p1 =>
    if b * x < a * y then
      (x, y) ::
        if p1 < 0 then ellipseRegion1 a b n (x + 1) y (p1 + 4 * (2 * b * (x + 1) + b))
        else
          ellipseRegion1 a b n (x + 1) (y - 1)
            (p1 + 4 * (2 * b * (x + 1) - 2 * a * (y - 1) + b))
    else ellipseRegion2 a b (y.toNat + 1) x y (ellipseP2 a b x y)

/-- `EllipseSteps(rx, ry)` (41_rasterizer.md R128). Region 1 runs only while `B*x < A*y`, so it
runs at most `A * ry` rounds. -/
def ellipseSteps (rx ry : Int) : List (Int × Int) :=
  if rx < 0 ∨ ry < 0 then []
  else
    let a := rx * rx
    let b := ry * ry
    ellipseRegion1 a b ((a * ry).toNat + 1) 0 ry (4 * b - 4 * a * ry + a)

/-- The four reflections of a quadrant point about the centre (41_rasterizer.md R129). -/
def ellipseQuadrants (cx cy : Int) (p : Int × Int) : List (Int × Int) :=
  [(cx + p.1, cy + p.2), (cx - p.1, cy + p.2), (cx + p.1, cy - p.2), (cx - p.1, cy - p.2)]

/-- The points `ELLIPSE` plots, in order (41_rasterizer.md R129). -/
def ellipsePoints (cx cy rx ry : Int) : List (Int × Int) :=
  (ellipseSteps rx ry).flatMap (ellipseQuadrants cx cy)

/-- The two chords of a quadrant point (41_rasterizer.md R130). -/
def ellipseChords (cx cy : Int) (p : Int × Int) : List (Int × Int) :=
  chord cx (cy + p.2) p.1 ++ chord cx (cy - p.2) p.1

/-- The points `ELLIPSEF` plots, in order (41_rasterizer.md R130). -/
def ellipseFillPoints (cx cy rx ry : Int) : List (Int × Int) :=
  (ellipseSteps rx ry).flatMap (ellipseChords cx cy)

/-- `ELLIPSE cx, cy, rx, ry, colour` (41_rasterizer.md R129). -/
def execEllipse (cx cy rx ry colour : Int) (s : State) : Result :=
  complete resultOk { s with fb := plotPoints s.orient colour (ellipsePoints cx cy rx ry) s.fb }

/-- `ELLIPSEF cx, cy, rx, ry, colour` (41_rasterizer.md R130). -/
def execEllipsef (cx cy rx ry colour : Int) (s : State) : Result :=
  complete resultOk
    { s with fb := plotPoints s.orient colour (ellipseFillPoints cx cy rx ry) s.fb }

end Sys2Proof.Machine
end

