-- ==== Sys2Proof/Machine/Dispatch.lean ====
section
/-! DEFINITION. One arm per command: the meaning of each row of the opcode map
(30_encoding.md R74). -/

namespace Sys2Proof.Machine

def exec (i : Instr) (s : State) : Host.Outcome State Fault Refusal :=
  match i with
  | .setpt x y level => Sys2Proof.Machine.execSetpt x y level s
  | .getpt x y => Sys2Proof.Machine.execGetpt x y s
  | .clear level => Sys2Proof.Machine.execClear level s
  | .setori mode => Sys2Proof.Machine.execSetori mode s
  | .flush => Sys2Proof.Machine.execFlush s
  | .line x0 y0 x1 y1 colour => Sys2Proof.Machine.execLine x0 y0 x1 y1 colour s
  | .lineto x y colour => Sys2Proof.Machine.execLineto x y colour s
  | .rect x1 y1 x2 y2 colour => Sys2Proof.Machine.execRect x1 y1 x2 y2 colour s
  | .circle cx cy r colour => Sys2Proof.Machine.execCircle cx cy r colour s
  | .ellipse cx cy rx ry colour => Sys2Proof.Machine.execEllipse cx cy rx ry colour s
  | .rectf x1 y1 x2 y2 colour => Sys2Proof.Machine.execRectf x1 y1 x2 y2 colour s
  | .circlef cx cy r colour => Sys2Proof.Machine.execCirclef cx cy r colour s
  | .ellipsef cx cy rx ry colour => Sys2Proof.Machine.execEllipsef cx cy rx ry colour s
  | .blit src x0 y0 vx0 vx1 w h bg fg => Sys2Proof.Machine.execBlit src x0 y0 vx0 vx1 w h bg fg s
  | .mload src len => Sys2Proof.Machine.execMload src len s
  | .mrewind => Sys2Proof.Machine.execMrewind s
  | .mstep colour => Sys2Proof.Machine.execMstep colour s
  | .mteardown => Sys2Proof.Machine.execMteardown s

end Sys2Proof.Machine
end

