-- ==== Sys2Proof/Machine/Port.lean ====
section
/-! DEFINITION. The command port and the host's other inputs (30_encoding.md R70, R75, R81;
60_exceptions.md R204, R205, R213, R214; 70_reset_and_hazards.md R230, R237): which command the
next step executes, and what the step does where it executes none. -/

namespace Sys2Proof.Machine

/-- The words at the head of the inbox, up to the first input that is no word. -/
def leadingWords : List HostInput → List Word
  | .word w :: rest => w :: leadingWords rest
  | _ => []

/-- The inbox past its leading words. -/
def afterWords : List HostInput → List HostInput
  | .word _ :: rest => afterWords rest
  | inputs => inputs

/-- The inbox past its first `n` inputs: past the words of a command of `n` words. -/
def State.advance (n : Nat) (s : State) : State := { s with inbox := s.inbox.drop n }

/-- The block executes a command or has a response the host has not consumed, so that a further
command is refused (60_exceptions.md R214, 70_reset_and_hazards.md R237). -/
def State.busy (s : State) : Bool := s.sleeping.isSome || s.response.isSome

/-- What the next step does. -/
inductive Fetched
  /-- execute this command in this state, the inbox already past its words -/
  | command (i : Instr) (s : State)
  /-- no command executes; the step's outcome -/
  | outcome (r : Result)

/-- The words of a command have not all arrived: the block waits for the rest, unless the host
does something else first; only its reset input then has a meaning (log entry 11). -/
def awaitWords (s : State) : Result :=
  match afterWords s.inbox with
  | [] => .next s
  | .reset :: rest => .next (resetInput { s with inbox := rest })
  | .word _ :: _ => .next s
  | .ackSleep :: _ => refuse .strayHostInput s
  | .readResponse :: _ => refuse .strayHostInput s
  | .writeSrc _ _ :: _ => refuse .strayHostInput s

/-- The next input is a word of the command port: refused while the block is busy, else decoded
(30_encoding.md R75, R76). -/
def fetchCommand (s : State) : Fetched :=
  if s.busy then .outcome (refuse .concurrentCommand s)
  else
    match decode (leadingWords s.inbox) with
    | .command i rest => .command i (s.advance ((leadingWords s.inbox).length - rest.length))
    | .illegal why => .outcome (refuse (.illegalCommand why) s)
    | .incomplete => .outcome (awaitWords s)

/-- The host acknowledges a `SLEEP` (60_exceptions.md R213). -/
def takeAck (s : State) : Result :=
  match s.sleeping with
  | some now => resumePace now (s.advance 1)
  | none => refuse .strayHostInput s

/-- The host consumes the response (30_encoding.md R81). -/
def takeResponse (s : State) : Result :=
  match s.response with
  | some _ => .next { s.advance 1 with response := none }
  | none => refuse .strayHostInput s

/-- The host writes a byte of `SRC` (20_memory.md R61): refused while a command executes
(93_implementation_defined.md I9) and past the end of `SRC`. -/
def takeSrcWrite (addr : Nat) (value : Byte) (s : State) : Result :=
  if s.sleeping.isSome then refuse .srcWriteDuringCommand s
  else if addr < s.params.srcSize then
    .next { s.advance 1 with src := Mem.write s.src addr value }
  else refuse .strayHostInput s

/-- What the next step does (log entries 1, 2, 8, 9, 10, 11). A marked run goes no further
(60_exceptions.md R204, R205); with no input the block idles or waits, all its state kept
(60_exceptions.md R216). -/
def fetch (s : State) : Fetched :=
  if s.faulted then .outcome (.fault (.alreadyFaulted s))
  else if s.refused then .outcome (.refused (.alreadyRefused s))
  else
    match s.inbox with
    | [] => .outcome (.next s)
    | .word _ :: _ => fetchCommand s
    | .ackSleep :: _ => .outcome (takeAck s)
    | .readResponse :: _ => .outcome (takeResponse s)
    | .writeSrc addr value :: _ => .outcome (takeSrcWrite addr value s)
    | .reset :: _ => .outcome (.next (resetInput (s.advance 1)))

/-- The state with these words on the command port and nothing else there, and the block ready to
take them: idle, the last response consumed, the run not stopped (log entry 23). -/
def State.withPort (s : State) (ws : List Word) : State :=
  { s with
    inbox := ws.map .word, response := none, sleeping := none, faulted := false, refused := false }

/-- The words of the command that an opcode-table word stands for: its header and as many operand
words as the header announces. -/
def tableCommand (nbits w : Nat) : List Word :=
  match tableWords nbits w with
  | [] => []
  | h :: ws => h :: ws.take (headerCount h)

end Sys2Proof.Machine
end

