-- ==== Sys2Proof/Machine/Step.lean ====
section
/-! DEFINITION. One step of the machine: the next command on the port, executed to completion or to
its `SLEEP` (00_scope.md R7), or one other input of the host. -/

namespace Sys2Proof.Machine

/-- One step (00_scope.md R7). -/
def step (s : State) : Host.Outcome State Fault Refusal :=
  match fetch s with
  | .command i t => exec i t
  | .outcome r => r

/-- The state whose next step runs the command that the opcode-table word `w` stands for
(log entry 23). -/
def State.withFetchWord (s : State) (nbits w : Nat) : State :=
  s.withPort (tableCommand nbits w)

end Sys2Proof.Machine
end

