-- ==== Sys2Proof/Machine/Assembler.lean ====
section
/-! DEFINITION. The assembler syntax (30_encoding.md R78): from a line of text to the words of its
command. Text is a list of characters. Log entry 24 says how the model reads what R78 leaves to
the reader (white space, a sign, an empty line). -/

namespace Sys2Proof.Machine

/-- Why a line is an assembly error (30_encoding.md R78). -/
inductive AsmError
  /-- no command has this mnemonic -/
  | unknownMnemonic
  /-- the number of operands is not the command's -/
  | operandCount
  /-- an operand is neither a decimal nor a hexadecimal integer -/
  | badNumber
  /-- an operand is outside the range of its type -/
  | outOfRange
deriving DecidableEq, Repr

/-- The mnemonic of a row of R74, in capitals. -/
def opcodeMnemonic : Opcode → List Char
  | .setpt => ['S', 'E', 'T', 'P', 'T']
  | .getpt => ['G', 'E', 'T', 'P', 'T']
  | .clear => ['C', 'L', 'E', 'A', 'R']
  | .setori => ['S', 'E', 'T', 'O', 'R', 'I']
  | .flush => ['F', 'L', 'U', 'S', 'H']
  | .line => ['L', 'I', 'N', 'E']
  | .lineto => ['L', 'I', 'N', 'E', 'T', 'O']
  | .rect => ['R', 'E', 'C', 'T']
  | .circle => ['C', 'I', 'R', 'C', 'L', 'E']
  | .ellipse => ['E', 'L', 'L', 'I', 'P', 'S', 'E']
  | .rectf => ['R', 'E', 'C', 'T', 'F']
  | .circlef => ['C', 'I', 'R', 'C', 'L', 'E', 'F']
  | .ellipsef => ['E', 'L', 'L', 'I', 'P', 'S', 'E', 'F']
  | .blit => ['B', 'L', 'I', 'T']
  | .mload => ['M', 'L', 'O', 'A', 'D']
  | .mrewind => ['M', 'R', 'E', 'W', 'I', 'N', 'D']
  | .mstep => ['M', 'S', 'T', 'E', 'P']
  | .mteardown => ['M', 'T', 'E', 'A', 'R', 'D', 'O', 'W', 'N']

/-- A space, a tab or a carriage return. -/
def isBlank (c : Char) : Bool := c == ' ' || c == '\t' || c == '\r'

/-- A lower-case letter in capitals; any other character as it is. -/
def toCapital (c : Char) : Char :=
  if 'a' ≤ c ∧ c ≤ 'z' then Char.ofNat (c.toNat - 32) else c

/-- The text without blanks at either end. -/
def trimBlanks (cs : List Char) : List Char :=
  ((cs.dropWhile isBlank).reverse.dropWhile isBlank).reverse

/-- The pieces of a text between occurrences of a separator; one piece more than occurrences. -/
def splitAtChar (sep : Char) : List Char → List (List Char)
  | [] => [[]]
  | c :: cs =>
    if c = sep then [] :: splitAtChar sep cs
    else
      match splitAtChar sep cs with
      | [] => [[c]]
      | piece :: pieces => (c :: piece) :: pieces

/-- The value of a digit in a base of at most 16. -/
def digitValue (base : Nat) (c : Char) : Option Nat :=
  let v :=
    if '0' ≤ c ∧ c ≤ '9' then c.toNat - 48
    else if 'A' ≤ toCapital c ∧ toCapital c ≤ 'F' then (toCapital c).toNat - 55
    else 16
  if v < base then some v else none

/-- The value of a run of digits after a value already read. -/
def digitsFrom (base : Nat) (acc : Nat) : List Char → Option Nat
  | [] => some acc
  | c :: cs =>
    match digitValue base c with
    | some d => digitsFrom base (acc * base + d) cs
    | none => none

/-- The value of a run of digits that is not empty. -/
def digits (base : Nat) : List Char → Option Nat
  | [] => none
  | c :: cs => digitsFrom base 0 (c :: cs)

/-- An operand: `0x` and hexadecimal digits, or decimal digits with an optional sign
(30_encoding.md R78). -/
def parseNumber : List Char → Option Int
  | '0' :: 'x' :: cs => (digits 16 cs).map Int.ofNat
  | '0' :: 'X' :: cs => (digits 16 cs).map Int.ofNat
  | '-' :: cs => (digits 10 cs).map fun n => -(n : Int)
  | '+' :: cs => (digits 10 cs).map Int.ofNat
  | cs => (digits 10 cs).map Int.ofNat

/-- The operand's value lies in the range of its type (30_encoding.md R78). -/
def inRange : OperandType → Int → Bool
  | .s32, v => isS32 v
  | .u32, v => decide (0 ≤ v) && isU32 v.toNat

/-- The operand words, each operand against its type (30_encoding.md R72, R78). -/
def assembleOperands : List OperandType → List (List Char) → Except AsmError (List Word)
  | [], [] => .ok []
  | t :: ts, cs :: rest =>
    match parseNumber (trimBlanks cs) with
    | none => .error .badNumber
    | some v =>
      if inRange t v then
        match assembleOperands ts rest with
        | .ok ws => .ok (wordOfInt v :: ws)
        | .error e => .error e
      else .error .outOfRange
  | [], _ :: _ => .error .operandCount
  | _ :: _, [] => .error .operandCount

/-- A line without its comment (30_encoding.md R78). -/
def stripComment (cs : List Char) : List Char := cs.takeWhile fun c => c != ';'

/-- The operand texts after a mnemonic: none for a blank rest, else the pieces between commas. -/
def operandTexts (cs : List Char) : List (List Char) :=
  if trimBlanks cs = [] then [] else splitAtChar ',' cs

/-- The words a line assembles to (30_encoding.md R78): none for a line with no command. -/
def assembleLine (cs : List Char) : Except AsmError (List Word) :=
  let body := trimBlanks (stripComment cs)
  if body = [] then .ok []
  else
    let name := (body.takeWhile fun c => !isBlank c).map toCapital
    match Opcode.all.find? fun op => opcodeMnemonic op == name with
    | none => .error .unknownMnemonic
    | some op =>
      match assembleOperands op.operandTypes
          (operandTexts (body.dropWhile fun c => !isBlank c)) with
      | .ok ws => .ok (op.header :: ws)
      | .error e => .error e

/-- The words a list of lines assembles to, one command a line (30_encoding.md R78). -/
def assembleLines : List (List Char) → Except AsmError (List Word)
  | [] => .ok []
  | l :: ls =>
    match assembleLine l with
    | .error e => .error e
    | .ok ws =>
      match assembleLines ls with
      | .error e => .error e
      | .ok rest => .ok (ws ++ rest)

/-- The words a program text assembles to (30_encoding.md R78). -/
def assemble (text : List Char) : Except AsmError (List Word) :=
  assembleLines (splitAtChar '\n' text)

end Sys2Proof.Machine
end

