-- ==== Sys2Proof/Safety.lean ====
section
/-! DEFINITION. The terms the claims about this machine use: what a drawing does to the screen,
what a run may rely on in every state it reaches, playback as the host drives it, and the text of an
assembler line. -/

namespace Sys2Proof.Machine

/-! ### Drawing -/

/-- The level that is stored for an operand: its two low bits (40_pixelstore.md R101). -/
def storedLevel (level : Int) : Int := level % 4

/-- A drawing: the level it gives a logical point, or `none` where it leaves the point alone. -/
abbrev Paint := Int → Int → Option Int

/-- Some points in one colour (41_rasterizer.md introduction: only the set of pixels matters). -/
def paintPoints (ps : List (Int × Int)) (colour : Int) : Paint :=
  fun x y => if (x, y) ∈ ps then some colour else none

/-- `after` is `before` with a drawing on it, under the orientation `o`: every point on the screen
reads as the drawing says or as before, and no byte but those of drawn pixels changes
(40_pixelstore.md R101, R102; 60_exceptions.md R202). -/
structure Painted (o : Orient) (paint : Paint) (before after : Mem) : Prop where
  /-- every pixel of the screen, as `GETPT` reads it -/
  pixels : ∀ x y, onScreen (mirror o x y) = true →
    readPixel o x y after =
      match paint x y with
      | some level => storedLevel level
      | none => readPixel o x y before
  /-- every byte that holds no drawn pixel -/
  bytes : ∀ a, (∀ x y, paint x y ≠ none → onScreen (mirror o x y) = true →
      pixelAddr (mirror o x y) ≠ a) →
    Mem.read after a = Mem.read before a

/-- The boundary of the box with these opposite corners (41_rasterizer.md R123). -/
def onBoundary (x1 y1 x2 y2 x y : Int) : Prop :=
  (min x1 x2 ≤ x ∧ x ≤ max x1 x2) ∧ (min y1 y2 ≤ y ∧ y ≤ max y1 y2) ∧
    (x = x1 ∨ x = x2 ∨ y = y1 ∨ y = y2)

/-- The whole box with these opposite corners (41_rasterizer.md R124). -/
def inBox (x1 y1 x2 y2 x y : Int) : Prop :=
  (min x1 x2 ≤ x ∧ x ≤ max x1 x2) ∧ (min y1 y2 ≤ y ∧ y ≤ max y1 y2)

/-- The bit of column `i` and row `j` of a bitmap of `w` columns whose byte `k` is `rd k`
(42_compositor.md R151). -/
def sourceBit (rd : Nat → Byte) (w i j : Nat) : Bool :=
  (rd (j * ((w + 7) / 8) + i / 8)).getLsbD (7 - i % 8)

/-- A block copy as a drawing: the visible points of the block take `fg` or `bg`
(42_compositor.md R150). -/
def blockPaint (rd : Nat → Byte) (x0 y0 vx0 vx1 w h bg fg : Int) : Paint :=
  fun x y =>
    if (x0 ≤ x ∧ x < x0 + w) ∧ (y0 ≤ y ∧ y < y0 + h) ∧ vx0 ≤ x ∧ x ≤ vx1 then
      some (if sourceBit rd w.toNat (x - x0).toNat (y - y0).toNat then fg else bg)
    else none

/-- The part of a drawing in the rows above `j` of a block and, in row `j`, left of column `i`
(60_exceptions.md R204: what stays of a copy that faults). -/
def paintBefore (x0 y0 : Int) (i j : Nat) (paint : Paint) : Paint :=
  fun x y => if y < y0 + j ∨ (y = y0 + j ∧ x < x0 + i) then paint x y else none

/-- Column `i` and row `j` of a block lie inside the block and its visible window
(42_compositor.md R150). -/
def visibleAt (x0 vx0 vx1 w h : Int) (i j : Nat) : Prop :=
  (i : Int) < w ∧ (j : Int) < h ∧ vx0 ≤ x0 + i ∧ x0 + i ≤ vx1

/-- The field of frame pixel `(i, j)` of the record at `base` in a movie buffer, for a header with
1 or 2 bits per pixel (43_movie_player.md R178, R179). -/
def recordField (so : ScanOrient) (h : Header) (buf : List Byte) (base i j : Nat) : Nat :=
  let bpp := h.bpp.toNat
  let q := 8 / bpp
  match so with
  | .horizontal =>
    (buf.getD (base + j * ((h.lcdW.toNat + q - 1) / q) + i / q) 0#8).toNat /
      2 ^ ((q - 1 - i % q) * bpp) % 2 ^ bpp
  | .vertical =>
    (buf.getD (base + j / q * h.lcdW.toNat + i) 0#8).toNat /
      2 ^ ((q - 1 - j % q) * bpp) % 2 ^ bpp

/-- Frame `n` of the loaded movie as a drawing (43_movie_player.md R177 to R182). -/
def moviePaint (s : State) (n : Nat) (colour : Int) : Paint :=
  fun x y =>
    let x0 := (frameOrigin s.params s.hdr).1
    let y0 := (frameOrigin s.params s.hdr).2
    if (x0 ≤ x ∧ x < x0 + s.hdr.lcdW.toNat) ∧ (y0 ≤ y ∧ y < y0 + s.hdr.lcdH.toNat) then
      let f := recordField s.params.scanOrient s.hdr s.movBuf (32 + n * s.frameSize)
        (x - x0).toNat (y - y0).toNat
      some (if s.hdr.bpp = 1#32 then (if f = 1 then colour else 0) else f)
    else none

/-! ### What every run from reset keeps -/

/-- What `LOADED = 0` says of the movie registers (10_state.md R26 to R32, 43_movie_player.md
R170). -/
structure NoMovie (s : State) : Prop where
  pstate : s.pstate = .stopped
  movBuf : s.movBuf = []
  hdr : s.hdr = Header.zero
  frameSize : s.frameSize = 0
  frameIdx : s.frameIdx = 0
  hasPrev : s.hasPrev = false

/-- What `LOADED = 1` says of the movie registers (43_movie_player.md R173, 20_memory.md R54). -/
structure MovieLoaded (s : State) : Prop where
  magic : s.hdr.magic = Config.magic
  bpp : s.hdr.bpp = 1#32 ∨ s.hdr.bpp = 2#32
  fps : 1 ≤ s.hdr.fps.toNat
  frameCount : 1 ≤ s.hdr.frameCount.toNat
  frameSize : s.frameSize = s.hdr.frameSize s.params
  movLen : s.movLen = Config.headerSize + s.hdr.frameCount.toNat * s.frameSize
  capacity : s.movLen ≤ s.params.movieMaxBytes
  frameIdx : s.frameIdx < s.hdr.frameCount.toNat

/-- What an `MSTEP` waiting in its `SLEEP` says of the state (60_exceptions.md R213). -/
structure Asleep (now : Nat) (s : State) : Prop where
  stamp : now ≤ s.clockLast
  loaded : s.loaded = true
  pstate : s.pstate = .running
  hasPrev : s.hasPrev = true
  response : s.response = none

/-- The invariant of the machine: it holds at reset and every step keeps it. -/
structure Inv (s : State) : Prop where
  /-- `FB` is canonical and has 4608 bytes (10_state.md R20) -/
  fbCanonical : Mem.wf s.fb = true
  fbSize : Mem.below s.fb Config.fbBytes = true
  /-- `SRC` is canonical and has `SRC_SIZE` bytes, at least 1 (20_memory.md R52, 00_scope.md R6) -/
  srcCanonical : Mem.wf s.src = true
  srcSize : Mem.below s.src s.params.srcSize = true
  srcSizePos : 1 ≤ s.params.srcSize
  /-- `CURSOR` holds s32 values (10_state.md R23) -/
  curX : isS32 s.curX = true
  curY : isS32 s.curY = true
  /-- `FRAME_IDX` is below `2^32` (10_state.md R28) -/
  frameIdx : s.frameIdx < 2 ^ 32
  /-- the movie registers agree with `LOADED` -/
  unloaded : s.loaded = false → NoMovie s
  loaded : s.loaded = true → MovieLoaded s
  /-- `T_PREV` is 0 or a past sample of the clock (10_state.md R32, 60_exceptions.md R212) -/
  noStamp : s.hasPrev = false → s.tPrev = 0
  stampPast : s.tPrev ≤ s.clockLast
  /-- an unread response is `RES`, of a command that has completed (30_encoding.md R81) -/
  response : ∀ w, s.response = some w → w = s.res
  /-- an `MSTEP` waits only in a running movie, its response not yet given -/
  sleeping : ∀ now, s.sleeping = some now → Asleep now s

/-! ### The command port -/

/-- The run has not stopped and the block is ready for a command: it executes none, and the host
has consumed the last response (70_reset_and_hazards.md R237). -/
structure Ready (s : State) : Prop where
  faulted : s.faulted = false
  refused : s.refused = false
  sleeping : s.sleeping = none
  response : s.response = none

/-! ### Playback as the host drives it (43_movie_player.md R184) -/

/-- One `MSTEP` to its completion: the host acknowledges its `SLEEP` if there is one
(60_exceptions.md R213). -/
def playOnce (colour : Int) (s : State) : Option State :=
  match exec (.mstep colour) s with
  | .fault _ => none
  | .refused _ => none
  | .next t =>
    match t.sleeping with
    | none => some t
    | some now =>
      match resumePace now t with
      | .next u => some u
      | .fault _ => none
      | .refused _ => none

/-- `n` invocations of `MSTEP`, one after another, the host consuming the last response before
each (30_encoding.md R81). -/
def playTimes (colour : Int) : Nat → State → Option State
  | 0, s => some s
  | n + 1, s =>
    match playTimes colour n s with
    | some t => playOnce colour { t with response := none }
    | none => none

/-- How many `FLUSH` events are in a list of events. -/
def flushCount (es : List Event) : Nat :=
  es.countP fun e =>
    match e with
    | .flush _ => true
    | .sleep _ => false

/-! ### Files in source memory -/

/-- The bytes of a frame record of `w` x `h` pixels with 1 or 2 bits each (43_movie_player.md
R172). -/
def recordBytes : ScanOrient → Nat → Nat → Nat → Nat
  | .horizontal, w, h, bpp => (w + 8 / bpp - 1) / (8 / bpp) * h
  | .vertical, w, h, bpp => (h + 8 / bpp - 1) / (8 / bpp) * w

/-- A u32 at an address of a store, in a byte order (20_memory.md R55). -/
def u32At (e : Endian) (m : Mem) (a : Nat) : Nat :=
  let b := fun k => (Mem.read m (a + k)).toNat
  match e with
  | .little => b 0 + b 1 * 2 ^ 8 + b 2 * 2 ^ 16 + b 3 * 2 ^ 24
  | .big => b 3 + b 2 * 2 ^ 8 + b 1 * 2 ^ 16 + b 0 * 2 ^ 24

/-! ### The text of an assembler line (30_encoding.md R78, log entry 24) -/

/-- Nothing but blanks. -/
def Blanks (cs : List Char) : Prop := ∀ c ∈ cs, isBlank c = true

/-- A comment, or nothing (30_encoding.md R78). -/
def IsComment (cs : List Char) : Prop := cs = [] ∨ cs.head? = some ';'

/-- A character that stands for a digit, a letter in either case. -/
def IsDigit (base : Nat) (c : Char) (d : Nat) : Prop :=
  d < base ∧ (c = Nat.digitChar d ∨ c = (Nat.digitChar d).toUpper)

/-- One digit or more with this value, the most significant first. -/
def IsDigits (base : Nat) (cs : List Char) (n : Nat) : Prop :=
  cs ≠ [] ∧ ∃ ds, List.Forall₂ (IsDigit base) cs ds ∧ n = Nat.ofDigits base ds.reverse

/-- An integer as an operand writes it (30_encoding.md R78): decimal, with a sign or without one,
or hexadecimal after `0x`. -/
inductive IsNumeral : List Char → Int → Prop
  | decimal (cs : List Char) (n : Nat) : IsDigits 10 cs n → IsNumeral cs n
  | minus (cs : List Char) (n : Nat) : IsDigits 10 cs n → IsNumeral ('-' :: cs) (-(n : Int))
  | plus (cs : List Char) (n : Nat) : IsDigits 10 cs n → IsNumeral ('+' :: cs) n
  | hex (x : Char) (cs : List Char) (n : Nat) : x = 'x' ∨ x = 'X' → IsDigits 16 cs n →
      IsNumeral ('0' :: x :: cs) n

/-- An integer between blanks. -/
def IsOperand (cs : List Char) (v : Int) : Prop :=
  ∃ before num after, cs = before ++ num ++ after ∧ Blanks before ∧ Blanks after ∧
    IsNumeral num v

/-- What stands after a mnemonic: blanks alone, or operands between commas, a blank before the
first (30_encoding.md R78). -/
def IsOperandList (cs : List Char) (vs : List Int) : Prop :=
  (vs = [] ∧ Blanks cs) ∨
    ∃ texts, cs = [','].intercalate texts ∧ (∃ b, cs.head? = some b ∧ isBlank b = true) ∧
      texts ≠ [] ∧ List.Forall₂ IsOperand texts vs

/-- A mnemonic of R74 in letters of either case (30_encoding.md R78). -/
def IsMnemonic (cs : List Char) (op : Opcode) : Prop :=
  List.Forall₂ (fun c m => c = m ∨ c = m.toLower) cs (opcodeMnemonic op)

/-- A line with no command (30_encoding.md R78). -/
def IsBlankLine (text : List Char) : Prop :=
  ∃ blanks comment, text = blanks ++ comment ∧ Blanks blanks ∧ IsComment comment

/-- A line that names this row of R74 and these operands, whatever their number and their ranges
(30_encoding.md R78). -/
def IsCommandLine (text : List Char) (op : Opcode) (vs : List Int) : Prop :=
  ∃ blanks name operands comment, text = blanks ++ name ++ operands ++ comment ∧
    Blanks blanks ∧ IsMnemonic name op ∧ IsOperandList operands vs ∧ IsComment comment

end Sys2Proof.Machine
end

