-- ==== Sys2Proof/Certificates/Slice0/Obligations.lean ====
section
/-! DEFINITION. The statements for the provers. Each docstring names the rule of spec/ it
formalises. A result statement gives the whole next state, so it is also the command's frame:
what the record update does not name stays. -/

open Sys2Proof Sys2Proof.Machine

/-! ### Encoding (30_encoding.md) -/

/-- Decoding the words of a command gives the command back and leaves the words after it, whatever
the operands (R70, R72, R74, R75). -/
def Obligations.DecodeOfEncode : Prop :=
  ∀ (i : Instr) (rest : List Word), i.wf = true → decode (encode i ++ rest) = .command i rest

/-- What decodes is well formed and is exactly the words of its encoding: no two word sequences
are one command, and no command loses a bit (R70 to R75). -/
def Obligations.DecodeOnlyEncodings : Prop :=
  ∀ (ws rest : List Word) (i : Instr), decode ws = .command i rest →
    i.wf = true ∧ ws = encode i ++ rest

/-- R71: a header is legal exactly when `RSV` is 0, `OP` is an opcode of R74 and `N` is its operand
count; a legal header is exactly `(N << 8) | OP`. -/
def Obligations.LegalHeaderForm : Prop :=
  ∀ (h : Word) (ws : List Word),
    ((∃ why, decode (h :: ws) = .illegal why) ↔
      ¬(headerReserved h = 0 ∧ ∃ op : Opcode, op.code = headerOp h ∧
        op.operandCount = headerCount h)) ∧
    ((∃ why, decode (h :: ws) = .illegal why) ↔
      ∀ op : Opcode, h ≠ BitVec.ofNat 32 (op.operandCount <<< 8 ||| op.code))

/-- R76: an illegal header word on the port of a block that is ready is refused, nothing but the
mark is written, and no later step of that run has a meaning. That the host's words wait in a
queue, and that a step of a refused run answers `alreadyRefused`, is the model's form (log entries
1 and 9). -/
def Obligations.IllegalHeaderRefused : Prop :=
  ∀ (s : State) (h : Word) (rest : List HostInput), Ready s → s.inbox = .word h :: rest →
    (headerReserved h ≠ 0 ∨ (∀ op : Opcode, op.code ≠ headerOp h) ∨
      ∃ op : Opcode, op.code = headerOp h ∧ op.operandCount ≠ headerCount h) →
    (∃ why, step s = .refused (.illegalCommand why { s with refused := true })) ∧
      ∀ t : State, t.faulted = false → t.refused = true →
        step t = .refused (.alreadyRefused t)

/-- A step runs the decoded command: on a block that is ready, the step is the command's meaning in
the state whose inbox is past exactly the command's words (R75; 00_scope.md R7). The queue of the
host's inputs is the model's (log entry 1). -/
def Obligations.StepRunsDecodedCommand : Prop :=
  ∀ (s : State) (i : Instr) (ws : List Word), Ready s →
    decode (leadingWords s.inbox) = .command i ws →
    step s = exec i { s with inbox := ws.map .word ++ afterWords s.inbox }

/-- Command words written out from R74 and from the table of 95_test_vectors.md section 2.1 decode
to the commands they stand for. -/
def Obligations.SampleWordsDecode : Prop :=
  decode [0x00000301#32, 0xFFFFFFFF#32, 0#32, 3#32] = .command (.setpt (-1) 0 3) [] ∧
  decode [0x00000510#32, 3#32, 0x5A#32, 0x96#32, 2#32, 1#32] = .command (.line 3 90 150 2 1) [] ∧
  decode [0x00000920#32, 0x100#32, 10#32, 4#32, 0#32, 0xBF#32, 9#32, 2#32, 1#32, 0xFFFFFFFE#32] =
    .command (.blit 256 10 4 0 191 9 2 1 (-2)) [] ∧
  decode [0x00000230#32, 0xFFFFFFFF#32, 0x28#32, 0x31#32] =
    .command (.mload 4294967295 40) [0x31#32]

/-- R78: a line assembles to the words of a command exactly when it names the command's mnemonic and
its operands, in either case of letters and with every operand in its range, and to no words exactly
when it holds no command; every other line is an error. Which blanks, signs and prefixes a line may
have, and that a line with no command gives no words, is the model's choice (log entry 24). -/
def Obligations.AssembledLineIsCommand : Prop :=
  ∀ (text : List Char) (ws : List Word), assembleLine text = .ok ws ↔
    (ws = [] ∧ IsBlankLine text) ∨
    ∃ i : Instr, ws = encode i ∧ i.wf = true ∧ IsCommandLine text i.opcode i.operands

/-! ### PixelStore (40_pixelstore.md) -/

/-- R103 with R101: `SETPT` stores the level's two low bits in the field of the mirrored point and
in nothing else, changes nothing off screen, and always moves the cursor to the logical point. -/
def Obligations.SetptResult : Prop :=
  ∀ (x y level : Int) (s : State), ∃ fb,
    exec (.setpt x y level) s =
      .next { s with fb := fb, curX := x, curY := y, res := 0#32, response := some 0#32 } ∧
    Painted s.orient (fun x' y' => if x' = x ∧ y' = y then some level else none) s.fb fb ∧
    (onScreen (mirror s.orient x y) = false → fb = s.fb)

/-- R104 with R102: `GETPT` returns the field of the mirrored point, or -1 off screen, and changes
nothing else. -/
def Obligations.GetptResult : Prop :=
  ∀ (x y : Int) (s : State), ∃ v : Int,
    exec (.getpt x y) s =
      .next { s with res := BitVec.ofInt 32 v, response := some (BitVec.ofInt 32 v) } ∧
    (onScreen (mirror s.orient x y) = false → v = -1) ∧
    (onScreen (mirror s.orient x y) = true →
      v = (Mem.read s.fb (pixelAddr (mirror s.orient x y))).toNat /
        2 ^ pixelShift (mirror s.orient x y) % 4)

/-- The round trip of section 3: a point set on screen reads back, also after a write to any other
point; an off-screen point changes nothing and reads -1. -/
def Obligations.PixelRoundTrip : Prop :=
  ∀ (x y level : Int) (s t : State), exec (.setpt x y level) s = .next t →
    (onScreen (mirror s.orient x y) = true → 0 ≤ level → level ≤ 3 →
      exec (.getpt x y) t =
        .next { t with res := BitVec.ofInt 32 level, response := some (BitVec.ofInt 32 level) } ∧
      ∀ (x' y' level' : Int) (u : State), (x', y') ≠ (x, y) →
        exec (.setpt x' y' level') t = .next u →
        exec (.getpt x y) u =
          .next { u with res := BitVec.ofInt 32 level, response := some (BitVec.ofInt 32 level) }) ∧
    (onScreen (mirror s.orient x y) = false →
      t.fb = s.fb ∧
      exec (.getpt x y) t = .next { t with res := 0xFFFFFFFF#32, response := some 0xFFFFFFFF#32 })

/-- The orientation property of section 3, for each mirroring mode: a point set under mirroring is
the mirrored point set without it; it reads back there once mirroring is off, and while mirroring
is on the read at the mirrored point reads the physical point of the unmirrored one. -/
def Obligations.OrientationProperty : Prop :=
  ∀ (mode x y level : Int) (s a b c d e : State),
    (mode = 1 ∨ mode = 2 ∨ mode = 3) →
    exec (.setori mode) s = .next a → exec (.setpt x y level) a = .next b →
    exec (.setori 0) b = .next c →
    exec (.setori 0) s = .next d →
    exec (.setpt (if mode = 2 then x else 191 - x) (if mode = 1 then y else 95 - y) level) d =
      .next e →
    b.fb = e.fb ∧
    (onScreen (x, y) = true → 0 ≤ level → level ≤ 3 →
      exec (.getpt (if mode = 2 then x else 191 - x) (if mode = 1 then y else 95 - y)) c =
        .next { c with res := BitVec.ofInt 32 level, response := some (BitVec.ofInt 32 level) }) ∧
    readPixel b.orient (if mode = 2 then x else 191 - x) (if mode = 1 then y else 95 - y) b.fb =
      readPixel ⟨false, false⟩ x y b.fb

/-- R105: `CLEAR` fills every byte with `0xFF` or `0x00` by the whole operand, so every pixel is 3
or 0 under any orientation, and nothing else changes. -/
def Obligations.ClearResult : Prop :=
  ∀ (level : Int) (s : State), ∃ fb,
    exec (.clear level) s = .next { s with fb := fb, res := 0#32, response := some 0#32 } ∧
    (∀ a, a < 4608 → Mem.read fb a = if level = 0 then 0x00#8 else 0xFF#8) ∧
    (Mem.below s.fb 4608 = true → ∀ a, 4608 ≤ a → Mem.read fb a = Mem.read s.fb a) ∧
    (∀ x y, onScreen (mirror s.orient x y) = true →
      readPixel s.orient x y fb = if level = 0 then 0 else 3)

/-- R106: `SETORI` takes the modes 0 to 3, whose bits 0 and 1 are the two mirror flags; any other
mode returns -1 and changes nothing else. -/
def Obligations.SetoriResult : Prop :=
  ∀ (mode : Int) (s : State),
    exec (.setori mode) s =
      .next
        (if mode = 0 ∨ mode = 1 ∨ mode = 2 ∨ mode = 3 then
          { s with
            orient := ⟨decide (mode = 1 ∨ mode = 3), decide (mode = 2 ∨ mode = 3)⟩
            res := 0#32
            response := some 0#32 }
        else { s with res := 0xFFFFFFFF#32, response := some 0xFFFFFFFF#32 })

/-- R107: `FLUSH` emits one event with a copy of the framebuffer, 4608 bytes in row-major order,
and changes nothing else; a second flush carries an equal snapshot. -/
def Obligations.FlushResult : Prop :=
  ∀ s : State, ∃ t,
    exec .flush s = .next t ∧
    t = { s with events := s.events ++ [.flush s.fb], res := 0#32, response := some 0#32 } ∧
    exec .flush t = .next { t with events := s.events ++ [.flush s.fb, .flush s.fb] } ∧
    (fbBytes s.fb).length = 4608 ∧
    ∀ r c, r < 24 → c < 192 →
      (fbBytes s.fb)[r * 192 + c]? = some (Mem.read s.fb (r * 192 + c))

/-! ### Rasterizer (41_rasterizer.md) -/

/-- R120: a line plots `max(dx, dy) + 1` distinct points, from its first endpoint to its second;
its loop ends by its own test, not by the model's bound on rounds. -/
def Obligations.LinePointsReachEnd : Prop :=
  ∀ x0 y0 x1 y1 : Int,
    (linePoints x0 y0 x1 y1).length = max (x1 - x0).natAbs (y1 - y0).natAbs + 1 ∧
    (linePoints x0 y0 x1 y1).Nodup ∧
    (linePoints x0 y0 x1 y1).head? = some (x0, y0) ∧
    (linePoints x0 y0 x1 y1).getLast? = some (x1, y1) ∧
    ∀ n, max (x1 - x0).natAbs (y1 - y0).natAbs + 1 ≤ n →
      lineLoop x1 y1 (x1 - x0).natAbs (y1 - y0).natAbs (lineSign x0 x1) (lineSign y0 y1) n
        ((x1 - x0).natAbs - (y1 - y0).natAbs) x0 y0 = linePoints x0 y0 x1 y1

/-- R121: `LINE` draws the points of R120 and moves the cursor to its end point, on screen or
off. -/
def Obligations.LineResult : Prop :=
  ∀ (x0 y0 x1 y1 colour : Int) (s : State), ∃ fb,
    exec (.line x0 y0 x1 y1 colour) s =
      .next { s with fb := fb, curX := x1, curY := y1, res := 0#32, response := some 0#32 } ∧
    Painted s.orient (paintPoints (linePoints x0 y0 x1 y1) colour) s.fb fb

/-- R122: `LINETO` draws the line from the cursor, in logical coordinates under the present
orientation, and moves the cursor to its end point; after reset the cursor is (0, 0). -/
def Obligations.LinetoResult : Prop :=
  (∀ (x y colour : Int) (s : State), ∃ fb,
    exec (.lineto x y colour) s =
      .next { s with fb := fb, curX := x, curY := y, res := 0#32, response := some 0#32 } ∧
    Painted s.orient (paintPoints (linePoints s.curX s.curY x y) colour) s.fb fb) ∧
  State.reset.curX = 0 ∧ State.reset.curY = 0

/-- The endpoint property of section 5: after a `LINE` with both endpoints on screen and a level
as colour, `GETPT` at either endpoint returns the colour. -/
def Obligations.LineEndpointsDrawn : Prop :=
  ∀ (x0 y0 x1 y1 colour : Int) (s t : State),
    onScreen (mirror s.orient x0 y0) = true → onScreen (mirror s.orient x1 y1) = true →
    0 ≤ colour → colour ≤ 3 → exec (.line x0 y0 x1 y1 colour) s = .next t →
    exec (.getpt x0 y0) t =
        .next { t with res := BitVec.ofInt 32 colour, response := some (BitVec.ofInt 32 colour) } ∧
      exec (.getpt x1 y1) t =
        .next { t with res := BitVec.ofInt 32 colour, response := some (BitVec.ofInt 32 colour) }

/-- R123: `RECT` draws exactly the boundary of its box, whatever the order of the corners, and
leaves the cursor at its first corner; where inverted corners are an error it returns -1 and
changes nothing else. -/
def Obligations.RectResult : Prop :=
  ∀ (x1 y1 x2 y2 colour : Int) (s : State),
    (s.params.rectInvertedIsError = true ∧ (x2 < x1 ∨ y2 < y1) →
      exec (.rect x1 y1 x2 y2 colour) s =
        .next { s with res := 0xFFFFFFFF#32, response := some 0xFFFFFFFF#32 }) ∧
    (¬(s.params.rectInvertedIsError = true ∧ (x2 < x1 ∨ y2 < y1)) → ∃ fb ps,
      exec (.rect x1 y1 x2 y2 colour) s =
        .next { s with fb := fb, curX := x1, curY := y1, res := 0#32, response := some 0#32 } ∧
      Painted s.orient (paintPoints ps colour) s.fb fb ∧
      ∀ x y, (x, y) ∈ ps ↔ onBoundary x1 y1 x2 y2 x y)

/-- R124: `RECTF` draws exactly its whole box, whatever the order of the corners, and leaves the
cursor at the end of its last column; where inverted corners are an error it returns -1 and
changes nothing else. -/
def Obligations.RectfResult : Prop :=
  ∀ (x1 y1 x2 y2 colour : Int) (s : State),
    (s.params.rectInvertedIsError = true ∧ (x2 < x1 ∨ y2 < y1) →
      exec (.rectf x1 y1 x2 y2 colour) s =
        .next { s with res := 0xFFFFFFFF#32, response := some 0xFFFFFFFF#32 }) ∧
    (¬(s.params.rectInvertedIsError = true ∧ (x2 < x1 ∨ y2 < y1)) → ∃ fb ps,
      exec (.rectf x1 y1 x2 y2 colour) s =
        .next { s with
          fb := fb, curX := max x1 x2, curY := y2, res := 0#32, response := some 0#32 } ∧
      Painted s.orient (paintPoints ps colour) s.fb fb ∧
      ∀ x y, (x, y) ∈ ps ↔ inBox x1 y1 x2 y2 x y)

/-- R125: the circle generator yields octant points, at most `r + 1` of them, none for a negative
radius and the centre for radius 0; its loop ends by its own test. -/
def Obligations.CircleStepsOctant : Prop :=
  ∀ r : Int,
    (∀ p ∈ circleSteps r, 0 ≤ p.1 ∧ p.1 ≤ p.2 ∧ p.2 ≤ r) ∧
    (circleSteps r).length ≤ (r + 1).toNat ∧
    (r < 0 → circleSteps r = []) ∧
    (r = 0 → circleSteps r = [(0, 0)]) ∧
    ∀ n, (r + 1).toNat ≤ n → circleLoop n 0 r (1 - r) = circleSteps r

/-- R126: `CIRCLE` draws the eight reflections of the octant points about its centre and nothing
else, so every drawn point has all its reflections drawn; radius 0 draws the centre, a negative
radius nothing; the cursor stays. -/
def Obligations.CircleResult : Prop :=
  ∀ (cx cy r colour : Int) (s : State), ∃ fb ps,
    exec (.circle cx cy r colour) s =
      .next { s with fb := fb, res := 0#32, response := some 0#32 } ∧
    Painted s.orient (paintPoints ps colour) s.fb fb ∧
    (∀ x y, (x, y) ∈ ps ↔ ∃ p ∈ circleSteps r,
      (((x - cx).natAbs : Int) = p.1 ∧ ((y - cy).natAbs : Int) = p.2) ∨
      (((x - cx).natAbs : Int) = p.2 ∧ ((y - cy).natAbs : Int) = p.1)) ∧
    (r = 0 → ∀ x y, (x, y) ∈ ps ↔ x = cx ∧ y = cy) ∧
    (r < 0 → fb = s.fb)

/-- R127: `CIRCLEF` draws, for each octant point, the whole horizontal chords through its
reflections, and nothing else; radius 0 draws the centre, a negative radius nothing; the cursor
stays. -/
def Obligations.CirclefResult : Prop :=
  ∀ (cx cy r colour : Int) (s : State), ∃ fb ps,
    exec (.circlef cx cy r colour) s =
      .next { s with fb := fb, res := 0#32, response := some 0#32 } ∧
    Painted s.orient (paintPoints ps colour) s.fb fb ∧
    (∀ x y, (x, y) ∈ ps ↔ ∃ p ∈ circleSteps r,
      (((y - cy).natAbs : Int) = p.2 ∧ ((x - cx).natAbs : Int) ≤ p.1) ∨
      (((y - cy).natAbs : Int) = p.1 ∧ ((x - cx).natAbs : Int) ≤ p.2)) ∧
    (r = 0 → ∀ x y, (x, y) ∈ ps ↔ x = cx ∧ y = cy) ∧
    (r < 0 → fb = s.fb)

/-- R128 with R241 of 70_reset_and_hazards.md: the ellipse generator yields quadrant points, at most
`rx + ry + 2` of them, none for a negative radius, the column of the minor axis for `rx = 0` and the
centre for `ry = 0`; both its loops end by their own tests. -/
def Obligations.EllipseStepsQuadrant : Prop :=
  (∀ rx ry : Int, (rx < 0 ∨ ry < 0 → ellipseSteps rx ry = []) ∧
    (0 ≤ rx → 0 ≤ ry → ((ellipseSteps rx ry).length : Int) ≤ rx + ry + 2) ∧
    ∀ p ∈ ellipseSteps rx ry, 0 ≤ p.1 ∧ 0 ≤ p.2 ∧ p.2 ≤ ry) ∧
  (∀ ry : Int, 0 ≤ ry → ∀ x y, (x, y) ∈ ellipseSteps 0 ry ↔ x = 0 ∧ 0 ≤ y ∧ y ≤ ry) ∧
  (∀ rx : Int, 0 ≤ rx → ellipseSteps rx 0 = [(0, 0)]) ∧
  (∀ (rx ry : Int) (n : Nat), 0 ≤ rx → 0 ≤ ry → (rx * rx * ry).toNat + 1 ≤ n →
    ellipseRegion1 (rx * rx) (ry * ry) n 0 ry (4 * (ry * ry) - 4 * (rx * rx) * ry + rx * rx) =
      ellipseSteps rx ry) ∧
  ∀ (a b x y p2 : Int) (n : Nat), y.toNat + 1 ≤ n →
    ellipseRegion2 a b n x y p2 = ellipseRegion2 a b (y.toNat + 1) x y p2

/-- R129: `ELLIPSE` draws the four reflections of the quadrant points about its centre and nothing
else; a negative radius draws nothing; the cursor stays. -/
def Obligations.EllipseResult : Prop :=
  ∀ (cx cy rx ry colour : Int) (s : State), ∃ fb ps,
    exec (.ellipse cx cy rx ry colour) s =
      .next { s with fb := fb, res := 0#32, response := some 0#32 } ∧
    Painted s.orient (paintPoints ps colour) s.fb fb ∧
    (∀ x y, (x, y) ∈ ps ↔ ∃ p ∈ ellipseSteps rx ry,
      ((x - cx).natAbs : Int) = p.1 ∧ ((y - cy).natAbs : Int) = p.2) ∧
    (rx = 0 ∧ ry = 0 → ∀ x y, (x, y) ∈ ps ↔ x = cx ∧ y = cy) ∧
    (rx = 0 ∧ 0 < ry → ∀ x y, (x, y) ∈ ps ↔ x = cx ∧ cy - ry ≤ y ∧ y ≤ cy + ry) ∧
    (0 < rx ∧ ry = 0 → ∀ x y, (x, y) ∈ ps ↔ x = cx ∧ y = cy) ∧
    (rx < 0 ∨ ry < 0 → fb = s.fb)

/-- R130: `ELLIPSEF` draws, for each quadrant point, the whole horizontal chords through its
reflections, and nothing else; `ry = 0` draws the centre, a negative radius nothing; the cursor
stays. -/
def Obligations.EllipsefResult : Prop :=
  ∀ (cx cy rx ry colour : Int) (s : State), ∃ fb ps,
    exec (.ellipsef cx cy rx ry colour) s =
      .next { s with fb := fb, res := 0#32, response := some 0#32 } ∧
    Painted s.orient (paintPoints ps colour) s.fb fb ∧
    (∀ x y, (x, y) ∈ ps ↔ ∃ p ∈ ellipseSteps rx ry,
      ((y - cy).natAbs : Int) = p.2 ∧ ((x - cx).natAbs : Int) ≤ p.1) ∧
    (rx = 0 ∧ ry = 0 → ∀ x y, (x, y) ∈ ps ↔ x = cx ∧ y = cy) ∧
    (rx = 0 ∧ 0 < ry → ∀ x y, (x, y) ∈ ps ↔ x = cx ∧ cy - ry ≤ y ∧ y ≤ cy + ry) ∧
    (0 < rx ∧ ry = 0 → ∀ x y, (x, y) ∈ ps ↔ x = cx ∧ y = cy) ∧
    (rx < 0 ∨ ry < 0 → fb = s.fb)

/-! ### Compositor (42_compositor.md) -/

/-- R150, R151, R153: with the bitmap present, the window not inverted and every visible byte
inside `SRC`, `BLIT` gives each visible point of the block the level its bit picks, and nothing
else changes; an empty block or a window outside the block draws nothing. -/
def Obligations.BlitDraws : Prop :=
  ∀ (src : Nat) (x0 y0 vx0 vx1 w h bg fg : Int) (s : State), src ≠ 0 → vx0 ≤ vx1 →
    (∀ i j : Nat, visibleAt x0 vx0 vx1 w h i j →
      src + (j * ((w.toNat + 7) / 8) + i / 8) < s.params.srcSize) →
    ∃ fb,
      exec (.blit src x0 y0 vx0 vx1 w h bg fg) s =
        .next { s with fb := fb, res := 0#32, response := some 0#32 } ∧
      Painted s.orient
        (blockPaint (fun k => Mem.read s.src (src + k)) x0 y0 vx0 vx1 w h bg fg) s.fb fb

/-- R154: an absent bitmap or an inverted window returns -1 and writes nothing, whatever
`SRC` holds; it is reported, with no fault, even where the block lies outside `SRC`. -/
def Obligations.BlitArgumentErrors : Prop :=
  ∀ (src : Nat) (x0 y0 vx0 vx1 w h bg fg : Int) (s : State), (src = 0 ∨ vx1 < vx0) →
    exec (.blit src x0 y0 vx0 vx1 w h bg fg) s =
      .next { s with res := 0xFFFFFFFF#32, response := some 0xFFFFFFFF#32 }

/-- R150, R153 with R204 of 60_exceptions.md: at the first visible point, row by row, whose byte
lies outside `SRC`, `BLIT` faults; the points before it are drawn, the mark is set, and `RES` and
the response are not written. -/
def Obligations.BlitFaults : Prop :=
  ∀ (src : Nat) (x0 y0 vx0 vx1 w h bg fg : Int) (s : State) (i j : Nat), src ≠ 0 → vx0 ≤ vx1 →
    visibleAt x0 vx0 vx1 w h i j →
    s.params.srcSize ≤ src + (j * ((w.toNat + 7) / 8) + i / 8) →
    (∀ i' j' : Nat, visibleAt x0 vx0 vx1 w h i' j' → (j' < j ∨ (j' = j ∧ i' < i)) →
      src + (j' * ((w.toNat + 7) / 8) + i' / 8) < s.params.srcSize) →
    ∃ fb,
      exec (.blit src x0 y0 vx0 vx1 w h bg fg) s =
        .fault (.srcOutOfRange { s with fb := fb, faulted := true }) ∧
      Painted s.orient
        (paintBefore x0 y0 i j
          (blockPaint (fun k => Mem.read s.src (src + k)) x0 y0 vx0 vx1 w h bg fg)) s.fb fb

/-! ### Movie player (43_movie_player.md) -/

/-- R173: `MLOAD` faults on a file range outside `SRC` before any change; otherwise it releases the
previous movie and either installs the file's header and bytes, armed at frame 0, or returns
-1 with no movie loaded. -/
def Obligations.MloadResult : Prop :=
  ∀ (src len : Nat) (s : State),
    let f := fun k => u32At s.params.hostEndian s.src (src + 4 * k)
    let fs := recordBytes s.params.scanOrient (f 3) (f 4) (f 7)
    let good := src ≠ 0 ∧ 32 ≤ len ∧ f 0 = 0x4C564946 ∧ (f 7 = 1 ∨ f 7 = 2) ∧ 1 ≤ f 5 ∧ 1 ≤ f 6 ∧
      32 + f 6 * fs ≤ s.params.movieMaxBytes ∧ len = 32 + f 6 * fs
    let out := src ≠ 0 ∧ s.params.srcSize < src + len
    (out → exec (.mload src len) s = .fault (.srcOutOfRange { s with faulted := true })) ∧
    (¬out → good →
      exec (.mload src len) s =
        .next { s with
          loaded := true
          movBuf := (List.range len).map fun k => Mem.read s.src (src + k)
          hdr := ⟨BitVec.ofNat 32 (f 0), BitVec.ofNat 32 (f 1), BitVec.ofNat 32 (f 2),
            BitVec.ofNat 32 (f 3), BitVec.ofNat 32 (f 4), BitVec.ofNat 32 (f 5),
            BitVec.ofNat 32 (f 6), BitVec.ofNat 32 (f 7)⟩
          frameSize := fs
          frameIdx := 0
          pstate := .start
          hasPrev := false
          tPrev := 0
          res := 0#32
          response := some 0#32 }) ∧
    (¬out → ¬good →
      exec (.mload src len) s =
        .next { s with
          loaded := false
          movBuf := []
          hdr := ⟨0#32, 0#32, 0#32, 0#32, 0#32, 0#32, 0#32, 0#32⟩
          frameSize := 0
          frameIdx := 0
          pstate := .stopped
          hasPrev := false
          tPrev := 0
          res := 0xFFFFFFFF#32
          response := some 0xFFFFFFFF#32 })

/-- R176: `MREWIND` re-arms a loaded movie, keeping the frame index and the pacing registers; with
no movie it returns -1 and changes nothing else. -/
def Obligations.MrewindResult : Prop :=
  ∀ s : State,
    exec .mrewind s =
      .next
        (if s.loaded = true then { s with pstate := .start, res := 0#32, response := some 0#32 }
        else { s with res := 0xFFFFFFFF#32, response := some 0xFFFFFFFF#32 })

/-- R183, the arms that draw no frame (R170, R231 of 70_reset_and_hazards.md): with no movie and in
`STOPPED`, `MSTEP` returns `STOPPED`; in `START` it arms frame 0 and returns `RUNNING`; in
`RUNNING` at the last frame it stops. -/
def Obligations.MstepWithoutFrame : Prop :=
  ∀ (colour : Int) (s : State),
    (s.loaded = false ∨ s.pstate = .stopped →
      exec (.mstep colour) s =
        .next { s with pstate := .stopped, res := 0#32, response := some 0#32 }) ∧
    (s.loaded = true → s.pstate = .start →
      exec (.mstep colour) s =
        .next { s with frameIdx := 0, pstate := .running, res := 2#32, response := some 2#32 }) ∧
    (s.loaded = true → s.pstate = .running → s.hdr.frameCount.toNat ≤ s.frameIdx + 1 →
      exec (.mstep colour) s =
        .next { s with pstate := .stopped, res := 0#32, response := some 0#32 })

/-- R183, the arm that draws (R177 to R182, R185): in `RUNNING` before the last frame of a movie
that `MLOAD` accepted, `MSTEP` takes the next frame, draws exactly its pixels, flushes the
framebuffer it drew, then paces. It never faults. How `pace` samples the clock and waits is the
model's form (log entries 5 and 7). -/
def Obligations.MstepDrawsFrame : Prop :=
  ∀ (colour : Int) (s : State), Inv s → s.loaded = true → s.pstate = .running →
    s.frameIdx + 1 < s.hdr.frameCount.toNat →
    ∃ fb t,
      Painted s.orient (moviePaint s (s.frameIdx + 1) colour) s.fb fb ∧
      exec (.mstep colour) s = .next t ∧
      pace { s with
        fb := fb, frameIdx := s.frameIdx + 1, events := s.events ++ [.flush fb] } = .next t ∧
      t.fb = fb ∧ t.frameIdx = s.frameIdx + 1 ∧ t.pstate = .running

/-- R181: for 1-bit frames scanned horizontally, drawing a frame is the compositor's copy of the
frame's bits, with levels 0 and `colour`, in the window of the whole screen. -/
def Obligations.FrameDrawIsBlit : Prop :=
  ∀ (s : State) (base : Nat) (colour : Int) (fb : Mem), s.hdr.bpp = 1#32 →
    s.params.scanOrient = .horizontal →
    framePixels s base colour fb =
      blitCore (fun k => movRead s (base + k)) s.orient (frameOrigin s.params s.hdr).1
        (frameOrigin s.params s.hdr).2 0 191 s.hdr.lcdW.toNat s.hdr.lcdH.toNat 0 colour fb

/-- R185 with R212 of 60_exceptions.md: `Pace()` takes one clock sample, no smaller than the last;
a frame that comes before its period is over emits one `SLEEP` of the remaining time plus the
margin and waits, its stamp, `RES` and response not yet written; any other frame records the
sample and completes. With more than 1000 frames a second no frame sleeps. That an `MSTEP` ends its
step at the `SLEEP` is the model's reading (log entry 7), and the clock's form is the model's (log
entry 5). -/
def Obligations.PaceDecidesSleep : Prop :=
  ∀ s : State, 1 ≤ s.hdr.fps.toNat → ∃ (now draws : Nat) (ins : List Nat),
    s.clockLast ≤ now ∧
    (s.hasPrev = true → (now : Int) - s.tPrev < (1000 / s.hdr.fps.toNat : Nat) → ∃ ms : Nat,
      (ms : Int) = (1000 / s.hdr.fps.toNat : Nat) - ((now : Int) - s.tPrev) +
        s.params.paceMarginMs ∧
      pace s =
        .next { s with
          clockLast := now, clockDraws := draws, clockIn := ins
          events := s.events ++ [.sleep ms]
          sleeping := some now } ∧
      (s.tPrev ≤ s.clockLast → s.params.paceMarginMs + 1 ≤ ms ∧
        ms ≤ 1000 / s.hdr.fps.toNat + s.params.paceMarginMs)) ∧
    (s.hasPrev = false ∨ ((1000 / s.hdr.fps.toNat : Nat) : Int) ≤ (now : Int) - s.tPrev →
      pace s =
        .next { s with
          clockLast := now, clockDraws := draws, clockIn := ins
          tPrev := now, hasPrev := true, sleeping := none
          res := 2#32, response := some 2#32 }) ∧
    (1000 < s.hdr.fps.toNat → s.tPrev ≤ s.clockLast → ∃ t, pace s = .next t ∧ t.sleeping = none)

/-- R185 with R213 of 60_exceptions.md: when the host acknowledges the `SLEEP`, the waiting `MSTEP`
records its stamp, which is the sample it took or, where the stamp is taken after the sleep, a
second sample no smaller than the last, and completes with `RUNNING` (log entries 5 and 7). -/
def Obligations.SleepAcknowledged : Prop :=
  ∀ (s : State) (now : Nat) (rest : List HostInput), s.faulted = false → s.refused = false →
    s.sleeping = some now → s.inbox = .ackSleep :: rest →
    (s.params.paceStamp = .atFlush →
      step s =
        .next { s with
          inbox := rest, tPrev := now, hasPrev := true, sleeping := none
          res := 2#32, response := some 2#32 }) ∧
    (s.params.paceStamp = .afterSleep → ∃ (again draws : Nat) (ins : List Nat),
      s.clockLast ≤ again ∧
      step s =
        .next { s with
          clockLast := again, clockDraws := draws, clockIn := ins
          inbox := rest, tPrev := again, hasPrev := true, sleeping := none
          res := 2#32, response := some 2#32 })

/-- R186: frames that take `T` milliseconds, less than the period. Stamped at the flush, a frame
that slept is followed by one that does not, since it measures the sleep plus `T`, which is the
period plus the margin. Stamped after the sleep, with the clock advancing by the sleep, the next
frame sleeps the same time again (log entries 5 and 7). -/
def Obligations.PacingOutcome : Prop :=
  ∀ (s : State) (T : Nat), s.hasPrev = true → 1 ≤ s.hdr.fps.toNat →
    T < 1000 / s.hdr.fps.toNat →
    let ms := 1000 / s.hdr.fps.toNat - T + s.params.paceMarginMs
    ∃ t, paceAt (s.tPrev + T) s = .next t ∧ t.sleeping = some (s.tPrev + T) ∧
      t.events = s.events ++ [.sleep ms] ∧
      (s.params.paceStamp = .atFlush → ∃ u v,
        resumePace (s.tPrev + T) t = .next u ∧ u.events = t.events ∧
        paceAt (s.tPrev + T + ms + T) u = .next v ∧ v.events = t.events ∧ v.sleeping = none) ∧
      (s.params.paceStamp = .afterSleep → s.clockLast = s.tPrev + T →
        ∀ ins, s.clockIn = ms :: ins → ∃ u v,
        resumePace (s.tPrev + T) t = .next u ∧ u.tPrev = s.tPrev + T + ms ∧
        paceAt (u.tPrev + T) u = .next v ∧ v.events = t.events ++ [.sleep ms])

/-- R184: from `START`, an `N`-frame movie gives `RUNNING` on calls 1 to `N`, the first drawing
nothing and each other one flush, and `STOPPED` with no flush on every later call. Frame 0 is
never shown: call `k` leaves the frame index at `k - 1`. That the host's acknowledgement of a `SLEEP`
completes the call is the model's reading (log entry 7). -/
def Obligations.PlaybackStepCount : Prop :=
  ∀ (colour : Int) (s : State), Inv s → s.loaded = true → s.pstate = .start →
    (∀ k, 1 ≤ k → k ≤ s.hdr.frameCount.toNat → ∃ t,
      playTimes colour k s = some t ∧ t.res = 2#32 ∧ t.pstate = .running ∧ t.frameIdx = k - 1 ∧
      flushCount t.events = flushCount s.events + (k - 1)) ∧
    ∀ k, s.hdr.frameCount.toNat < k → ∃ t,
      playTimes colour k s = some t ∧ t.res = 0#32 ∧ t.pstate = .stopped ∧
      flushCount t.events = flushCount s.events + (s.hdr.frameCount.toNat - 1)

/-- R187: `MTEARDOWN` unloads the movie, clears the pacing state and the screen, and flushes the
cleared screen; orientation and cursor stay. -/
def Obligations.MteardownResult : Prop :=
  ∀ s : State, ∃ fb,
    exec .mteardown s =
      .next { s with
        loaded := false
        movBuf := []
        hdr := ⟨0#32, 0#32, 0#32, 0#32, 0#32, 0#32, 0#32, 0#32⟩
        frameSize := 0
        frameIdx := 0
        pstate := .stopped
        hasPrev := false
        tPrev := 0
        fb := fb
        events := s.events ++ [.flush fb]
        res := 0#32
        response := some 0#32 } ∧
    (∀ a, Mem.read fb a = 0#8) ∧ fbBytes fb = List.replicate 4608 0#8

/-- R174: what `MSTEP` does depends on `SRC` in nothing: with other source contents it does the
same, and leaves the other contents as they are. -/
def Obligations.MstepIgnoresSrc : Prop :=
  ∀ (colour : Int) (s t : State) (m : Mem), exec (.mstep colour) s = .next t →
    exec (.mstep colour) { s with src := m } = .next { t with src := m }

/-! ### The whole machine -/

/-- The invariant holds at reset (10_state.md R36, 70_reset_and_hazards.md R230). The reset values
of the clock and the host's queue, and `SRC` all `0x00`, are the model's choices (log entries 6
and 13). -/
def Obligations.InvAtReset : Prop := Inv State.reset

/-- Every step keeps the invariant, from every state that has it: the framebuffer stays canonical
and 24 x 192 bytes, the cursor stays s32, the movie registers agree with `LOADED`, the pacing
stamp is a past sample, and a waiting `MSTEP` belongs to a running movie (10_state.md R20 to R32,
43_movie_player.md R170, R173). The canonical form of the byte stores (log entry 6), an `MSTEP` that
waits between two steps (log entry 7), and ranges held as clauses of the invariant (log entry 18)
are the model's, not those rules'. -/
def Obligations.StepKeepsInv : Prop :=
  ∀ s t : State, Inv s → step s = .next t → Inv t

/-- The byte stores keep their canonical form in every step, whatever the rest of the state is, so
equal contents are equal data. The canonical form is the model's (log entry 6). -/
def Obligations.StoresStayCanonical : Prop :=
  ∀ s t : State, Mem.wf s.fb = true → Mem.wf s.src = true → step s = .next t →
    Mem.wf t.fb = true ∧ Mem.wf t.src = true

/-- R54 of 20_memory.md: no step from a state with the invariant reads `MOV_BUF` out of range. -/
def Obligations.MovieReadNeverFaults : Prop :=
  ∀ s t : State, Inv s → step s ≠ .fault (.movOutOfRange t)

/-- No decoded command is refused, and a command that faults is a `BLIT` or `MLOAD` that reads
`SRC` out of range, or an `MSTEP` in a state without the invariant, which no run reaches; it writes
the mark, no `RES` and no response (60_exceptions.md R204, R205, R206). -/
def Obligations.CommandsFaultOnlyOnReads : Prop :=
  ∀ (i : Instr) (s : State),
    (∀ r, exec i s ≠ .refused r) ∧
    ∀ f, exec i s = .fault f → ∃ t,
      ((f = .srcOutOfRange t ∧ (i.opcode = .blit ∨ i.opcode = .mload)) ∨
        (f = .movOutOfRange t ∧ i.opcode = .mstep ∧ ¬Inv s)) ∧
      t.faulted = true ∧ t.res = s.res ∧ t.response = s.response ∧ t.src = s.src ∧
      t.events = s.events ∧ t.curX = s.curX ∧ t.curY = s.curY ∧ t.orient = s.orient

/-- R24 of 10_state.md: which commands write the cursor, and with what; no other command does. -/
def Obligations.CursorWriters : Prop :=
  ∀ (i : Instr) (s t : State), exec i s = .next t →
    (t.curX, t.curY) =
      match i with
      | .setpt x y _ => (x, y)
      | .line _ _ x1 y1 _ => (x1, y1)
      | .lineto x y _ => (x, y)
      | .rect x1 y1 _ _ _ => if t.res = 0xFFFFFFFF#32 then (s.curX, s.curY) else (x1, y1)
      | .rectf x1 _ x2 y2 _ =>
        if t.res = 0xFFFFFFFF#32 then (s.curX, s.curY) else (max x1 x2, y2)
      | _ => (s.curX, s.curY)

/-- R25 of 10_state.md, R81 of 30_encoding.md: a command that completes leaves its result in `RES`
and on the response channel, and which results each command has; an `MSTEP` that waits in its
`SLEEP` has written neither. That its step ends at the `SLEEP` is the model's reading (log entry 7). -/
def Obligations.ResultOfEachCommand : Prop :=
  ∀ (i : Instr) (s t : State), s.sleeping = none → exec i s = .next t →
    (t.sleeping = none →
      t.response = some t.res ∧
      (match i with
      | .getpt _ _ => t.res.toInt = -1 ∨ (0 ≤ t.res.toInt ∧ t.res.toInt ≤ 3)
      | .setori _ | .mrewind | .rect _ _ _ _ _ | .rectf _ _ _ _ _ | .blit _ _ _ _ _ _ _ _ _
      | .mload _ _ => t.res = 0#32 ∨ t.res = 0xFFFFFFFF#32
      | .mstep _ =>
        (t.pstate = .stopped ∧ t.res = 0#32) ∨ (t.pstate = .running ∧ t.res = 2#32)
      | _ => t.res = 0#32)) ∧
    (t.sleeping ≠ none → i.opcode = .mstep ∧ t.res = s.res ∧ t.response = s.response)

/-- R52 of 20_memory.md, R33 of 10_state.md and R6 of 00_scope.md: a command that goes on, faulting
in nothing, leaves `SRC`, the marks, the parameters and the host's queue as they are. The queue is the
model's (log entry 1). -/
def Obligations.CommandsLeaveHostState : Prop :=
  ∀ (i : Instr) (s t : State), exec i s = .next t →
    t.src = s.src ∧ t.params = s.params ∧ t.inbox = s.inbox ∧ t.faulted = s.faulted ∧
      t.refused = s.refused

/-- R21 and R22 of 10_state.md: the commands that do not draw leave every framebuffer byte, and
only `SETORI` writes the orientation. -/
def Obligations.FramebufferAndOrientWriters : Prop :=
  ∀ (i : Instr) (s t : State), exec i s = .next t →
    (i.opcode ∈ [Opcode.getpt, .setori, .flush, .mload, .mrewind] → t.fb = s.fb) ∧
    (i.opcode ≠ .setori → t.orient = s.orient)

/-- R26 to R32 of 10_state.md: the movie and pacing registers, and which movie commands write
them. -/
def Obligations.MovieRegisterWriters : Prop :=
  ∀ (i : Instr) (s t : State), exec i s = .next t →
    (i.opcode ≠ .mload → i.opcode ≠ .mteardown →
      t.loaded = s.loaded ∧ t.hdr = s.hdr ∧ t.frameSize = s.frameSize ∧ t.movBuf = s.movBuf ∧
      (i.opcode ≠ .mstep → t.frameIdx = s.frameIdx ∧ t.tPrev = s.tPrev ∧
        t.hasPrev = s.hasPrev ∧ t.clockLast = s.clockLast ∧ t.sleeping = s.sleeping ∧
        (i.opcode ≠ .mrewind → t.pstate = s.pstate)))

/-- R210 of 60_exceptions.md: the events a command appends, in order, those on the channel staying.
`FLUSH` and `MTEARDOWN` append one `FLUSH` of the framebuffer they leave; an `MSTEP` that draws a
frame appends that `FLUSH` and then, if it waits, one `SLEEP`; nothing else appends an event. That
the step ends at the `SLEEP` is the model's reading (log entry 7). -/
def Obligations.EventsOfEachCommand : Prop :=
  ∀ (i : Instr) (s t : State), exec i s = .next t → ∃ es, t.events = s.events ++ es ∧
    match i with
    | .flush | .mteardown => es = [.flush t.fb]
    | .mstep _ =>
      if s.loaded = true ∧ s.pstate = .running ∧ s.frameIdx + 1 < s.hdr.frameCount.toNat then
        (es = [.flush t.fb] ∧ t.sleeping = none) ∨
          ∃ ms, es = [.flush t.fb, .sleep ms] ∧ t.sleeping ≠ none
      else es = []
    | _ => es = []

/-- R230, R231 of 70_reset_and_hazards.md: the reset input sets every architectural register to its
reset value, emits no event, and leaves the marks and `SRC` as they are; the block is then idle.
That an unread response and a waiting `MSTEP` are dropped is the model's reading (log entry 12). -/
def Obligations.ResetInputRestores : Prop :=
  ∀ (s : State) (rest : List HostInput), s.faulted = false → s.refused = false →
    s.inbox = .reset :: rest →
    ∃ t, step s = .next t ∧ (∀ a, Mem.read t.fb a = 0#8) ∧
      t.orient = ⟨false, false⟩ ∧ t.curX = 0 ∧ t.curY = 0 ∧ t.res = 0#32 ∧
      t.loaded = false ∧ t.movBuf = [] ∧ t.movLen = 0 ∧ t.pstate = .stopped ∧ t.frameIdx = 0 ∧
      t.hdr = ⟨0#32, 0#32, 0#32, 0#32, 0#32, 0#32, 0#32, 0#32⟩ ∧ t.frameSize = 0 ∧
      t.tPrev = 0 ∧ t.hasPrev = false ∧
      t.events = s.events ∧ t.src = s.src ∧ t.params = s.params ∧ t.inbox = rest ∧
      t.clockLast = s.clockLast ∧ Ready t

/-- R214 of 60_exceptions.md, R237 of 70_reset_and_hazards.md: a command word that comes during a
`SLEEP`, or before the last response is consumed, is refused, and nothing but the mark is
written. That a word is issued when it stands at the head of the queue, and that an illegal header
there is refused under this name too, is the model's reading (log entries 8 and 21). -/
def Obligations.ConcurrentCommandRefused : Prop :=
  ∀ (s : State) (w : Word) (rest : List HostInput), s.faulted = false → s.refused = false →
    s.inbox = .word w :: rest → (s.sleeping ≠ none ∨ s.response ≠ none) →
    step s = .refused (.concurrentCommand { s with refused := true })

/-- R33 of 10_state.md, R204 and R205 of 60_exceptions.md: a step that goes on starts and ends with
both marks clear, and a marked run goes no further, whatever the host does. The answers
`alreadyFaulted` and `alreadyRefused` are the model's form (log entry 9). -/
def Obligations.MarksAreSticky : Prop :=
  ∀ s : State,
    (∀ t, step s = .next t →
      s.faulted = false ∧ s.refused = false ∧ t.faulted = false ∧ t.refused = false) ∧
    (s.faulted = true → step s = .fault (.alreadyFaulted s)) ∧
    (s.faulted = false → s.refused = true → step s = .refused (.alreadyRefused s))

/-- With no input from the host, the block idles or waits for the acknowledgement of its `SLEEP`,
all its state kept (60_exceptions.md R216, R213), and a block that is ready waits, all its state
kept, for the rest of the words that a legal header announces (30_encoding.md R75). That waiting is a
step that changes nothing is the model's choice (log entry 2). -/
def Obligations.WaitingKeepsState : Prop :=
  (∀ s : State, s.faulted = false → s.refused = false → s.inbox = [] → step s = .next s) ∧
  ∀ (s : State) (op : Opcode) (ws : List Word), Ready s → ws.length < op.operandCount →
    s.inbox = .word (BitVec.ofNat 32 (op.operandCount <<< 8 ||| op.code)) :: ws.map .word →
    step s = .next s

/-- R61 of 20_memory.md: the host's write of `SRC` between commands changes that byte and nothing
else; during a command it is refused (93_implementation_defined.md I9). That only a waiting
`MSTEP` is a command in execution here is the model's reading (log entry 10). -/
def Obligations.HostSrcWrite : Prop :=
  ∀ (s : State) (a : Nat) (v : Byte) (rest : List HostInput), s.faulted = false →
    s.refused = false → s.inbox = .writeSrc a v :: rest →
    (s.sleeping ≠ none → step s = .refused (.srcWriteDuringCommand { s with refused := true })) ∧
    (s.sleeping = none → a < s.params.srcSize → ∃ m,
      step s = .next { s with src := m, inbox := rest } ∧
      ∀ a', Mem.read m a' = if a' = a then v else Mem.read s.src a')

/-- R81 of 30_encoding.md: the host consumes the response of the last command, which frees the
port for the next (log entry 1). -/
def Obligations.ResponseConsumed : Prop :=
  ∀ (s : State) (w : Word) (rest : List HostInput), s.faulted = false → s.refused = false →
    s.response = some w → s.inbox = .readResponse :: rest →
    step s = .next { s with response := none, inbox := rest }

/-- R78 of 30_encoding.md: a line that names a mnemonic of R74 is an error where its operands are not
as many as the command has, or where one is out of the range of its type. Which error it is where
several apply, and how a line is read, is the model's choice (log entry 24). -/
def Obligations.AssemblerErrors : Prop :=
  ∀ (text : List Char) (op : Opcode) (vs : List Int), IsCommandLine text op vs →
    (vs.length ≠ op.operandCount → ∃ e, assembleLine text = .error e) ∧
    (vs.length = op.operandCount →
      (∃ p ∈ op.operandTypes.zip vs, ¬(match p.1 with
        | .s32 => -2147483648 ≤ p.2 ∧ p.2 < 2147483648
        | .u32 => 0 ≤ p.2 ∧ p.2 < 4294967296)) →
      assembleLine text = .error .outOfRange)

/-- R75 of 30_encoding.md: what a ready block does when the host does something else before the words
that a legal header announces have all come. The reset input resets it, the words read so far
dropped; any other input is refused and nothing but the mark is written. Both are the model's choice
(log entry 11). -/
def Obligations.InterruptedCommand : Prop :=
  ∀ (s : State) (op : Opcode) (ws : List Word) (x : HostInput) (rest : List HostInput), Ready s →
    ws.length < op.operandCount → (∀ w, x ≠ .word w) →
    s.inbox = .word (BitVec.ofNat 32 (op.operandCount <<< 8 ||| op.code)) ::
      (ws.map .word ++ x :: rest) →
    (x = .reset → step s = step { s with inbox := .reset :: rest }) ∧
    (x ≠ .reset → step s = .refused (.strayHostInput { s with refused := true }))
end

