-- ==== Sys2Proof/Laws/Assembler.lean ====
section
/-! SUPPORT. The assembler of 30_encoding.md R78: what it reads as a digit, a numeral, an operand, a
mnemonic and a line. -/

namespace Sys2Proof.Machine

/-! ### Numerals -/

theorem toCapital_of_ge {c : Char} (h : 128 ≤ c.toNat) : toCapital c = c := by
  unfold toCapital
  rw [if_neg]
  rintro ⟨_, h2⟩
  have : c.toNat ≤ 'z'.toNat := h2
  have : 'z'.toNat = 122 := rfl
  omega

theorem digitValue_of_ge {b : Nat} (hb : b ≤ 16) {c : Char} (h : 128 ≤ c.toNat) : digitValue b c =
    none := by
  unfold digitValue
  rw [toCapital_of_ge h]
  have h1 : ¬ ('0' ≤ c ∧ c ≤ '9') := by
    rintro ⟨_, h2⟩
    have : c.toNat ≤ '9'.toNat := h2
    have : '9'.toNat = 57 := rfl
    omega
  have h2 : ¬ ('A' ≤ c ∧ c ≤ 'F') := by
    rintro ⟨_, h2⟩
    have : c.toNat ≤ 'F'.toNat := h2
    have : 'F'.toNat = 70 := rfl
    omega
  rw [if_neg h1, if_neg h2]
  simp; omega

theorem digitValue_table : ∀ n, n < 128 → ∀ d, d < 16 → ∀ b ∈ [10, 16], (digitValue b (Char.ofNat
    n) = some d ↔ d < b ∧ (Char.ofNat n = Nat.digitChar d ∨ Char.ofNat n = (Nat.digitChar
    d).toUpper)) := by decide +kernel

theorem digitValue_lt {b c d} (h : digitValue b c = some d) : d < b := by
  unfold digitValue at h
  simp only at h
  generalize (if '0' ≤ c ∧ c ≤ '9' then _ else _ : Nat) = v at h
  by_cases hv : v < b
  · rw [if_pos hv] at h; injection h with h; omega
  · rw [if_neg hv] at h; cases h

theorem digitChar_lt : ∀ d, d < 16 → (Nat.digitChar d).toNat < 128 ∧ (Nat.digitChar
    d).toUpper.toNat < 128 := by decide +kernel

/-- Which characters are digits of base 10 or 16, and of what value. -/
theorem digitValue_eq_some {b : Nat} (hb : b = 10 ∨ b = 16) (c d) : digitValue b c = some d ↔
    IsDigit b c d := by
  by_cases hc : c.toNat < 128
  · by_cases hd : d < 16
    · have := digitValue_table c.toNat hc d hd b (by rcases hb with rfl | rfl <;> simp)
      rwa [Char.ofNat_toNat] at this
    · constructor
      · intro h; have := digitValue_lt h; omega
      · intro h; have := h.1; omega
  · rw [digitValue_of_ge (by omega) (by omega)]
    constructor
    · nofun
    · intro h
      have h1 := h.1
      have := digitChar_lt d (by omega)
      rcases h.2 with e | e <;> rw [e] at hc <;> omega

/-- A run of digits after a value already read. -/
theorem digitsFrom_eq_some {b : Nat} (hb : b = 10 ∨ b = 16) : ∀ (cs : List Char) (acc n : Nat),
   digitsFrom b acc cs = some n ↔ ∃ ds, List.Forall₂ (IsDigit b) cs ds ∧ n = Nat.ofDigits b
       ds.reverse + acc * b ^ ds.length := by
  intro cs
  induction cs with
  | nil => intro acc n; simp [digitsFrom]; exact eq_comm
  | cons c cs ih =>
    intro acc n
    rw [digitsFrom]
    cases hd : digitValue b c with
    | none =>
      simp only [reduceCtorEq, false_iff]
      rintro ⟨ds, hf, _⟩
      cases hf with
      | cons h1 h2 => rw [← digitValue_eq_some hb, hd] at h1; cases h1
    | some d =>
      simp only [ih]
      constructor
      · rintro ⟨ds, hf, rfl⟩
        refine ⟨d :: ds, .cons ((digitValue_eq_some hb _ _).mp hd) hf, ?_⟩
        simp [Nat.ofDigits_append]; ring
      · rintro ⟨_, hf, rfl⟩
        cases hf with
        | @cons _ d' _ ds h1 h2 =>
          rw [← digitValue_eq_some hb, hd] at h1
          injection h1 with h1; subst h1
          refine ⟨ds, h2, ?_⟩
          simp [Nat.ofDigits_append]; ring

/-- A run of digits, not empty, and its value. -/
theorem digits_eq_some {b : Nat} (hb : b = 10 ∨ b = 16) (cs n) : digits b cs = some n ↔ IsDigits b
    cs n := by
  cases cs with
  | nil => simp [digits, IsDigits]
  | cons c cs => simp [digits, digitsFrom_eq_some hb, IsDigits]

theorem not_isDigits_of_mem {b : Nat} (hb : b = 10 ∨ b = 16) {c : Char} (h : digitValue b c = none)
    {cs n} (hc : c ∈ cs) : ¬ IsDigits b cs n := by
  rintro ⟨hne, ds, hf, hX⟩
  clear hX hne
  induction hf with
  | nil => cases hc
  | cons h1 h2 ih =>
    rcases List.mem_cons.mp hc with rfl | hc
    · rw [← digitValue_eq_some hb, h] at h1; cases h1
    · exact ih hc

theorem map_ofNat_eq_some {n : Option Nat} {v : Int} : n.map Int.ofNat = some v ↔ ∃ k, n = some k ∧
    v = (k : Int) := by
  cases n <;> simp [eq_comm]

/-- What the assembler reads as an operand, and with what value (30_encoding.md R78). -/
theorem parseNumber_eq_some (cs v) : parseNumber cs = some v ↔ IsNumeral cs v := by
  unfold parseNumber
  split
  · next r =>
    rw [map_ofNat_eq_some]; simp only [digits_eq_some (.inr rfl)]
    constructor
    · rintro ⟨k, h, rfl⟩; exact .hex _ _ _ (.inl rfl) h
    · intro h
      generalize hz : ('0' :: 'x' :: r) = z at h
      cases h with
      | decimal cs n h =>
        subst hz
        exact absurd h (not_isDigits_of_mem (c := 'x') (.inl rfl) (by decide) (by simp))
      | minus cs n h => simp at hz
      | plus cs n h => simp at hz
      | hex x cs n hx h =>
        injection hz with _ hz
        injection hz with _ hz
        subst hz
        exact ⟨_, h, rfl⟩
  · next r =>
    rw [map_ofNat_eq_some]; simp only [digits_eq_some (.inr rfl)]
    constructor
    · rintro ⟨k, h, rfl⟩; exact .hex _ _ _ (.inr rfl) h
    · intro h
      generalize hz : ('0' :: 'X' :: r) = z at h
      cases h with
      | decimal cs n h =>
        subst hz
        exact absurd h (not_isDigits_of_mem (c := 'X') (.inl rfl) (by decide) (by simp))
      | minus cs n h => simp at hz
      | plus cs n h => simp at hz
      | hex x cs n hx h =>
        injection hz with _ hz
        injection hz with _ hz
        subst hz
        exact ⟨_, h, rfl⟩
  · next r =>
    have : ∀ n : Option Nat, n.map (fun n => -(n : Int)) = some v ↔ ∃ k, n = some k ∧ v = -(k :
        Int) := by
      intro n; cases n <;> simp [eq_comm]
    rw [this]; simp only [digits_eq_some (.inl rfl)]
    constructor
    · rintro ⟨k, h, rfl⟩; exact .minus _ _ h
    · intro h
      generalize hz : ('-' :: r) = z at h
      cases h with
      | decimal cs n h =>
        subst hz
        exact absurd h (not_isDigits_of_mem (c := '-') (.inl rfl) (by decide) (by simp))
      | minus cs n h => injection hz with _ hz; subst hz; exact ⟨_, h, rfl⟩
      | plus cs n h => simp at hz
      | hex x cs n hx h => simp at hz
  · next r =>
    rw [map_ofNat_eq_some]; simp only [digits_eq_some (.inl rfl)]
    constructor
    · rintro ⟨k, h, rfl⟩; exact .plus _ _ h
    · intro h
      generalize hz : ('+' :: r) = z at h
      cases h with
      | decimal cs n h =>
        subst hz
        exact absurd h (not_isDigits_of_mem (c := '+') (.inl rfl) (by decide) (by simp))
      | minus cs n h => simp at hz
      | plus cs n h => injection hz with _ hz; subst hz; exact ⟨_, h, rfl⟩
      | hex x cs n hx h => simp at hz
  · next h1 h2 h3 h4 =>
    rw [map_ofNat_eq_some]; simp only [digits_eq_some (.inl rfl)]
    constructor
    · rintro ⟨k, h, rfl⟩; exact .decimal _ _ h
    · intro h
      cases h with
      | decimal cs n h => exact ⟨_, h, rfl⟩
      | minus cs n h => exact absurd rfl (h3 _)
      | plus cs n h => exact absurd rfl (h4 _)
      | hex x cs n hx h =>
        rcases hx with rfl | rfl
        exact absurd rfl (h1 _)
        exact absurd rfl (h2 _)

/-- No digit is a blank, a comma or a semicolon. -/
theorem IsDigits.chars {b : Nat} (hb : b = 10 ∨ b = 16) {cs n} (h : IsDigits b cs n) : ∀ c ∈ cs,
    isBlank c = false ∧ c ≠ ',' ∧ c ≠ ';' := by
  intro c hc
  have hn : digitValue b c ≠ none := fun e => not_isDigits_of_mem hb e hc h
  refine ⟨?_, ?_, ?_⟩
  · by_contra hbl
    apply hn
    simp only [isBlank, Bool.not_eq_false, Bool.or_eq_true, beq_iff_eq] at hbl
    rcases hb with rfl | rfl <;> rcases hbl with (rfl | rfl) | rfl <;> decide
  · rintro rfl; apply hn; rcases hb with rfl | rfl <;> decide
  · rintro rfl; apply hn; rcases hb with rfl | rfl <;> decide

/-- A numeral is not empty and holds no blank, comma or semicolon. -/
theorem IsNumeral.chars {cs v} (h : IsNumeral cs v) : cs ≠ [] ∧ ∀ c ∈ cs, isBlank c = false ∧ c ≠
    ',' ∧ c ≠ ';' := by
  cases h with
  | decimal cs n h => exact ⟨h.1, IsDigits.chars (.inl rfl) h⟩
  | minus cs n h =>
    refine ⟨by simp, fun c hc => ?_⟩
    rcases List.mem_cons.mp hc with rfl | hc
    · decide
    · exact IsDigits.chars (.inl rfl) h c hc
  | plus cs n h =>
    refine ⟨by simp, fun c hc => ?_⟩
    rcases List.mem_cons.mp hc with rfl | hc
    · decide
    · exact IsDigits.chars (.inl rfl) h c hc
  | hex x cs n hx h =>
    refine ⟨by simp, ?_⟩
    intro c hc
    rcases List.mem_cons.mp hc with rfl | hc
    · decide
    rcases List.mem_cons.mp hc with rfl | hc
    · rcases hx with rfl | rfl <;> decide
    · exact IsDigits.chars (.inr rfl) h c hc

/-! ### Blanks at either end -/

/-- The text without blanks at its end. -/
def trimEnd (cs : List Char) : List Char := (cs.reverse.dropWhile isBlank).reverse

theorem trimBlanks_eq (cs) : trimBlanks cs = trimEnd (cs.dropWhile isBlank) := rfl

theorem dropWhile_blanks_append {b} (h : Blanks b) (cs : List Char) : (b ++ cs).dropWhile isBlank =
    cs.dropWhile isBlank := by
  induction b with
  | nil => rfl
  | cons c b ih =>
    rw [List.cons_append, List.dropWhile_cons, if_pos (h c (by simp))]
    exact ih (fun x hx => h x (by simp [hx]))

theorem trimEnd_append_blanks {b} (h : Blanks b) (cs : List Char) : trimEnd (cs ++ b) = trimEnd cs
    := by
  unfold trimEnd
  rw [List.reverse_append, dropWhile_blanks_append (by intro c hc; exact h c (by simpa using hc))]

theorem dropWhile_all {b} (h : Blanks b) : b.dropWhile isBlank = [] := by
  have := dropWhile_blanks_append h []; simpa using this

theorem exists_trimEnd (cs) : ∃ b, Blanks b ∧ cs = trimEnd cs ++ b := by
  refine ⟨(cs.reverse.takeWhile isBlank).reverse, ?_, ?_⟩
  · intro c hc; rw [List.mem_reverse] at hc
    exact List.mem_takeWhile_imp hc
  · unfold trimEnd
    rw [← List.reverse_append, List.takeWhile_append_dropWhile, List.reverse_reverse]

theorem exists_dropWhile (cs : List Char) : ∃ b, Blanks b ∧ cs = b ++ cs.dropWhile isBlank :=
  ⟨cs.takeWhile isBlank, fun _ h => List.mem_takeWhile_imp h,
      (List.takeWhile_append_dropWhile).symm⟩

theorem trimEnd_of_nonblank {cs : List Char} (h : ∀ c ∈ cs, isBlank c = false) : trimEnd cs = cs :=
    by
  unfold trimEnd
  have : cs.reverse.dropWhile isBlank = cs.reverse := by
    cases hr : cs.reverse with
    | nil => rfl
    | cons c r =>
      rw [List.dropWhile_cons, if_neg]
      simp [h c (List.mem_reverse.mp (hr ▸ List.mem_cons_self ..))]
  rw [this, List.reverse_reverse]

theorem dropWhile_of_nonblank {cs t : List Char} (h : ∀ c ∈ cs, isBlank c = false) (hn : cs ≠ []) :
    (cs ++ t).dropWhile isBlank = cs ++ t := by
  cases cs with
  | nil => exact absurd rfl hn
  | cons c r => rw [List.cons_append, List.dropWhile_cons, if_neg]; simp [h c (by simp)]

/-- Only blanks trim to nothing. -/
theorem trimBlanks_eq_nil (cs) : trimBlanks cs = [] ↔ Blanks cs := by
  constructor
  · intro h
    obtain ⟨b, hb, e⟩ := exists_dropWhile cs
    obtain ⟨b', hb', e'⟩ := exists_trimEnd (cs.dropWhile isBlank)
    rw [trimBlanks_eq] at h
    rw [h, List.nil_append] at e'
    rw [e, e']
    intro c hc; rcases List.mem_append.mp hc with hc | hc; exact hb c hc; exact hb' c hc
  · intro h; rw [trimBlanks_eq, dropWhile_all h]; rfl

/-- Blanks at the end do not change the trimmed text. -/
theorem trimBlanks_append {b} (h : Blanks b) (cs) : trimBlanks (cs ++ b) = trimBlanks cs := by
  rw [trimBlanks_eq, trimBlanks_eq, List.dropWhile_append]
  split
  · next he => rw [List.isEmpty_iff] at he; rw [he, dropWhile_all h]
  · exact trimEnd_append_blanks h _

/-- What the assembler reads between two commas, and with what value. -/
theorem parseNumber_trimBlanks (t v) : parseNumber (trimBlanks t) = some v ↔ IsOperand t v := by
  rw [parseNumber_eq_some]
  constructor
  · intro h
    obtain ⟨b, hb, e⟩ := exists_dropWhile t
    obtain ⟨b', hb', e'⟩ := exists_trimEnd (t.dropWhile isBlank)
    exact ⟨b, _, b', by rw [List.append_assoc, trimBlanks_eq, ← e', ← e], hb, hb', h⟩
  · rintro ⟨b, num, b', rfl, hb, hb', h⟩
    obtain ⟨hn, hc⟩ := IsNumeral.chars h
    rw [trimBlanks_append hb', trimBlanks_eq, dropWhile_blanks_append hb]
    have : num.dropWhile isBlank = num := by
      simpa using dropWhile_of_nonblank (t := []) (fun c h => (hc c h).1) hn
    rw [this, trimEnd_of_nonblank (fun c h => (hc c h).1)]
    exact h

/-- An operand holds no comma and no semicolon, and is not all blanks. -/
theorem IsOperand.chars {t v} (h : IsOperand t v) : (∀ c ∈ t, c ≠ ',' ∧ c ≠ ';') ∧ ¬ Blanks t := by
  obtain ⟨b, num, b', rfl, hb, hb', h⟩ := h
  obtain ⟨hn, hc⟩ := IsNumeral.chars h
  have key : ∀ c, isBlank c = true → c ≠ ',' ∧ c ≠ ';' := by
    intro c h; constructor <;> rintro rfl <;> revert h <;> decide
  refine ⟨?_, ?_⟩
  · intro c hm
    simp only [List.mem_append] at hm
    rcases hm with (h | h) | h
    · exact key c (hb c h)
    · exact (hc c h).2
    · exact key c (hb' c h)
  · intro hB
    obtain ⟨c, r, rfl⟩ := List.exists_cons_of_ne_nil hn
    have := hB c (by simp)
    rw [(hc c (by simp)).1] at this; cases this

/-! ### The pieces between commas -/

theorem splitAtChar_ne_nil (cs) : splitAtChar ',' cs ≠ [] := by
  cases cs with
  | nil => simp [splitAtChar]
  | cons c cs => rw [splitAtChar]; split; simp; split <;> simp

/-- The pieces joined by commas give the text back. -/
theorem intercalate_splitAtChar (cs) : [','].intercalate (splitAtChar ',' cs) = cs := by
  induction cs with
  | nil => rfl
  | cons c cs ih =>
    rw [splitAtChar]
    obtain ⟨p, ps, hp⟩ := List.exists_cons_of_ne_nil (splitAtChar_ne_nil cs)
    rw [hp] at ih
    split
    · next h =>
      subst h
      rw [hp]; simp only [List.intercalate, List.intersperse, List.flatten_cons] at ih ⊢
      rw [ih]; rfl
    · rw [hp]
      cases ps with
      | nil => simp [List.intercalate] at ih ⊢; exact ih
      | cons q qs => simp [List.intercalate, List.intersperse] at ih ⊢; exact ih

theorem splitAtChar_of_not_mem {cs : List Char} (h : ∀ c ∈ cs, c ≠ ',') : splitAtChar ',' cs = [cs]
    := by
  induction cs with
  | nil => rfl
  | cons c cs ih => rw [splitAtChar, if_neg (h c (by simp)), ih (fun x hx => h x (by simp [hx]))]

theorem splitAtChar_append_cons {cs t : List Char} (h : ∀ c ∈ cs, c ≠ ',') : splitAtChar ',' (cs ++
    ',' :: t) = cs :: splitAtChar ',' t := by
  induction cs with
  | nil => simp [splitAtChar]
  | cons c cs ih => rw [List.cons_append, splitAtChar, if_neg (h c (by simp)), ih (fun x hx => h x
      (by simp [hx]))]

/-- Texts without commas, joined by commas, are the pieces of the joined text. -/
theorem splitAtChar_intercalate : ∀ {texts : List (List Char)}, texts ≠ [] → (∀ t ∈ texts, ∀ c ∈ t,
    c ≠ ',') → splitAtChar ',' ([','].intercalate texts) = texts := by
  intro texts
  induction texts with
  | nil => intro h; exact absurd rfl h
  | cons t ts ih =>
    intro _ h
    cases ts with
    | nil => simp [List.intercalate]; exact splitAtChar_of_not_mem (h t (by simp))
    | cons u us =>
      have := ih (by simp) (fun x hx => h x (by simp [hx]))
      have e : [','].intercalate (t :: u :: us) = t ++ ',' :: [','].intercalate (u :: us) := by
        simp [List.intercalate, List.intersperse]
      rw [e, splitAtChar_append_cons (h t (by simp)), this]

/-- Blanks at the end of a text change its pieces by blanks at most. -/
theorem splitAtChar_append_blanks {b} (hb : Blanks b) (xs : List Char) : List.Forall₂ (fun p q =>
    trimBlanks p = trimBlanks q ) (splitAtChar ',' (xs ++ b)) (splitAtChar ',' xs) := by
  suffices h : List.Forall₂ (fun p q => p = q ∨ p = q ++ b) (splitAtChar ',' (xs ++ b))
      (splitAtChar ',' xs) by
    refine h.imp ?_
    rintro p q (rfl | rfl)
    · rfl
    · exact trimBlanks_append hb _
  induction xs with
  | nil =>
    have hc : ∀ c ∈ b, c ≠ ',' := fun c hc e => absurd (hb c hc) (by subst e; decide)
    rw [List.nil_append, splitAtChar_of_not_mem hc]
    exact .cons (.inr rfl) .nil
  | cons c xs ih =>
    rw [List.cons_append, splitAtChar, splitAtChar]
    split
    · exact .cons (.inl rfl) ih
    · obtain ⟨p, ps, hp⟩ := List.exists_cons_of_ne_nil (splitAtChar_ne_nil (xs ++ b))
      obtain ⟨q, qs, hq⟩ := List.exists_cons_of_ne_nil (splitAtChar_ne_nil xs)
      rw [hp, hq] at ih ⊢
      cases ih with
      | cons h1 h2 => exact .cons (by rcases h1 with rfl | rfl; exact .inl rfl; exact .inr rfl) h2

/-! ### Operands -/

/-- Operands are read without the blanks about them. -/
theorem assembleOperands_congr : ∀ {xs ys : List (List Char)} (ts), List.Forall₂ (fun p q =>
    trimBlanks p = trimBlanks q) xs ys → assembleOperands ts xs = assembleOperands ts ys := by
  intro xs ys ts h
  induction h generalizing ts with
  | nil => rfl
  | cons h1 h2 ih => cases ts with
    | nil => rfl
    | cons t ts => simp only [assembleOperands, h1, ih]

/-- As many operands as types, each in its range (30_encoding.md R78). -/
def OperandsInRange : List OperandType → List Int → Prop := List.Forall₂ (fun t v => inRange t v =
    true)

/-- The operand texts that assemble, and to which words (30_encoding.md R72, R78). -/
theorem assembleOperands_eq_ok : ∀ ts texts ws, assembleOperands ts texts = .ok ws ↔ ∃ vs,
    List.Forall₂ IsOperand texts vs ∧ OperandsInRange ts vs ∧ ws = vs.map wordOfInt := by
  intro ts
  induction ts with
  | nil =>
    intro texts ws
    cases texts with
    | nil =>
      simp only [assembleOperands]
      constructor
      · intro h; injection h with h; exact ⟨[], .nil, .nil, h.symm⟩
      · rintro ⟨vs, h1, _, rfl⟩; cases h1; rfl
    | cons t texts =>
      simp only [assembleOperands, reduceCtorEq, false_iff]
      rintro ⟨vs, h1, h2, _⟩; cases h2; cases h1
  | cons ty ts ih =>
    intro texts ws
    cases texts with
    | nil =>
      simp only [assembleOperands, reduceCtorEq, false_iff]
      rintro ⟨vs, h1, h2, _⟩; cases h1; cases h2
    | cons t texts =>
      rw [assembleOperands]
      cases hp : parseNumber (trimBlanks t) with
      | none =>
        simp only [reduceCtorEq, false_iff]
        rintro ⟨vs, h1, h2, _⟩
        cases h1 with
        | cons a b => rw [← parseNumber_trimBlanks, hp] at a; cases a
      | some v =>
        simp only
        by_cases hr : inRange ty v = true
        · rw [if_pos hr]
          cases ha : assembleOperands ts texts with
          | error e =>
            simp only [reduceCtorEq, false_iff]
            rintro ⟨vs, h1, h2, _⟩
            cases h1 with
            | cons a b =>
              cases h2 with
              | cons c d => have := (ih texts _).mpr ⟨_, b, d, rfl⟩; rw [ha] at this; cases this
          | ok ws' =>
            obtain ⟨vs, h1, h2, rfl⟩ := (ih texts _).mp ha
            constructor
            · intro h
              injection h with h
              exact ⟨v :: vs, .cons ((parseNumber_trimBlanks _ _).mp hp) h1, .cons hr h2, h.symm⟩
            · rintro ⟨_, k1, k2, rfl⟩
              cases k1 with
              | cons a b =>
                cases k2 with
                | cons c d =>
                  rw [← parseNumber_trimBlanks, hp] at a; injection a with a; subst a
                  have := (ih texts _).mpr ⟨_, b, d, rfl⟩
                  rw [ha] at this; injection this with this
                  rw [this]; rfl
        · rw [if_neg hr]
          simp only [reduceCtorEq, false_iff]
          rintro ⟨vs, h1, h2, _⟩
          cases h1 with
          | cons a b =>
            cases h2 with
            | cons c d =>
              rw [← parseNumber_trimBlanks, hp] at a
              injection a with a
              subst a
              exact hr c

theorem not_blanks_intercalate {texts : List (List Char)} {vs} (hn : texts ≠ []) (h : List.Forall₂
    IsOperand texts vs) : ¬ Blanks ([','].intercalate texts) := by
  intro hb
  cases h with
  | nil => exact hn rfl
  | cons a b =>
    apply (IsOperand.chars a).2
    intro c hc
    apply hb
    simp only [List.intercalate]
    rename_i l1 l2
    cases l1 with
    | nil => simpa using hc
    | cons u us => simp [List.intersperse, hc]

theorem operands_chars {texts vs} (h : List.Forall₂ IsOperand texts vs) : ∀ t ∈ texts, ∀ c ∈ t, c ≠
    ',' ∧ c ≠ ';' := by
  induction h with
  | nil => simp
  | cons a b ih =>
    intro t ht
    rcases List.mem_cons.mp ht with rfl | ht
    exact (IsOperand.chars a).1
    exact ih t ht

/-- The operands of a line are those of its operand texts. -/
theorem isOperandList_iff {area : List Char} (hh : area = [] ∨ ∃ b, area.head? = some b ∧ isBlank b
    = true) (vs) :
   IsOperandList area vs ↔ List.Forall₂ IsOperand (operandTexts area) vs := by
  unfold operandTexts IsOperandList
  by_cases hb : Blanks area
  · rw [if_pos ((trimBlanks_eq_nil _).mpr hb)]
    constructor
    · rintro (⟨rfl, _⟩ | ⟨texts, rfl, _, hn, hf⟩)
      · exact .nil
      · exact absurd hb (not_blanks_intercalate hn hf)
    · intro h; cases h; exact .inl ⟨rfl, hb⟩
  · rw [if_neg (fun h => hb ((trimBlanks_eq_nil _).mp h))]
    constructor
    · rintro (⟨rfl, h⟩ | ⟨texts, rfl, _, hn, hf⟩)
      · exact absurd h hb
      · rw [splitAtChar_intercalate hn (fun t ht c hc => (operands_chars hf t ht c hc).1)]; exact hf
    · intro h
      rcases hh with rfl | hh
      · exact absurd (by intro c hc; cases hc) hb
      · exact .inr ⟨_, (intercalate_splitAtChar area).symm, hh, splitAtChar_ne_nil _, h⟩

/-- Blanks after the last operand do not matter. -/
theorem assembleOperands_append_blanks {b} (hb : Blanks b) (area ts) : assembleOperands ts
    (operandTexts (area ++ b)) = assembleOperands ts (operandTexts area) := by
  unfold operandTexts
  rw [trimBlanks_append hb]
  split
  · rfl
  · exact assembleOperands_congr ts (splitAtChar_append_blanks hb area)

/-! ### Mnemonics -/

theorem toCapital_table : ∀ n, n < 128 → ∀ k, k < 26 → (toCapital (Char.ofNat n) = Char.ofNat
    (65+k) ↔ Char.ofNat n = Char.ofNat (65+k) ∨ Char.ofNat n = (Char.ofNat (65+k)).toLower) := by
    decide +kernel

theorem opcodeMnemonic_capital (op : Opcode) : ∀ m ∈ opcodeMnemonic op, 65 ≤ m.toNat ∧ m.toNat < 91
    := by cases op <;> simp [opcodeMnemonic]

theorem capital_table : ∀ k, k < 26 → (Char.ofNat (65+k)).toNat < 128 ∧ (Char.ofNat
    (65+k)).toLower.toNat < 128 ∧ isBlank (Char.ofNat (65+k)) = false ∧ isBlank (Char.ofNat
    (65+k)).toLower = false ∧ (Char.ofNat (65+k)) ≠ ';' ∧ (Char.ofNat (65+k)).toLower ≠ ';' := by
    decide +kernel

theorem opcodeMnemonic_chars (op : Opcode) : ∀ m ∈ opcodeMnemonic op, m.toNat < 128 ∧
    m.toLower.toNat < 128 ∧ isBlank m = false ∧ isBlank m.toLower = false ∧ m ≠ ';' ∧ m.toLower ≠
    ';' := by
  intro m hm
  obtain ⟨h1, h2⟩ := opcodeMnemonic_capital op m hm
  have := capital_table (m.toNat - 65) (by omega)
  rw [show 65 + (m.toNat - 65) = m.toNat by omega] at this
  rwa [Char.ofNat_toNat] at this

theorem all_mem (op : Opcode) : op ∈ Opcode.all := by cases op <;> decide

theorem toCapital_iff (op : Opcode) (m) (hm : m ∈ opcodeMnemonic op) (c : Char) : toCapital c = m ↔
    c = m ∨ c = m.toLower := by
  by_cases hc : c.toNat < 128
  · obtain ⟨h1, h2⟩ := opcodeMnemonic_capital op m hm
    have := toCapital_table c.toNat hc (m.toNat - 65) (by omega)
    rw [show 65 + (m.toNat - 65) = m.toNat by omega] at this
    rwa [Char.ofNat_toNat, Char.ofNat_toNat] at this
  · rw [toCapital_of_ge (by omega)]
    have := opcodeMnemonic_chars op m hm
    constructor
    · exact .inl
    · rintro (h | h)
      · exact h
      · rw [h] at hc; omega

theorem map_toCapital : ∀ (ms name : List Char), (∀ m ∈ ms, ∀ c, toCapital c = m ↔ c = m ∨ c =
    m.toLower) → (name.map toCapital = ms ↔ List.Forall₂ (fun c m => c = m ∨ c = m.toLower) name
    ms) := by
  intro ms
  induction ms with
  | nil => intro name _; cases name <;> simp
  | cons m ms ih =>
    intro name h
    cases name with
    | nil => simp
    | cons c name => simp [h m (by simp) c, ih name (fun x hx => h x (by simp [hx]))]

/-- A mnemonic is read in letters of either case. -/
theorem map_toCapital_eq_mnemonic (name op) : name.map toCapital = opcodeMnemonic op ↔ IsMnemonic
    name op := map_toCapital _ _ (fun m hm c => toCapital_iff op m hm c)

/-- The row of R74 that a mnemonic names. -/
theorem find_mnemonic (name : List Char) (op : Opcode) : (Opcode.all.find? fun op => opcodeMnemonic
    op == name.map toCapital) = some op ↔ IsMnemonic name op := by
  rw [← map_toCapital_eq_mnemonic]
  constructor
  · intro h; have := List.find?_some h; exact (beq_iff_eq.mp this).symm
  · intro h; rw [h]; clear h; cases op <;> rfl

/-- A mnemonic is not empty and holds no blank and no semicolon. -/
theorem IsMnemonic.chars {name op} (h : IsMnemonic name op) : name ≠ [] ∧ ∀ c ∈ name, isBlank c =
    false ∧ c ≠ ';' := by
  constructor
  · rintro rfl
    unfold IsMnemonic at h
    revert h; cases op <;> intro h <;> cases h
  · have hm : ∀ m ∈ opcodeMnemonic op, _ := opcodeMnemonic_chars op
    unfold IsMnemonic at h
    generalize opcodeMnemonic op = ms at h hm
    induction h with
    | nil => simp
    | cons a b ih =>
      intro c hc
      rcases List.mem_cons.mp hc with rfl | hc
      · have := hm _ (List.mem_cons_self ..)
        rcases a with rfl | rfl
        · exact ⟨this.2.2.1, this.2.2.2.2.1⟩
        · exact ⟨this.2.2.2.1, this.2.2.2.2.2⟩
      · exact ih (fun m h => hm m (by simp [h])) c hc

/-! ### The line -/

/-- What a comment is taken from. -/
theorem stripComment_append {body comment : List Char} (h : ∀ c ∈ body, c ≠ ';') (hc : IsComment
    comment) : stripComment (body ++ comment) = body := by
  unfold stripComment
  rw [List.takeWhile_append_of_pos (by intro c hx; simpa using h c hx)]
  rcases hc with rfl | hc
  · simp
  · cases comment with
    | nil => simp
    | cons x xs => simp at hc; subst hc; simp

/-- The words of a mnemonic and the text after it. -/
def assembleParts (name area : List Char) : Except AsmError (List Word) :=
    match Opcode.all.find? fun op => opcodeMnemonic op == name.map toCapital with
    | none => .error .unknownMnemonic
    | some op =>
      match assembleOperands op.operandTypes (operandTexts area) with
      | .ok ws => .ok (op.header :: ws)
      | .error e => .error e

theorem trimEnd_append {name area : List Char} (hn : ∀ c ∈ name, isBlank c = false) : trimEnd (name
    ++ area) = name ++ trimEnd area := by
  unfold trimEnd
  rw [List.reverse_append, List.dropWhile_append]
  split
  · next h =>
    rw [List.isEmpty_iff] at h; rw [h]
    have := trimEnd_of_nonblank hn
    unfold trimEnd at this
    rw [this]; simp
  · simp

/-- A line cut into blanks, a mnemonic, the text after it and a comment. -/
theorem assembleLine_of_parts {pre name area comment : List Char} (hp : Blanks pre) (hne : name ≠
    []) (hn : ∀ c ∈ name, isBlank c = false ∧ c ≠ ';')
   (ha : ∀ c ∈ area, c ≠ ';') (hh : area = [] ∨ ∃ b, area.head? = some b ∧ isBlank b = true) (hc :
       IsComment comment) :
   assembleLine (pre ++ name ++ area ++ comment) = assembleParts name area := by
  unfold assembleLine
  rw [stripComment_append _ hc]
  swap
  · intro c hm
    simp only [List.mem_append] at hm
    rcases hm with (h | h) | h
    · rintro rfl; have := hp _ h; revert this; decide
    · exact (hn c h).2
    · exact ha c h
  have e1 : trimBlanks (pre ++ name ++ area) = name ++ trimEnd area := by
    rw [trimBlanks_eq, List.append_assoc, dropWhile_blanks_append hp, dropWhile_of_nonblank (fun c
        h => (hn c h).1) hne, trimEnd_append (fun c h => (hn c h).1)]
  obtain ⟨b, hb, eb⟩ := exists_trimEnd area
  have hr : trimEnd area = [] ∨ ∃ b r, trimEnd area = b :: r ∧ isBlank b = true := by
    cases hx : trimEnd area with
    | nil => exact .inl rfl
    | cons x xs =>
      right
      rw [hx] at eb
      rcases hh with rfl | ⟨y, hy, hyb⟩
      · cases eb
      · rw [eb] at hy; simp at hy; subst hy; exact ⟨_, _, rfl, hyb⟩
  have e2 : (name ++ trimEnd area).takeWhile (fun c => !isBlank c) = name := by
    rw [List.takeWhile_append_of_pos (by intro c h; simp [(hn c h).1])]
    rcases hr with h | ⟨x, xs, h, hx⟩ <;> rw [h] <;> simp [*]
  have e3 : (name ++ trimEnd area).dropWhile (fun c => !isBlank c) = trimEnd area := by
    rw [List.dropWhile_append_of_pos (by intro c h; simp [(hn c h).1])]
    rcases hr with h | ⟨x, xs, h, hx⟩ <;> rw [h] <;> simp [*]
  simp only [e1, e2, e3]
  rw [if_neg (by simp [hne])]
  unfold assembleParts
  have : ∀ ts, assembleOperands ts (operandTexts area) = assembleOperands ts (operandTexts (trimEnd
      area)) := by
    intro ts; have := assembleOperands_append_blanks hb (trimEnd area) ts; rwa [← eb] at this
  simp only [this] <;> rfl

/-- A line with no command gives no words (log entry 24). -/
theorem assembleLine_of_blank {text} (h : IsBlankLine text) : assembleLine text = .ok [] := by
  obtain ⟨b, c, rfl, hb, hc⟩ := h
  unfold assembleLine
  rw [stripComment_append (by intro c h; rintro rfl; have := hb _ h; revert this; decide) hc]
  simp [(trimBlanks_eq_nil b).mpr hb]

/-- Every line holds no command or can be cut into those four parts. -/
theorem line_parts (text : List Char) : IsBlankLine text ∨ ∃ pre name area comment, text = pre ++
    name ++ area ++ comment ∧ Blanks pre ∧ name ≠ [] ∧ (∀ c ∈ name, isBlank c = false ∧ c ≠ ';') ∧
   (∀ c ∈ area, c ≠ ';') ∧ (area = [] ∨ ∃ b, area.head? = some b ∧ isBlank b = true) ∧ IsComment
       comment := by
  have h1 : text = stripComment text ++ text.dropWhile (fun c => c != ';') :=
      (List.takeWhile_append_dropWhile).symm
  have h2 : ∀ c ∈ stripComment text, c ≠ ';' := fun c h => by simpa using List.mem_takeWhile_imp h
  have h3 : IsComment (text.dropWhile (fun c => c != ';')) := by
    cases hx : text.dropWhile (fun c => c != ';') with
    | nil => exact .inl rfl
    | cons x xs =>
      right
      have := List.head?_dropWhile_not (fun c => c != ';') text
      rw [hx] at this; simpa using this
  generalize stripComment text = s at *
  generalize text.dropWhile _ = cm at *
  subst h1
  obtain ⟨b, hb, eb⟩ := exists_dropWhile s
  cases hd : s.dropWhile isBlank with
  | nil => rw [hd, List.append_nil] at eb; subst eb; exact .inl ⟨_, _, rfl, hb, h3⟩
  | cons x xs =>
    right
    have hx : isBlank x = false := by
      have := List.head?_dropWhile_not isBlank s
      rw [hd] at this; simpa using this
    refine ⟨b, (x::xs).takeWhile (fun c => !isBlank c), (x::xs).dropWhile (fun c => !isBlank c),
        cm, ?_, hb, ?_, ?_, ?_, ?_, h3⟩
    · rw [List.append_assoc b, List.takeWhile_append_dropWhile, ← hd, ← eb]
    · simp [hx]
    · intro c h
      refine ⟨by simpa using List.mem_takeWhile_imp h, h2 c ?_⟩
      rw [eb, hd]; exact List.mem_append_right _ ((List.takeWhile_sublist _).subset h)
    · intro c h
      exact h2 c (by rw [eb, hd]; exact List.mem_append_right _ ((List.dropWhile_sublist _).subset
          h))
    · cases hy : (x::xs).dropWhile (fun c => !isBlank c) with
      | nil => exact .inl rfl
      | cons y ys =>
        right
        have := List.head?_dropWhile_not (fun c => !isBlank c) (x::xs)
        rw [hy] at this; exact ⟨y, rfl, by simpa using this⟩

/-- The operands of a line start after a blank and hold no semicolon. -/
theorem IsOperandList.chars {area vs} (h : IsOperandList area vs) : (area = [] ∨ ∃ b, area.head? =
    some b ∧ isBlank b = true) ∧ ∀ c ∈ area, c ≠ ';' := by
  rcases h with ⟨_, h⟩ | ⟨texts, e, hh, hn, hf⟩
  · refine ⟨?_, ?_⟩
    · cases area with
      | nil => exact .inl rfl
      | cons c cs => exact .inr ⟨c, rfl, h c (by simp)⟩
    · intro c hc; rintro rfl; have := h _ hc; revert this; decide
  · refine ⟨.inr hh, ?_⟩
    subst e
    have := operands_chars hf
    clear hf hh hn
    induction texts with
    | nil => simp [List.intercalate]
    | cons t ts ih =>
      cases ts with
      | nil => simp [List.intercalate]; exact fun c hc => (this t (by simp) c hc).2
      | cons u us =>
        have e : [','].intercalate (t :: u :: us) = t ++ ',' :: [','].intercalate (u :: us) := by
          simp [List.intercalate, List.intersperse]
        rw [e]
        intro c hc
        simp only [List.mem_append, List.mem_cons] at hc
        rcases hc with h | rfl | h
        · exact (this t (by simp) c h).2
        · decide
        · exact ih (fun x hx => this x (by simp [hx])) c h

end Sys2Proof.Machine
end

