-- ==== Sys2Proof/Laws/State.lean ====
section
/-! SUPPORT. What each shared update of the state leaves in each field, so that no proof unfolds a
record update; what the clock leaves; and the ways a command ends. -/

namespace Sys2Proof.Machine

/-! ### `emit` -/

@[simp] theorem emit_params (e : Event) (s : State) : (emit e s).params = s.params := rfl
@[simp] theorem emit_fb (e : Event) (s : State) : (emit e s).fb = s.fb := rfl
@[simp] theorem emit_orient (e : Event) (s : State) : (emit e s).orient = s.orient := rfl
@[simp] theorem emit_curX (e : Event) (s : State) : (emit e s).curX = s.curX := rfl
@[simp] theorem emit_curY (e : Event) (s : State) : (emit e s).curY = s.curY := rfl
@[simp] theorem emit_res (e : Event) (s : State) : (emit e s).res = s.res := rfl
@[simp] theorem emit_loaded (e : Event) (s : State) : (emit e s).loaded = s.loaded := rfl
@[simp] theorem emit_pstate (e : Event) (s : State) : (emit e s).pstate = s.pstate := rfl
@[simp] theorem emit_frameIdx (e : Event) (s : State) : (emit e s).frameIdx = s.frameIdx := rfl
@[simp] theorem emit_hdr (e : Event) (s : State) : (emit e s).hdr = s.hdr := rfl
@[simp] theorem emit_frameSize (e : Event) (s : State) : (emit e s).frameSize = s.frameSize := rfl
@[simp] theorem emit_movBuf (e : Event) (s : State) : (emit e s).movBuf = s.movBuf := rfl
@[simp] theorem emit_tPrev (e : Event) (s : State) : (emit e s).tPrev = s.tPrev := rfl
@[simp] theorem emit_hasPrev (e : Event) (s : State) : (emit e s).hasPrev = s.hasPrev := rfl
@[simp] theorem emit_faulted (e : Event) (s : State) : (emit e s).faulted = s.faulted := rfl
@[simp] theorem emit_refused (e : Event) (s : State) : (emit e s).refused = s.refused := rfl
@[simp] theorem emit_src (e : Event) (s : State) : (emit e s).src = s.src := rfl
@[simp] theorem emit_events (e : Event) (s : State) : (emit e s).events = s.events ++ [e] := rfl
@[simp] theorem emit_response (e : Event) (s : State) : (emit e s).response = s.response := rfl
@[simp] theorem emit_sleeping (e : Event) (s : State) : (emit e s).sleeping = s.sleeping := rfl
@[simp] theorem emit_clockLast (e : Event) (s : State) : (emit e s).clockLast = s.clockLast := rfl
@[simp] theorem emit_clockDraws (e : Event) (s : State) :
    (emit e s).clockDraws = s.clockDraws := rfl
@[simp] theorem emit_clockIn (e : Event) (s : State) : (emit e s).clockIn = s.clockIn := rfl
@[simp] theorem emit_inbox (e : Event) (s : State) : (emit e s).inbox = s.inbox := rfl

/-! ### `emitFlush` -/

@[simp] theorem emitFlush_params (s : State) : (emitFlush s).params = s.params := rfl
@[simp] theorem emitFlush_fb (s : State) : (emitFlush s).fb = s.fb := rfl
@[simp] theorem emitFlush_orient (s : State) : (emitFlush s).orient = s.orient := rfl
@[simp] theorem emitFlush_curX (s : State) : (emitFlush s).curX = s.curX := rfl
@[simp] theorem emitFlush_curY (s : State) : (emitFlush s).curY = s.curY := rfl
@[simp] theorem emitFlush_res (s : State) : (emitFlush s).res = s.res := rfl
@[simp] theorem emitFlush_loaded (s : State) : (emitFlush s).loaded = s.loaded := rfl
@[simp] theorem emitFlush_pstate (s : State) : (emitFlush s).pstate = s.pstate := rfl
@[simp] theorem emitFlush_frameIdx (s : State) : (emitFlush s).frameIdx = s.frameIdx := rfl
@[simp] theorem emitFlush_hdr (s : State) : (emitFlush s).hdr = s.hdr := rfl
@[simp] theorem emitFlush_frameSize (s : State) : (emitFlush s).frameSize = s.frameSize := rfl
@[simp] theorem emitFlush_movBuf (s : State) : (emitFlush s).movBuf = s.movBuf := rfl
@[simp] theorem emitFlush_tPrev (s : State) : (emitFlush s).tPrev = s.tPrev := rfl
@[simp] theorem emitFlush_hasPrev (s : State) : (emitFlush s).hasPrev = s.hasPrev := rfl
@[simp] theorem emitFlush_faulted (s : State) : (emitFlush s).faulted = s.faulted := rfl
@[simp] theorem emitFlush_refused (s : State) : (emitFlush s).refused = s.refused := rfl
@[simp] theorem emitFlush_src (s : State) : (emitFlush s).src = s.src := rfl
@[simp] theorem emitFlush_events (s : State) :
    (emitFlush s).events = s.events ++ [.flush s.fb] := rfl
@[simp] theorem emitFlush_response (s : State) : (emitFlush s).response = s.response := rfl
@[simp] theorem emitFlush_sleeping (s : State) : (emitFlush s).sleeping = s.sleeping := rfl
@[simp] theorem emitFlush_clockLast (s : State) : (emitFlush s).clockLast = s.clockLast := rfl
@[simp] theorem emitFlush_clockDraws (s : State) : (emitFlush s).clockDraws = s.clockDraws := rfl
@[simp] theorem emitFlush_clockIn (s : State) : (emitFlush s).clockIn = s.clockIn := rfl
@[simp] theorem emitFlush_inbox (s : State) : (emitFlush s).inbox = s.inbox := rfl

/-! ### `markFaulted` -/

@[simp] theorem markFaulted_params (s : State) : (markFaulted s).params = s.params := rfl
@[simp] theorem markFaulted_fb (s : State) : (markFaulted s).fb = s.fb := rfl
@[simp] theorem markFaulted_orient (s : State) : (markFaulted s).orient = s.orient := rfl
@[simp] theorem markFaulted_curX (s : State) : (markFaulted s).curX = s.curX := rfl
@[simp] theorem markFaulted_curY (s : State) : (markFaulted s).curY = s.curY := rfl
@[simp] theorem markFaulted_res (s : State) : (markFaulted s).res = s.res := rfl
@[simp] theorem markFaulted_loaded (s : State) : (markFaulted s).loaded = s.loaded := rfl
@[simp] theorem markFaulted_pstate (s : State) : (markFaulted s).pstate = s.pstate := rfl
@[simp] theorem markFaulted_frameIdx (s : State) : (markFaulted s).frameIdx = s.frameIdx := rfl
@[simp] theorem markFaulted_hdr (s : State) : (markFaulted s).hdr = s.hdr := rfl
@[simp] theorem markFaulted_frameSize (s : State) : (markFaulted s).frameSize = s.frameSize := rfl
@[simp] theorem markFaulted_movBuf (s : State) : (markFaulted s).movBuf = s.movBuf := rfl
@[simp] theorem markFaulted_tPrev (s : State) : (markFaulted s).tPrev = s.tPrev := rfl
@[simp] theorem markFaulted_hasPrev (s : State) : (markFaulted s).hasPrev = s.hasPrev := rfl
@[simp] theorem markFaulted_faulted (s : State) : (markFaulted s).faulted = true := rfl
@[simp] theorem markFaulted_refused (s : State) : (markFaulted s).refused = s.refused := rfl
@[simp] theorem markFaulted_src (s : State) : (markFaulted s).src = s.src := rfl
@[simp] theorem markFaulted_events (s : State) : (markFaulted s).events = s.events := rfl
@[simp] theorem markFaulted_response (s : State) : (markFaulted s).response = s.response := rfl
@[simp] theorem markFaulted_sleeping (s : State) : (markFaulted s).sleeping = s.sleeping := rfl
@[simp] theorem markFaulted_clockLast (s : State) : (markFaulted s).clockLast = s.clockLast := rfl
@[simp] theorem markFaulted_clockDraws (s : State) :
    (markFaulted s).clockDraws = s.clockDraws := rfl
@[simp] theorem markFaulted_clockIn (s : State) : (markFaulted s).clockIn = s.clockIn := rfl
@[simp] theorem markFaulted_inbox (s : State) : (markFaulted s).inbox = s.inbox := rfl

/-! ### `releaseMovie` -/

@[simp] theorem releaseMovie_params (s : State) : (releaseMovie s).params = s.params := rfl
@[simp] theorem releaseMovie_fb (s : State) : (releaseMovie s).fb = s.fb := rfl
@[simp] theorem releaseMovie_orient (s : State) : (releaseMovie s).orient = s.orient := rfl
@[simp] theorem releaseMovie_curX (s : State) : (releaseMovie s).curX = s.curX := rfl
@[simp] theorem releaseMovie_curY (s : State) : (releaseMovie s).curY = s.curY := rfl
@[simp] theorem releaseMovie_res (s : State) : (releaseMovie s).res = s.res := rfl
@[simp] theorem releaseMovie_loaded (s : State) : (releaseMovie s).loaded = false := rfl
@[simp] theorem releaseMovie_pstate (s : State) : (releaseMovie s).pstate = .stopped := rfl
@[simp] theorem releaseMovie_frameIdx (s : State) : (releaseMovie s).frameIdx = 0 := rfl
@[simp] theorem releaseMovie_hdr (s : State) : (releaseMovie s).hdr = Header.zero := rfl
@[simp] theorem releaseMovie_frameSize (s : State) : (releaseMovie s).frameSize = 0 := rfl
@[simp] theorem releaseMovie_movBuf (s : State) : (releaseMovie s).movBuf = [] := rfl
@[simp] theorem releaseMovie_tPrev (s : State) : (releaseMovie s).tPrev = 0 := rfl
@[simp] theorem releaseMovie_hasPrev (s : State) : (releaseMovie s).hasPrev = false := rfl
@[simp] theorem releaseMovie_faulted (s : State) : (releaseMovie s).faulted = s.faulted := rfl
@[simp] theorem releaseMovie_refused (s : State) : (releaseMovie s).refused = s.refused := rfl
@[simp] theorem releaseMovie_src (s : State) : (releaseMovie s).src = s.src := rfl
@[simp] theorem releaseMovie_events (s : State) : (releaseMovie s).events = s.events := rfl
@[simp] theorem releaseMovie_response (s : State) : (releaseMovie s).response = s.response := rfl
@[simp] theorem releaseMovie_sleeping (s : State) : (releaseMovie s).sleeping = s.sleeping := rfl
@[simp] theorem releaseMovie_clockLast (s : State) :
    (releaseMovie s).clockLast = s.clockLast := rfl
@[simp] theorem releaseMovie_clockDraws (s : State) :
    (releaseMovie s).clockDraws = s.clockDraws := rfl
@[simp] theorem releaseMovie_clockIn (s : State) : (releaseMovie s).clockIn = s.clockIn := rfl
@[simp] theorem releaseMovie_inbox (s : State) : (releaseMovie s).inbox = s.inbox := rfl

/-! ### `fillFb` -/

@[simp] theorem fillFb_params (b : Byte) (s : State) : (fillFb b s).params = s.params := rfl
@[simp] theorem fillFb_fb (b : Byte) (s : State) :
    (fillFb b s).fb = Mem.fill Config.fbBytes b := rfl
@[simp] theorem fillFb_orient (b : Byte) (s : State) : (fillFb b s).orient = s.orient := rfl
@[simp] theorem fillFb_curX (b : Byte) (s : State) : (fillFb b s).curX = s.curX := rfl
@[simp] theorem fillFb_curY (b : Byte) (s : State) : (fillFb b s).curY = s.curY := rfl
@[simp] theorem fillFb_res (b : Byte) (s : State) : (fillFb b s).res = s.res := rfl
@[simp] theorem fillFb_loaded (b : Byte) (s : State) : (fillFb b s).loaded = s.loaded := rfl
@[simp] theorem fillFb_pstate (b : Byte) (s : State) : (fillFb b s).pstate = s.pstate := rfl
@[simp] theorem fillFb_frameIdx (b : Byte) (s : State) : (fillFb b s).frameIdx = s.frameIdx := rfl
@[simp] theorem fillFb_hdr (b : Byte) (s : State) : (fillFb b s).hdr = s.hdr := rfl
@[simp] theorem fillFb_frameSize (b : Byte) (s : State) :
    (fillFb b s).frameSize = s.frameSize := rfl
@[simp] theorem fillFb_movBuf (b : Byte) (s : State) : (fillFb b s).movBuf = s.movBuf := rfl
@[simp] theorem fillFb_tPrev (b : Byte) (s : State) : (fillFb b s).tPrev = s.tPrev := rfl
@[simp] theorem fillFb_hasPrev (b : Byte) (s : State) : (fillFb b s).hasPrev = s.hasPrev := rfl
@[simp] theorem fillFb_faulted (b : Byte) (s : State) : (fillFb b s).faulted = s.faulted := rfl
@[simp] theorem fillFb_refused (b : Byte) (s : State) : (fillFb b s).refused = s.refused := rfl
@[simp] theorem fillFb_src (b : Byte) (s : State) : (fillFb b s).src = s.src := rfl
@[simp] theorem fillFb_events (b : Byte) (s : State) : (fillFb b s).events = s.events := rfl
@[simp] theorem fillFb_response (b : Byte) (s : State) : (fillFb b s).response = s.response := rfl
@[simp] theorem fillFb_sleeping (b : Byte) (s : State) : (fillFb b s).sleeping = s.sleeping := rfl
@[simp] theorem fillFb_clockLast (b : Byte) (s : State) :
    (fillFb b s).clockLast = s.clockLast := rfl
@[simp] theorem fillFb_clockDraws (b : Byte) (s : State) :
    (fillFb b s).clockDraws = s.clockDraws := rfl
@[simp] theorem fillFb_clockIn (b : Byte) (s : State) : (fillFb b s).clockIn = s.clockIn := rfl
@[simp] theorem fillFb_inbox (b : Byte) (s : State) : (fillFb b s).inbox = s.inbox := rfl

/-! ### `resetInput` -/

@[simp] theorem resetInput_params (s : State) : (resetInput s).params = s.params := rfl
@[simp] theorem resetInput_fb (s : State) : (resetInput s).fb = [] := rfl
@[simp] theorem resetInput_orient (s : State) : (resetInput s).orient = ⟨false, false⟩ := rfl
@[simp] theorem resetInput_curX (s : State) : (resetInput s).curX = 0 := rfl
@[simp] theorem resetInput_curY (s : State) : (resetInput s).curY = 0 := rfl
@[simp] theorem resetInput_res (s : State) : (resetInput s).res = 0#32 := rfl
@[simp] theorem resetInput_loaded (s : State) : (resetInput s).loaded = false := rfl
@[simp] theorem resetInput_pstate (s : State) : (resetInput s).pstate = .stopped := rfl
@[simp] theorem resetInput_frameIdx (s : State) : (resetInput s).frameIdx = 0 := rfl
@[simp] theorem resetInput_hdr (s : State) : (resetInput s).hdr = Header.zero := rfl
@[simp] theorem resetInput_frameSize (s : State) : (resetInput s).frameSize = 0 := rfl
@[simp] theorem resetInput_movBuf (s : State) : (resetInput s).movBuf = [] := rfl
@[simp] theorem resetInput_tPrev (s : State) : (resetInput s).tPrev = 0 := rfl
@[simp] theorem resetInput_hasPrev (s : State) : (resetInput s).hasPrev = false := rfl
@[simp] theorem resetInput_faulted (s : State) : (resetInput s).faulted = s.faulted := rfl
@[simp] theorem resetInput_refused (s : State) : (resetInput s).refused = s.refused := rfl
@[simp] theorem resetInput_src (s : State) : (resetInput s).src = s.src := rfl
@[simp] theorem resetInput_events (s : State) : (resetInput s).events = s.events := rfl
@[simp] theorem resetInput_response (s : State) : (resetInput s).response = none := rfl
@[simp] theorem resetInput_sleeping (s : State) : (resetInput s).sleeping = none := rfl
@[simp] theorem resetInput_clockLast (s : State) : (resetInput s).clockLast = s.clockLast := rfl
@[simp] theorem resetInput_clockDraws (s : State) : (resetInput s).clockDraws = s.clockDraws := rfl
@[simp] theorem resetInput_clockIn (s : State) : (resetInput s).clockIn = s.clockIn := rfl
@[simp] theorem resetInput_inbox (s : State) : (resetInput s).inbox = s.inbox := rfl

/-! ### `advance` -/

@[simp] theorem advance_params (n : Nat) (s : State) : (s.advance n).params = s.params := rfl
@[simp] theorem advance_fb (n : Nat) (s : State) : (s.advance n).fb = s.fb := rfl
@[simp] theorem advance_orient (n : Nat) (s : State) : (s.advance n).orient = s.orient := rfl
@[simp] theorem advance_curX (n : Nat) (s : State) : (s.advance n).curX = s.curX := rfl
@[simp] theorem advance_curY (n : Nat) (s : State) : (s.advance n).curY = s.curY := rfl
@[simp] theorem advance_res (n : Nat) (s : State) : (s.advance n).res = s.res := rfl
@[simp] theorem advance_loaded (n : Nat) (s : State) : (s.advance n).loaded = s.loaded := rfl
@[simp] theorem advance_pstate (n : Nat) (s : State) : (s.advance n).pstate = s.pstate := rfl
@[simp] theorem advance_frameIdx (n : Nat) (s : State) : (s.advance n).frameIdx = s.frameIdx := rfl
@[simp] theorem advance_hdr (n : Nat) (s : State) : (s.advance n).hdr = s.hdr := rfl
@[simp] theorem advance_frameSize (n : Nat) (s : State) :
    (s.advance n).frameSize = s.frameSize := rfl
@[simp] theorem advance_movBuf (n : Nat) (s : State) : (s.advance n).movBuf = s.movBuf := rfl
@[simp] theorem advance_tPrev (n : Nat) (s : State) : (s.advance n).tPrev = s.tPrev := rfl
@[simp] theorem advance_hasPrev (n : Nat) (s : State) : (s.advance n).hasPrev = s.hasPrev := rfl
@[simp] theorem advance_faulted (n : Nat) (s : State) : (s.advance n).faulted = s.faulted := rfl
@[simp] theorem advance_refused (n : Nat) (s : State) : (s.advance n).refused = s.refused := rfl
@[simp] theorem advance_src (n : Nat) (s : State) : (s.advance n).src = s.src := rfl
@[simp] theorem advance_events (n : Nat) (s : State) : (s.advance n).events = s.events := rfl
@[simp] theorem advance_response (n : Nat) (s : State) : (s.advance n).response = s.response := rfl
@[simp] theorem advance_sleeping (n : Nat) (s : State) : (s.advance n).sleeping = s.sleeping := rfl
@[simp] theorem advance_clockLast (n : Nat) (s : State) :
    (s.advance n).clockLast = s.clockLast := rfl
@[simp] theorem advance_clockDraws (n : Nat) (s : State) :
    (s.advance n).clockDraws = s.clockDraws := rfl
@[simp] theorem advance_clockIn (n : Nat) (s : State) : (s.advance n).clockIn = s.clockIn := rfl
@[simp] theorem advance_inbox (n : Nat) (s : State) : (s.advance n).inbox = s.inbox.drop n := rfl

/-! ### `withPort` -/

@[simp] theorem withPort_params (s : State) (ws : List Word) :
    (s.withPort ws).params = s.params := rfl
@[simp] theorem withPort_fb (s : State) (ws : List Word) : (s.withPort ws).fb = s.fb := rfl
@[simp] theorem withPort_orient (s : State) (ws : List Word) :
    (s.withPort ws).orient = s.orient := rfl
@[simp] theorem withPort_curX (s : State) (ws : List Word) : (s.withPort ws).curX = s.curX := rfl
@[simp] theorem withPort_curY (s : State) (ws : List Word) : (s.withPort ws).curY = s.curY := rfl
@[simp] theorem withPort_res (s : State) (ws : List Word) : (s.withPort ws).res = s.res := rfl
@[simp] theorem withPort_loaded (s : State) (ws : List Word) :
    (s.withPort ws).loaded = s.loaded := rfl
@[simp] theorem withPort_pstate (s : State) (ws : List Word) :
    (s.withPort ws).pstate = s.pstate := rfl
@[simp] theorem withPort_frameIdx (s : State) (ws : List Word) :
    (s.withPort ws).frameIdx = s.frameIdx := rfl
@[simp] theorem withPort_hdr (s : State) (ws : List Word) : (s.withPort ws).hdr = s.hdr := rfl
@[simp] theorem withPort_frameSize (s : State) (ws : List Word) :
    (s.withPort ws).frameSize = s.frameSize := rfl
@[simp] theorem withPort_movBuf (s : State) (ws : List Word) :
    (s.withPort ws).movBuf = s.movBuf := rfl
@[simp] theorem withPort_tPrev (s : State) (ws : List Word) :
    (s.withPort ws).tPrev = s.tPrev := rfl
@[simp] theorem withPort_hasPrev (s : State) (ws : List Word) :
    (s.withPort ws).hasPrev = s.hasPrev := rfl
@[simp] theorem withPort_faulted (s : State) (ws : List Word) :
    (s.withPort ws).faulted = false := rfl
@[simp] theorem withPort_refused (s : State) (ws : List Word) :
    (s.withPort ws).refused = false := rfl
@[simp] theorem withPort_src (s : State) (ws : List Word) : (s.withPort ws).src = s.src := rfl
@[simp] theorem withPort_events (s : State) (ws : List Word) :
    (s.withPort ws).events = s.events := rfl
@[simp] theorem withPort_response (s : State) (ws : List Word) :
    (s.withPort ws).response = none := rfl
@[simp] theorem withPort_sleeping (s : State) (ws : List Word) :
    (s.withPort ws).sleeping = none := rfl
@[simp] theorem withPort_clockLast (s : State) (ws : List Word) :
    (s.withPort ws).clockLast = s.clockLast := rfl
@[simp] theorem withPort_clockDraws (s : State) (ws : List Word) :
    (s.withPort ws).clockDraws = s.clockDraws := rfl
@[simp] theorem withPort_clockIn (s : State) (ws : List Word) :
    (s.withPort ws).clockIn = s.clockIn := rfl
@[simp] theorem withPort_inbox (s : State) (ws : List Word) :
    (s.withPort ws).inbox = ws.map .word := rfl

/-! ### `installMovie` -/

@[simp] theorem installMovie_params (h : Header) (src : Nat) (s : State) :
    (installMovie h src s).params = s.params := rfl
@[simp] theorem installMovie_fb (h : Header) (src : Nat) (s : State) :
    (installMovie h src s).fb = s.fb := rfl
@[simp] theorem installMovie_orient (h : Header) (src : Nat) (s : State) :
    (installMovie h src s).orient = s.orient := rfl
@[simp] theorem installMovie_curX (h : Header) (src : Nat) (s : State) :
    (installMovie h src s).curX = s.curX := rfl
@[simp] theorem installMovie_curY (h : Header) (src : Nat) (s : State) :
    (installMovie h src s).curY = s.curY := rfl
@[simp] theorem installMovie_res (h : Header) (src : Nat) (s : State) :
    (installMovie h src s).res = s.res := rfl
@[simp] theorem installMovie_loaded (h : Header) (src : Nat) (s : State) :
    (installMovie h src s).loaded = true := rfl
@[simp] theorem installMovie_pstate (h : Header) (src : Nat) (s : State) :
    (installMovie h src s).pstate = .start := rfl
@[simp] theorem installMovie_frameIdx (h : Header) (src : Nat) (s : State) :
    (installMovie h src s).frameIdx = s.frameIdx := rfl
@[simp] theorem installMovie_hdr (h : Header) (src : Nat) (s : State) :
    (installMovie h src s).hdr = h := rfl
@[simp] theorem installMovie_frameSize (h : Header) (src : Nat) (s : State) :
    (installMovie h src s).frameSize = h.frameSize s.params := rfl
@[simp] theorem installMovie_movBuf (h : Header) (src : Nat) (s : State) :
    (installMovie h src s).movBuf = (List.range (h.totalSize s.params)).map fun k => Mem.read s.src (src + k) := rfl
@[simp] theorem installMovie_tPrev (h : Header) (src : Nat) (s : State) :
    (installMovie h src s).tPrev = s.tPrev := rfl
@[simp] theorem installMovie_hasPrev (h : Header) (src : Nat) (s : State) :
    (installMovie h src s).hasPrev = s.hasPrev := rfl
@[simp] theorem installMovie_faulted (h : Header) (src : Nat) (s : State) :
    (installMovie h src s).faulted = s.faulted := rfl
@[simp] theorem installMovie_refused (h : Header) (src : Nat) (s : State) :
    (installMovie h src s).refused = s.refused := rfl
@[simp] theorem installMovie_src (h : Header) (src : Nat) (s : State) :
    (installMovie h src s).src = s.src := rfl
@[simp] theorem installMovie_events (h : Header) (src : Nat) (s : State) :
    (installMovie h src s).events = s.events := rfl
@[simp] theorem installMovie_response (h : Header) (src : Nat) (s : State) :
    (installMovie h src s).response = s.response := rfl
@[simp] theorem installMovie_sleeping (h : Header) (src : Nat) (s : State) :
    (installMovie h src s).sleeping = s.sleeping := rfl
@[simp] theorem installMovie_clockLast (h : Header) (src : Nat) (s : State) :
    (installMovie h src s).clockLast = s.clockLast := rfl
@[simp] theorem installMovie_clockDraws (h : Header) (src : Nat) (s : State) :
    (installMovie h src s).clockDraws = s.clockDraws := rfl
@[simp] theorem installMovie_clockIn (h : Header) (src : Nat) (s : State) :
    (installMovie h src s).clockIn = s.clockIn := rfl
@[simp] theorem installMovie_inbox (h : Header) (src : Nat) (s : State) :
    (installMovie h src s).inbox = s.inbox := rfl

/-! ### `clock` -/

@[simp] theorem clock_params (s : State) : (clock s).2.params = s.params := by
  unfold clock; split <;> rfl
@[simp] theorem clock_fb (s : State) : (clock s).2.fb = s.fb := by
  unfold clock; split <;> rfl
@[simp] theorem clock_orient (s : State) : (clock s).2.orient = s.orient := by
  unfold clock; split <;> rfl
@[simp] theorem clock_curX (s : State) : (clock s).2.curX = s.curX := by
  unfold clock; split <;> rfl
@[simp] theorem clock_curY (s : State) : (clock s).2.curY = s.curY := by
  unfold clock; split <;> rfl
@[simp] theorem clock_res (s : State) : (clock s).2.res = s.res := by
  unfold clock; split <;> rfl
@[simp] theorem clock_loaded (s : State) : (clock s).2.loaded = s.loaded := by
  unfold clock; split <;> rfl
@[simp] theorem clock_pstate (s : State) : (clock s).2.pstate = s.pstate := by
  unfold clock; split <;> rfl
@[simp] theorem clock_frameIdx (s : State) : (clock s).2.frameIdx = s.frameIdx := by
  unfold clock; split <;> rfl
@[simp] theorem clock_hdr (s : State) : (clock s).2.hdr = s.hdr := by
  unfold clock; split <;> rfl
@[simp] theorem clock_frameSize (s : State) : (clock s).2.frameSize = s.frameSize := by
  unfold clock; split <;> rfl
@[simp] theorem clock_movBuf (s : State) : (clock s).2.movBuf = s.movBuf := by
  unfold clock; split <;> rfl
@[simp] theorem clock_tPrev (s : State) : (clock s).2.tPrev = s.tPrev := by
  unfold clock; split <;> rfl
@[simp] theorem clock_hasPrev (s : State) : (clock s).2.hasPrev = s.hasPrev := by
  unfold clock; split <;> rfl
@[simp] theorem clock_faulted (s : State) : (clock s).2.faulted = s.faulted := by
  unfold clock; split <;> rfl
@[simp] theorem clock_refused (s : State) : (clock s).2.refused = s.refused := by
  unfold clock; split <;> rfl
@[simp] theorem clock_src (s : State) : (clock s).2.src = s.src := by
  unfold clock; split <;> rfl
@[simp] theorem clock_events (s : State) : (clock s).2.events = s.events := by
  unfold clock; split <;> rfl
@[simp] theorem clock_response (s : State) : (clock s).2.response = s.response := by
  unfold clock; split <;> rfl
@[simp] theorem clock_sleeping (s : State) : (clock s).2.sleeping = s.sleeping := by
  unfold clock; split <;> rfl
@[simp] theorem clock_inbox (s : State) : (clock s).2.inbox = s.inbox := by
  unfold clock; split <;> rfl

/-- A sample is the clock's value after the draw (60_exceptions.md R212). -/
@[simp] theorem clock_clockLast (s : State) : (clock s).2.clockLast = (clock s).1 := by
  unfold clock; split <;> rfl

/-- Drawing a sample writes the clock and nothing else (60_exceptions.md R212). -/
theorem clock_eq (s : State) :
    (clock s).2 =
      { s with
        clockLast := (clock s).1, clockDraws := (clock s).2.clockDraws
        clockIn := (clock s).2.clockIn } := by
  unfold clock; split <;> rfl

/-- A sample is never smaller than an earlier one (60_exceptions.md R212). -/
theorem clockLast_le_clock (s : State) : s.clockLast ≤ (clock s).1 := by
  unfold clock; split <;> exact Nat.le_add_right _ _

/-- The sample when the host has fixed the clock's next advance. -/
theorem clock_of_clockIn {s : State} {d : Nat} {ds : List Nat} (h : s.clockIn = d :: ds) :
    clock s = (s.clockLast + d, { s with clockLast := s.clockLast + d, clockIn := ds }) := by
  simp [clock, h]

/-! ### How a command ends -/

/-- A completed command leaves its value in `RES` and on the response channel and changes nothing
else (10_state.md R25, 30_encoding.md R81). -/
theorem complete_eq_next {v : Int} {s t : State} :
    complete v s = .next t ↔ t = { s with res := wordOfInt v, response := some (wordOfInt v) } := by
  constructor
  · intro h; injection h with h; exact h.symm
  · rintro rfl; rfl

@[simp] theorem complete_ne_fault (v : Int) (s : State) (r : Fault) : complete v s ≠ .fault r :=
  nofun

@[simp] theorem complete_ne_refused (v : Int) (s : State) (r : Refusal) :
    complete v s ≠ .refused r :=
  nofun

@[simp] theorem raiseSrcFault_ne_next (s t : State) : raiseSrcFault s ≠ .next t := nofun

@[simp] theorem raiseMovFault_ne_next (s t : State) : raiseMovFault s ≠ .next t := nofun

@[simp] theorem raiseSrcFault_ne_refused (s : State) (r : Refusal) :
    raiseSrcFault s ≠ .refused r :=
  nofun

@[simp] theorem raiseMovFault_ne_refused (s : State) (r : Refusal) :
    raiseMovFault s ≠ .refused r :=
  nofun

@[simp] theorem refuse_ne_next (f : State → Refusal) (s t : State) : refuse f s ≠ .next t := nofun

@[simp] theorem refuse_ne_fault (f : State → Refusal) (s : State) (r : Fault) :
    refuse f s ≠ .fault r :=
  nofun

end Sys2Proof.Machine
end

