-- ==== Sys2Proof/Laws/Commands.lean ====
section
/-! SUPPORT. What each command and each part of a command that has several outcomes can do, said
once: the other commands' meanings are single equations. -/

namespace Sys2Proof.Machine

/-! ### Pacing (43_movie_player.md R185) -/

/-- The end of `Pace()` records the stamp and completes the `MSTEP`. -/
theorem finishPace_eq (now : Nat) (s : State) :
    finishPace now s =
      .next { s with
        tPrev := now, hasPrev := true, sleeping := none, res := 2#32, response := some 2#32 } :=
  rfl

/-- `Pace()` on a frame that comes before its period is over: it sleeps. -/
theorem pace_of_early {s : State} (hp : s.hasPrev = true)
    (he : ((clock s).1 : Int) - s.tPrev < framePeriod s.hdr) :
    pace s =
      .next { (clock s).2 with
        events := s.events ++ [.sleep
          ((framePeriod s.hdr : Int) - ((clock s).1 - s.tPrev) + s.params.paceMarginMs).toNat]
        sleeping := some (clock s).1 } := by
  have h : pace s =
      .next
        { emit (.sleep (framePeriod (clock s).2.hdr - elapsed (clock s).1 (clock s).2 +
            (clock s).2.params.paceMarginMs).toNat) (clock s).2 with
          sleeping := some (clock s).1 } := by
    apply if_pos
    simp only [elapsed, clock_hasPrev, clock_tPrev, clock_hdr]
    exact ⟨hp, he⟩
  rw [h]
  simp only [emit, elapsed, clock_tPrev, clock_hdr, clock_params, clock_events]

/-- `Pace()` on any other frame: it records the sample. -/
theorem pace_of_late {s : State}
    (h : s.hasPrev = false ∨ (framePeriod s.hdr : Int) ≤ ((clock s).1 : Int) - s.tPrev) :
    pace s =
      .next { (clock s).2 with
        tPrev := (clock s).1, hasPrev := true, sleeping := none
        res := 2#32, response := some 2#32 } := by
  have e : pace s = finishPace (clock s).1 (clock s).2 := by
    apply if_neg
    simp only [elapsed, clock_hasPrev, clock_tPrev, clock_hdr]
    rintro ⟨hp, he⟩
    rcases h with h | h
    · rw [h] at hp; cases hp
    · omega
  rw [e, finishPace_eq]

/-- `Pace()` always goes on. -/
theorem pace_isNext (s : State) : ∃ t, pace s = .next t := by
  by_cases h : s.hasPrev = true ∧ ((clock s).1 : Int) - s.tPrev < framePeriod s.hdr
  · exact ⟨_, pace_of_early h.1 h.2⟩
  · refine ⟨_, pace_of_late ?_⟩
    by_cases hp : s.hasPrev = true
    · exact .inr (Int.not_lt.mp fun hlt => h ⟨hp, hlt⟩)
    · exact .inl (by simpa using hp)

/-- What `Pace()` can leave. -/
theorem pace_next {s t : State} (h : pace s = .next t) :
    (s.hasPrev = true ∧ ∃ ms,
      t = { (clock s).2 with
        events := s.events ++ [.sleep ms], sleeping := some (clock s).1 }) ∨
    t = { (clock s).2 with
      tPrev := (clock s).1, hasPrev := true, sleeping := none
      res := 2#32, response := some 2#32 } := by
  by_cases hc : s.hasPrev = true ∧ ((clock s).1 : Int) - s.tPrev < framePeriod s.hdr
  · rw [pace_of_early hc.1 hc.2] at h
    injection h with h
    exact .inl ⟨hc.1, _, h.symm⟩
  · rw [pace_of_late] at h
    · injection h with h; exact .inr h.symm
    · by_cases hp : s.hasPrev = true
      · exact .inr (Int.not_lt.mp fun hlt => hc ⟨hp, hlt⟩)
      · exact .inl (by simpa using hp)

/-- What the acknowledgement of a `SLEEP` leaves (60_exceptions.md R213). -/
theorem resumePace_next {now : Nat} {s t : State} (h : resumePace now s = .next t) :
    t = { s with
      tPrev := now, hasPrev := true, sleeping := none, res := 2#32, response := some 2#32 } ∨
    t = { (clock s).2 with
      tPrev := (clock s).1, hasPrev := true, sleeping := none
      res := 2#32, response := some 2#32 } := by
  unfold resumePace at h
  split at h <;> rw [finishPace_eq] at h <;> injection h with h
  · exact .inl h.symm
  · exact .inr h.symm

/-- The acknowledgement always lets the `MSTEP` go on. -/
theorem resumePace_isNext (now : Nat) (s : State) : ∃ t, resumePace now s = .next t := by
  unfold resumePace
  split <;> exact ⟨_, rfl⟩

/-! ### Commands with several outcomes -/

/-- What `SETORI` can leave (40_pixelstore.md R106). -/
theorem execSetori_next {mode : Int} {s t : State} (h : execSetori mode s = .next t) :
    (0 ≤ mode ∧ mode ≤ 3 ∧
      t = { s with orient := orientOfMode mode, res := 0#32, response := some 0#32 }) ∨
    t = { s with res := 0xFFFFFFFF#32, response := some 0xFFFFFFFF#32 } := by
  unfold execSetori at h
  split at h
  · next hm => injection h with h; exact .inl ⟨hm.1, hm.2, h.symm⟩
  · injection h with h; exact .inr h.symm

/-- What `RECT` can leave (41_rasterizer.md R123). -/
theorem execRect_next {x1 y1 x2 y2 c : Int} {s t : State}
    (h : execRect x1 y1 x2 y2 c s = .next t) :
    t = { s with res := 0xFFFFFFFF#32, response := some 0xFFFFFFFF#32 } ∨
    t = { s with
      fb := drawRect s.orient x1 y1 x2 y2 c s.fb, curX := x1, curY := y1
      res := 0#32, response := some 0#32 } := by
  unfold execRect at h
  split at h <;> injection h with h
  · exact .inl h.symm
  · exact .inr h.symm

/-- What `RECTF` can leave (41_rasterizer.md R124). -/
theorem execRectf_next {x1 y1 x2 y2 c : Int} {s t : State}
    (h : execRectf x1 y1 x2 y2 c s = .next t) :
    t = { s with res := 0xFFFFFFFF#32, response := some 0xFFFFFFFF#32 } ∨
    t = { s with
      fb := drawColumns s.orient y1 y2 c (max x1 x2 + 1 - min x1 x2).toNat (min x1 x2) s.fb
      curX := max x1 x2, curY := y2, res := 0#32, response := some 0#32 } := by
  unfold execRectf at h
  split at h <;> injection h with h
  · exact .inl h.symm
  · exact .inr h.symm

/-- What `BLIT` can leave (42_compositor.md R153). -/
theorem execBlit_next {src : Nat} {x0 y0 vx0 vx1 w h bg fg : Int} {s t : State}
    (e : execBlit src x0 y0 vx0 vx1 w h bg fg s = .next t) :
    t = { s with res := 0xFFFFFFFF#32, response := some 0xFFFFFFFF#32 } ∨
    ∃ fb, blitCore (fun k => srcRead s (src + k)) s.orient x0 y0 vx0 vx1 w h bg fg s.fb =
        .done fb ∧
      t = { s with fb := fb, res := 0#32, response := some 0#32 } := by
  unfold execBlit at e
  split at e
  · injection e with e; exact .inl e.symm
  · split at e
    · injection e with e; exact .inl e.symm
    · split at e
      · next fb hb => injection e with e; exact .inr ⟨fb, hb, e.symm⟩
      · cases e

/-- What `MLOAD` can leave (43_movie_player.md R173): no movie, or the movie it installs. -/
theorem execMload_next {src len : Nat} {s t : State} (h : execMload src len s = .next t) :
    t = { releaseMovie s with res := 0xFFFFFFFF#32, response := some 0xFFFFFFFF#32 } ∨
    (headerAccepted s.params (readHeader s src) len = true ∧
      t = { installMovie (readHeader s src) src (releaseMovie s) with
        res := 0#32, response := some 0#32 }) := by
  unfold execMload at h
  split at h
  · injection h with h; exact .inl h.symm
  · split at h
    · cases h
    · split at h
      · injection h with h; exact .inl h.symm
      · split at h
        · next ha => injection h with h; exact .inr ⟨ha, h.symm⟩
        · injection h with h; exact .inl h.symm

/-- What a header that `MLOAD` accepts says (43_movie_player.md R173). -/
theorem headerAccepted_iff {p : Params} {h : Header} {len : Nat} :
    headerAccepted p h len = true ↔
      h.magic = Config.magic ∧ (h.bpp = 1#32 ∨ h.bpp = 2#32) ∧ 1 ≤ h.fps.toNat ∧
        1 ≤ h.frameCount.toNat ∧ h.totalSize p ≤ p.movieMaxBytes ∧ len = h.totalSize p := by
  simp only [headerAccepted, Bool.and_eq_true, Bool.or_eq_true, decide_eq_true_eq, and_assoc]

/-- What `MREWIND` can leave (43_movie_player.md R176). -/
theorem execMrewind_next {s t : State} (h : execMrewind s = .next t) :
    (s.loaded = true ∧ t = { s with pstate := .start, res := 0#32, response := some 0#32 }) ∨
    t = { s with res := 0xFFFFFFFF#32, response := some 0xFFFFFFFF#32 } := by
  unfold execMrewind at h
  split at h
  · next hl => injection h with h; exact .inl ⟨hl, h.symm⟩
  · injection h with h; exact .inr h.symm

/-- What `MSTEP` can leave (43_movie_player.md R183): it stops, it arms frame 0, or it draws the
next frame, flushes and paces. -/
theorem execMstep_next {c : Int} {s t : State} (h : execMstep c s = .next t) :
    t = { s with pstate := .stopped, res := 0#32, response := some 0#32 } ∨
    (s.loaded = true ∧
      t = { s with frameIdx := 0, pstate := .running, res := 2#32, response := some 2#32 }) ∨
    (s.loaded = true ∧ s.pstate = .running ∧ s.frameIdx + 1 < s.hdr.frameCount.toNat ∧
      ∃ fb, framePixels { s with frameIdx := s.frameIdx + 1 } (frameBase s (s.frameIdx + 1)) c
          s.fb = .done fb ∧
        pace { s with
          fb := fb, frameIdx := s.frameIdx + 1, events := s.events ++ [.flush fb] } =
          .next t) := by
  unfold execMstep at h
  split at h
  · next hl =>
    split at h
    · next hp => injection h with h; rw [← hp]; exact .inl h.symm
    · injection h with h; exact .inr (.inl ⟨hl, h.symm⟩)
    · next hp =>
      split at h
      · next hlt =>
        simp only [showFrame, frameDraw] at h
        split at h
        · next fb hfb =>
          split at hfb
          · next fb' hpx =>
            injection hfb with hfb
            subst hfb
            exact .inr (.inr ⟨hl, hp, by omega, fb', hpx, h⟩)
          · cases hfb
        · next hfb => split at hfb <;> cases hfb
        · cases h
      · injection h with h; exact .inl h.symm
  · injection h with h; exact .inl h.symm

/-- When `BLIT` faults (42_compositor.md R153). -/
theorem execBlit_fault {src : Nat} {x0 y0 vx0 vx1 w h bg fg : Int} {s : State} {f : Fault}
    (e : execBlit src x0 y0 vx0 vx1 w h bg fg s = .fault f) :
    ∃ fb, blitCore (fun k => srcRead s (src + k)) s.orient x0 y0 vx0 vx1 w h bg fg s.fb =
        .outOfRange fb ∧
      f = .srcOutOfRange { s with fb := fb, faulted := true } := by
  unfold execBlit at e
  split at e
  · cases e
  · split at e
    · cases e
    · split at e
      · cases e
      · next fb hb => injection e with e; exact ⟨fb, hb, e.symm⟩

/-- When `MLOAD` faults (43_movie_player.md R173): before it changes anything. -/
theorem execMload_fault {src len : Nat} {s : State} {f : Fault}
    (h : execMload src len s = .fault f) :
    src ≠ 0 ∧ s.params.srcSize < src + len ∧ f = .srcOutOfRange { s with faulted := true } := by
  unfold execMload at h
  split at h
  · cases h
  · next h0 =>
    split at h
    · next hr => injection h with h; exact ⟨h0, hr, h.symm⟩
    · split at h
      · cases h
      · split at h <;> cases h

/-- When `MSTEP` faults: only on a frame that lies outside `MOV_BUF` (20_memory.md R54). -/
theorem execMstep_fault {c : Int} {s : State} {f : Fault} (h : execMstep c s = .fault f) :
    s.loaded = true ∧ s.pstate = .running ∧ s.frameIdx + 1 < s.hdr.frameCount.toNat ∧
      ∃ fb, framePixels { s with frameIdx := s.frameIdx + 1 } (frameBase s (s.frameIdx + 1)) c
          s.fb = .outOfRange fb ∧
        f = .movOutOfRange { s with
          fb := fb, frameIdx := s.frameIdx + 1, faulted := true } := by
  unfold execMstep at h
  split at h
  · next hl =>
    split at h
    · cases h
    · cases h
    · next hp =>
      split at h
      · next hlt =>
        simp only [showFrame, frameDraw] at h
        split at h
        · obtain ⟨t, ht⟩ := pace_isNext _
          exact absurd (ht.symm.trans h) nofun
        · cases h
        · next fb hfb =>
          split at hfb
          · cases hfb
          · next fb' hpx =>
            injection hfb with hfb
            subst hfb
            injection h with h
            exact ⟨hl, hp, by omega, _, hpx, h.symm⟩
      · cases h
  · cases h

/-- The arm of `MSTEP` that draws, on a frame that can be drawn (43_movie_player.md R183). -/
theorem execMstep_of_frame {c : Int} {s : State} {fb : Mem} (hl : s.loaded = true)
    (hp : s.pstate = .running) (hn : s.frameIdx + 1 < s.hdr.frameCount.toNat)
    (hd : framePixels { s with frameIdx := s.frameIdx + 1 } (frameBase s (s.frameIdx + 1)) c s.fb =
      .done fb) :
    execMstep c s =
      pace { s with
        fb := fb, frameIdx := s.frameIdx + 1, events := s.events ++ [.flush fb] } := by
  unfold execMstep
  rw [if_pos hl]
  split
  · next h => rw [hp] at h; cases h
  · next h => rw [hp] at h; cases h
  · rw [if_pos (by omega)]
    have hf : frameDraw (frameBase { s with frameIdx := s.frameIdx + 1 } (s.frameIdx + 1)) c
        { s with frameIdx := s.frameIdx + 1 } = .ok fb := by
      rw [frameDraw]
      have hd' : framePixels { s with frameIdx := s.frameIdx + 1 }
          (frameBase { s with frameIdx := s.frameIdx + 1 } (s.frameIdx + 1)) c s.fb =
            .done fb := hd
      rw [hd']
    rw [showFrame, hf]
    rfl

end Sys2Proof.Machine
end

