-- ==== Sys2Proof/Laws/Memory.lean ====
section
/-! SUPPORT. The laws of a byte store: a read after a write, the canonical form, and the bound on
addresses. They hold for every list, canonical or not, except where the canonical form is the
subject. -/

namespace Sys2Proof.Machine

@[simp] theorem Mem.read_nil (a : Nat) : Mem.read [] a = 0#8 := rfl

@[simp] theorem Mem.read_cons (c : Host.Cell) (m : Mem) (a : Nat) :
    Mem.read (c :: m) a = if c.1 = a then c.2 else Mem.read m a := rfl

theorem Mem.read_erase (m : Mem) (a a' : Nat) :
    Mem.read (Mem.erase m a) a' = if a' = a then 0#8 else Mem.read m a' := by
  induction m with
  | nil => simp [Mem.erase]
  | cons c m ih =>
    have ih' : Mem.read (List.filter (fun c => decide (c.1 ≠ a)) m) a' =
        if a' = a then 0#8 else Mem.read m a' := ih
    unfold Mem.erase
    rw [List.filter_cons]
    by_cases hc : c.1 = a
    · subst hc
      simp only [ne_eq, not_true_eq_false, decide_false, Bool.false_eq_true, if_false, ih',
        Mem.read_cons]
      by_cases h : a' = c.1
      · simp [h]
      · simp [h, Ne.symm h]
    · simp only [ne_eq, hc, not_false_eq_true, decide_true, if_true, Mem.read_cons, ih']
      by_cases h : c.1 = a'
      · subst h; simp [hc]
      · simp [h]

theorem Mem.read_insert (m : Mem) (a : Nat) (b : Byte) (h : ∀ c ∈ m, c.1 ≠ a) (a' : Nat) :
    Mem.read (Mem.insert a b m) a' = if a' = a then b else Mem.read m a' := by
  induction m with
  | nil => simp [Mem.insert, eq_comm]
  | cons c m ih =>
    have hc : c.1 ≠ a := h c (List.mem_cons_self ..)
    have ih := ih fun d hd => h d (List.mem_cons_of_mem _ hd)
    unfold Mem.insert
    split
    · simp [eq_comm]
    · simp only [Mem.read_cons, ih]
      by_cases h1 : c.1 = a'
      · subst h1; simp [hc]
      · simp [h1]

theorem Mem.ne_of_mem_erase {m : Mem} {a : Nat} {c : Host.Cell} (h : c ∈ Mem.erase m a) :
    c.1 ≠ a := by
  simpa using (List.mem_filter.mp h).2

/-- A read after a write: the value written there, and every other address as before. -/
theorem Mem.read_write (m : Mem) (a : Nat) (b : Byte) (a' : Nat) :
    Mem.read (Mem.write m a b) a' = if a' = a then b else Mem.read m a' := by
  unfold Mem.write
  split
  · next h => rw [Mem.read_erase, h]
  · rw [Mem.read_insert _ _ _ fun c hc => Mem.ne_of_mem_erase hc, Mem.read_erase]
    split <;> simp_all

@[simp] theorem Mem.read_write_same (m : Mem) (a : Nat) (b : Byte) :
    Mem.read (Mem.write m a b) a = b := by
  simp [Mem.read_write]

theorem Mem.read_write_other (m : Mem) {a a' : Nat} (b : Byte) (h : a' ≠ a) :
    Mem.read (Mem.write m a b) a' = Mem.read m a' := by
  simp [Mem.read_write, h]

/-! ### The canonical form -/

theorem Mem.wf_cons {c : Host.Cell} {m : Mem} :
    Mem.wf (c :: m) = true ↔ c.2 ≠ 0#8 ∧ (∀ d ∈ m, c.1 < d.1) ∧ Mem.wf m = true := by
  simp [Mem.wf, and_assoc]

theorem Mem.wf_filter {m : Mem} (p : Host.Cell → Bool) (h : Mem.wf m = true) :
    Mem.wf (m.filter p) = true := by
  induction m with
  | nil => exact h
  | cons c m ih =>
    obtain ⟨h0, h1, h2⟩ := Mem.wf_cons.mp h
    rw [List.filter_cons]
    split
    · exact Mem.wf_cons.mpr ⟨h0, fun d hd => h1 d (List.mem_filter.mp hd).1, ih h2⟩
    · exact ih h2

theorem Mem.mem_insert {a : Nat} {b : Byte} {m : Mem} {d : Host.Cell}
    (h : d ∈ Mem.insert a b m) : d = (a, b) ∨ d ∈ m := by
  induction m with
  | nil => simpa [Mem.insert] using h
  | cons c m ih =>
    unfold Mem.insert at h
    split at h
    · simpa using h
    · rcases List.mem_cons.mp h with h | h
      · exact .inr (by simp [h])
      · rcases ih h with h | h
        · exact .inl h
        · exact .inr (List.mem_cons_of_mem _ h)

theorem Mem.wf_insert {m : Mem} {a : Nat} {b : Byte} (hb : b ≠ 0#8) (h : Mem.wf m = true)
    (ha : ∀ c ∈ m, c.1 ≠ a) : Mem.wf (Mem.insert a b m) = true := by
  induction m with
  | nil => simpa [Mem.insert, Mem.wf] using hb
  | cons c m ih =>
    obtain ⟨h0, h1, h2⟩ := Mem.wf_cons.mp h
    unfold Mem.insert
    split
    · next hlt =>
      refine Mem.wf_cons.mpr ⟨hb, fun d hd => ?_, h⟩
      rcases List.mem_cons.mp hd with rfl | hd
      · exact hlt
      · exact hlt.trans (h1 d hd)
    · next hlt =>
      have hc : c.1 ≠ a := ha c (List.mem_cons_self ..)
      refine Mem.wf_cons.mpr ⟨h0, fun d hd => ?_, ih h2 fun d hd => ha d (List.mem_cons_of_mem _ hd)⟩
      rcases Mem.mem_insert hd with rfl | hd
      · change c.1 < a; omega
      · exact h1 d hd

/-- A write keeps the canonical form. -/
theorem Mem.wf_write {m : Mem} (a : Nat) (b : Byte) (h : Mem.wf m = true) :
    Mem.wf (Mem.write m a b) = true := by
  unfold Mem.write
  split
  · exact Mem.wf_filter _ h
  · next hb => exact Mem.wf_insert hb (Mem.wf_filter _ h) fun c hc => Mem.ne_of_mem_erase hc

theorem Mem.below_iff {m : Mem} {n : Nat} : Mem.below m n = true ↔ ∀ c ∈ m, c.1 < n := by
  simp [Mem.below]

/-- A write below a bound keeps every address below it. -/
theorem Mem.below_write {m : Mem} {n a : Nat} (b : Byte) (ha : a < n)
    (h : Mem.below m n = true) : Mem.below (Mem.write m a b) n = true := by
  rw [Mem.below_iff] at h ⊢
  unfold Mem.write
  intro c hc
  split at hc
  · exact h c (List.mem_filter.mp hc).1
  · rcases Mem.mem_insert hc with rfl | hc
    · exact ha
    · exact h c (List.mem_filter.mp hc).1

/-- Equal reads make equal stores: the canonical form is canonical. -/
theorem Mem.eq_of_read {m m' : Mem} (h : Mem.wf m = true) (h' : Mem.wf m' = true)
    (hr : ∀ a, Mem.read m a = Mem.read m' a) : m = m' := by
  have low : ∀ {m : Mem} {a : Nat}, (∀ d ∈ m, a < d.1) → Mem.read m a = 0#8 := by
    intro m a hm
    induction m with
    | nil => rfl
    | cons d m ih =>
      have := hm d (List.mem_cons_self ..)
      rw [Mem.read_cons, if_neg (by omega), ih fun e he => hm e (List.mem_cons_of_mem _ he)]
  induction m generalizing m' with
  | nil =>
    cases m' with
    | nil => rfl
    | cons c' m' =>
      have := hr c'.1
      simp only [Mem.read_nil, Mem.read_cons, if_true] at this
      exact absurd this.symm (Mem.wf_cons.mp h').1
  | cons c m ih =>
    obtain ⟨h0, h1, h2⟩ := Mem.wf_cons.mp h
    cases m' with
    | nil =>
      have := hr c.1
      simp only [Mem.read_nil, Mem.read_cons, if_true] at this
      exact absurd this h0
    | cons c' m' =>
      obtain ⟨h0', h1', h2'⟩ := Mem.wf_cons.mp h'
      have hk : c.1 = c'.1 := by
        rcases Nat.lt_trichotomy c.1 c'.1 with hlt | heq | hgt
        · have := hr c.1
          rw [Mem.read_cons, if_pos rfl, low (m := c' :: m') (a := c.1)] at this
          · exact absurd this h0
          · intro d hd
            rcases List.mem_cons.mp hd with rfl | hd
            · exact hlt
            · exact hlt.trans (h1' d hd)
        · exact heq
        · have := hr c'.1
          rw [low (m := c :: m) (a := c'.1), Mem.read_cons, if_pos rfl] at this
          · exact absurd this.symm h0'
          · intro d hd
            rcases List.mem_cons.mp hd with rfl | hd
            · exact hgt
            · exact hgt.trans (h1 d hd)
      have hv : c.2 = c'.2 := by
        have := hr c.1
        rwa [Mem.read_cons, Mem.read_cons, if_pos rfl, if_pos hk.symm] at this
      have hc : c = c' := Prod.ext hk hv
      subst hc
      congr 1
      refine ih h2 h2' fun a => ?_
      by_cases ha : c.1 = a
      · subst ha; rw [low h1, low h1']
      · have := hr a
        rwa [Mem.read_cons, Mem.read_cons, if_neg ha, if_neg ha] at this

/-! ### Filling -/

theorem Mem.read_map_const (l : List Nat) (b : Byte) (a : Nat) :
    Mem.read (l.map fun k => (k, b)) a = if a ∈ l then b else 0#8 := by
  induction l with
  | nil => rfl
  | cons k l ih =>
    rw [List.map_cons, Mem.read_cons, ih]
    by_cases h : k = a
    · simp [h]
    · simp [h, Ne.symm h]

/-- A filled store holds the byte below the bound and nothing above it. -/
theorem Mem.read_fill (n : Nat) (b : Byte) (a : Nat) :
    Mem.read (Mem.fill n b) a = if a < n then b else 0#8 := by
  unfold Mem.fill
  split
  · next h => simp [h]
  · rw [Mem.read_map_const]; simp

theorem Mem.wf_map_const {b : Byte} (hb : b ≠ 0#8) {l : List Nat} (h : l.Pairwise (· < ·)) :
    Mem.wf (l.map fun k => (k, b)) = true := by
  induction l with
  | nil => rfl
  | cons k l ih =>
    obtain ⟨h1, h2⟩ := List.pairwise_cons.mp h
    refine Mem.wf_cons.mpr ⟨hb, fun d hd => ?_, ih h2⟩
    obtain ⟨j, hj, rfl⟩ := List.mem_map.mp hd
    exact h1 j hj

/-- A filled store is canonical. -/
theorem Mem.wf_fill (n : Nat) (b : Byte) : Mem.wf (Mem.fill n b) = true := by
  unfold Mem.fill
  split
  · rfl
  · next h => exact Mem.wf_map_const h List.pairwise_lt_range

/-- A filled store lists only addresses below its bound. -/
theorem Mem.below_fill (n : Nat) (b : Byte) : Mem.below (Mem.fill n b) n = true := by
  rw [Mem.below_iff]
  unfold Mem.fill
  intro c hc
  split at hc
  · exact absurd hc (List.not_mem_nil)
  · obtain ⟨j, hj, rfl⟩ := List.mem_map.mp hc
    simpa using hj

end Sys2Proof.Machine
end

