-- ==== Sys2Proof/Laws/Pixels.lean ====
section
/-! SUPPORT. The laws of the pixel procedures (40_pixelstore.md section 1): mirroring, the place of
a pixel, its field, and what plotting leaves. -/

namespace Sys2Proof.Machine

/-! ### Mirroring -/

/-- Mirroring twice is the identity (40_pixelstore.md R100). -/
@[simp] theorem mirror_mirror (o : Orient) (p : Int × Int) :
    mirror o (mirror o p.1 p.2).1 (mirror o p.1 p.2).2 = p := by
  obtain ⟨mx, my⟩ := o
  obtain ⟨x, y⟩ := p
  cases mx <;> cases my <;> simp [mirror]

/-- Different logical points have different physical points (40_pixelstore.md R100). -/
theorem mirror_injective {o : Orient} {x y x' y' : Int} (h : mirror o x y = mirror o x' y') :
    x = x' ∧ y = y' := by
  have h1 := mirror_mirror o (x, y)
  have h2 := mirror_mirror o (x', y')
  simp only at h1 h2
  rw [h, h2] at h1
  exact ⟨(congrArg Prod.fst h1).symm, (congrArg Prod.snd h1).symm⟩

theorem onScreen_iff {p : Int × Int} :
    onScreen p = true ↔ 0 ≤ p.1 ∧ p.1 < 192 ∧ 0 ≤ p.2 ∧ p.2 < 96 := by
  simp [onScreen, and_assoc]

/-- A logical point is on the screen exactly when its physical point is: mirroring keeps the
screen (40_pixelstore.md R100). -/
theorem onScreen_mirror (o : Orient) (x y : Int) :
    onScreen (mirror o x y) = true ↔ onScreen (x, y) = true := by
  obtain ⟨mx, my⟩ := o
  cases mx <;> cases my <;> simp only [mirror, onScreen_iff] <;> simp <;> omega

/-! ### The place of a pixel (20_memory.md R51) -/

/-- The byte of a pixel on the screen is one of the framebuffer's 4608. -/
theorem pixelAddr_lt {p : Int × Int} (h : onScreen p = true) : pixelAddr p < Config.fbBytes := by
  obtain ⟨h0, h1, h2, h3⟩ := onScreen_iff.mp h
  change p.2.toNat / 4 * 192 + p.1.toNat < 4608
  omega

/-- Two pixels on the screen with the same byte and the same field are one pixel. -/
theorem pixel_place_injective {p q : Int × Int} (hp : onScreen p = true) (hq : onScreen q = true)
    (ha : pixelAddr p = pixelAddr q) (hs : pixelShift p = pixelShift q) : p = q := by
  obtain ⟨h0, h1, h2, h3⟩ := onScreen_iff.mp hp
  obtain ⟨k0, k1, k2, k3⟩ := onScreen_iff.mp hq
  change p.2.toNat / 4 * 192 + p.1.toNat = q.2.toNat / 4 * 192 + q.1.toNat at ha
  change (4 - 1 - p.2.toNat % 4) * 2 = (4 - 1 - q.2.toNat % 4) * 2 at hs
  have hx : p.1 = q.1 := by omega
  have hy : p.2 = q.2 := by omega
  exact Prod.ext hx hy

/-- The shift of a field is 6, 4, 2 or 0. -/
theorem pixelShift_cases (p : Int × Int) :
    pixelShift p = 0 ∨ pixelShift p = 2 ∨ pixelShift p = 4 ∨ pixelShift p = 6 := by
  change (4 - 1 - p.2.toNat % 4) * 2 = 0 ∨ (4 - 1 - p.2.toNat % 4) * 2 = 2 ∨
    (4 - 1 - p.2.toNat % 4) * 2 = 4 ∨ (4 - 1 - p.2.toNat % 4) * 2 = 6
  omega

/-! ### Fields of a byte (40_pixelstore.md R101, R102) -/

/-- The masked level as a number: the operand's remainder by 4. -/
theorem maskLevel_toNat (level : Int) : ((maskLevel level).toNat : Int) = storedLevel level := by
  have h : (maskLevel level).toNat = (BitVec.ofInt 8 level).toNat % 4 := by
    unfold maskLevel
    rw [BitVec.toNat_and]
    exact Nat.and_two_pow_sub_one_eq_mod _ 2
  rw [h, BitVec.toNat_ofInt, storedLevel]
  omega

theorem setField_get_cases :
    ∀ b l : BitVec 8, ∀ k ∈ [0, 2, 4, 6], ∀ j ∈ [0, 2, 4, 6],
      (((b &&& ~~~(3#8 <<< k)) ||| ((l &&& 3#8) <<< k)) >>> j) &&& 3#8 =
        if j = k then l &&& 3#8 else (b >>> j) &&& 3#8 := by
  intro b l k hk j hj
  simp only [List.mem_cons, List.not_mem_nil, or_false] at hk hj
  rcases hk with rfl | rfl | rfl | rfl <;> rcases hj with rfl | rfl | rfl | rfl <;>
    · ext i hi
      have : i = 0 ∨ i = 1 ∨ i = 2 ∨ i = 3 ∨ i = 4 ∨ i = 5 ∨ i = 6 ∨ i = 7 := by omega
      rcases this with rfl | rfl | rfl | rfl | rfl | rfl | rfl | rfl <;> simp

/-- A field that is written reads back, and the other three fields of the byte stay. -/
theorem getField_setField (b : Byte) {k j : Nat} (level : Int)
    (hk : k = 0 ∨ k = 2 ∨ k = 4 ∨ k = 6) (hj : j = 0 ∨ j = 2 ∨ j = 4 ∨ j = 6) :
    getField (setField b k level) j = if j = k then maskLevel level else getField b j := by
  have := setField_get_cases b (BitVec.ofInt 8 level) k (by simpa using hk) j (by simpa using hj)
  simpa [getField, setField, maskLevel] using this

/-! ### Plotting and reading -/

theorem readPixel_offScreen {o : Orient} {x y : Int} (fb : Mem)
    (h : onScreen (mirror o x y) ≠ true) : readPixel o x y fb = -1 := by
  simp [readPixel, h, sentinel]

theorem readPixel_onScreen {o : Orient} {x y : Int} (fb : Mem)
    (h : onScreen (mirror o x y) = true) :
    readPixel o x y fb =
      ((getField (Mem.read fb (pixelAddr (mirror o x y))) (pixelShift (mirror o x y))).toNat :
        Int) := by
  simp [readPixel, h]

theorem plotPixel_offScreen {o : Orient} {x y : Int} (level : Int) (fb : Mem)
    (h : onScreen (mirror o x y) ≠ true) : plotPixel o x y level fb = fb := by
  simp [plotPixel, h]

/-- What plotting one pixel does: the point takes the masked level, every other point and every
byte but that of the point stays (40_pixelstore.md R101). -/
theorem plotPixel_painted (o : Orient) (x y level : Int) (fb : Mem) :
    Painted o (fun x' y' => if x' = x ∧ y' = y then some level else none) fb
      (plotPixel o x y level fb) := by
  by_cases hs : onScreen (mirror o x y) = true
  · have hp : plotPixel o x y level fb =
        Mem.write fb (pixelAddr (mirror o x y))
          (setField (Mem.read fb (pixelAddr (mirror o x y))) (pixelShift (mirror o x y)) level) := by
      simp [plotPixel, hs]
    constructor
    · intro x' y' hs'
      rw [readPixel_onScreen _ hs', readPixel_onScreen _ hs', hp, Mem.read_write]
      by_cases hsame : x' = x ∧ y' = y
      · obtain ⟨rfl, rfl⟩ := hsame
        simp [getField_setField _ _ (pixelShift_cases _) (pixelShift_cases _), maskLevel_toNat]
      · rw [if_neg hsame]
        split
        · next ha =>
          have hne : pixelShift (mirror o x' y') ≠ pixelShift (mirror o x y) := fun h =>
            hsame (mirror_injective (pixel_place_injective hs' hs ha h))
          rw [getField_setField _ _ (pixelShift_cases _) (pixelShift_cases _), if_neg hne, ha]
        · rfl
    · intro a ha
      rw [hp, Mem.read_write_other]
      exact fun h => ha x y (by simp) hs h.symm
  · rw [plotPixel_offScreen _ _ hs]
    constructor
    · intro x' y' hs'
      have : ¬(x' = x ∧ y' = y) := by rintro ⟨rfl, rfl⟩; exact hs hs'
      simp [this]
    · intro a _; rfl

/-- A drawing that draws nothing leaves the framebuffer as it is. -/
theorem Painted.refl (o : Orient) (fb : Mem) : Painted o (fun _ _ => none) fb fb :=
  ⟨fun _ _ _ => rfl, fun _ _ => rfl⟩

/-- One drawing after another: the later one covers the earlier one. -/
theorem Painted.trans {o : Orient} {p q : Paint} {a b c : Mem} (h1 : Painted o p a b)
    (h2 : Painted o q b c) :
    Painted o (fun x y => match q x y with | some l => some l | none => p x y) a c := by
  constructor
  · intro x y hs
    rw [h2.pixels x y hs]
    cases hq : q x y with
    | some l => simp
    | none => simp only; exact h1.pixels x y hs
  · intro k hk
    rw [h2.bytes k, h1.bytes k]
    · intro x y hne; refine hk x y ?_
      cases hq : q x y <;> simp [hne]
    · intro x y hne; refine hk x y ?_
      cases hq : q x y with
      | some l => simp
      | none => exact absurd hq hne

/-- Drawings that agree at every point are one drawing. -/
theorem Painted.congr {o : Orient} {p q : Paint} {a b : Mem} (h : Painted o p a b)
    (e : ∀ x y, p x y = q x y) : Painted o q a b := by
  have : p = q := funext fun x => funext fun y => e x y
  exact this ▸ h

theorem plotPoints_nil (o : Orient) (c : Int) (fb : Mem) : plotPoints o c [] fb = fb := rfl

theorem plotPoints_cons (o : Orient) (c : Int) (p : Int × Int) (ps : List (Int × Int)) (fb : Mem) :
    plotPoints o c (p :: ps) fb = plotPoints o c ps (plotPixel o p.1 p.2 c fb) := rfl

theorem plotPoints_append (o : Orient) (c : Int) (ps qs : List (Int × Int)) (fb : Mem) :
    plotPoints o c (ps ++ qs) fb = plotPoints o c qs (plotPoints o c ps fb) := by
  simp [plotPoints, List.foldl_append]

/-- What plotting a list of points does: the points take the masked level, the rest stays. -/
theorem plotPoints_painted (o : Orient) (c : Int) (ps : List (Int × Int)) (fb : Mem) :
    Painted o (paintPoints ps c) fb (plotPoints o c ps fb) := by
  induction ps generalizing fb with
  | nil => exact (Painted.refl o fb).congr fun _ _ => by simp [paintPoints]
  | cons p ps ih =>
    rw [plotPoints_cons]
    refine ((plotPixel_painted o p.1 p.2 c fb).trans (ih _)).congr fun x y => ?_
    by_cases h : (x, y) ∈ ps
    · simp [paintPoints, h]
    · by_cases h' : x = p.1 ∧ y = p.2
      · obtain ⟨rfl, rfl⟩ := h'; simp [paintPoints, h]
      · have : (x, y) ≠ p := fun e => h' (by rw [← e]; exact ⟨rfl, rfl⟩)
        simp [paintPoints, h, h', this]

/-! ### The canonical form and size of `FB` -/

theorem plotPixel_wf (o : Orient) (x y level : Int) {fb : Mem} (h : Mem.wf fb = true) :
    Mem.wf (plotPixel o x y level fb) = true := by
  simp only [plotPixel]
  split
  · exact Mem.wf_write _ _ h
  · exact h

theorem plotPixel_below (o : Orient) (x y level : Int) {fb : Mem}
    (h : Mem.below fb Config.fbBytes = true) :
    Mem.below (plotPixel o x y level fb) Config.fbBytes = true := by
  simp only [plotPixel]
  split
  · next hs => exact Mem.below_write _ (pixelAddr_lt hs) h
  · exact h

/-- A framebuffer in its canonical form, with no byte past its 4608. -/
abbrev FbWf (fb : Mem) : Prop := Mem.wf fb = true ∧ Mem.below fb Config.fbBytes = true

theorem plotPixel_fbWf (o : Orient) (x y level : Int) {fb : Mem} (h : FbWf fb) :
    FbWf (plotPixel o x y level fb) :=
  ⟨plotPixel_wf o x y level h.1, plotPixel_below o x y level h.2⟩

theorem plotPoints_fbWf (o : Orient) (c : Int) (ps : List (Int × Int)) {fb : Mem} (h : FbWf fb) :
    FbWf (plotPoints o c ps fb) := by
  induction ps generalizing fb with
  | nil => exact h
  | cons p ps ih => exact ih (plotPixel_fbWf o p.1 p.2 c h)

end Sys2Proof.Machine
end

