-- ==== Sys2Proof/Laws/Drawing.lean ====
section
/-! SUPPORT. What the shared drawing loops do: lines and chains of lines as lists of points, and
the loops that read memory while they draw. -/

namespace Sys2Proof.Machine

/-! ### Lines and chains of lines -/

/-- What `DrawLine` does (41_rasterizer.md R120). -/
theorem drawLine_painted (o : Orient) (x0 y0 x1 y1 c : Int) (fb : Mem) :
    Painted o (paintPoints (linePoints x0 y0 x1 y1) c) fb (drawLine o x0 y0 x1 y1 c fb) :=
  plotPoints_painted o c _ fb

/-- The four sides of `RECT` plot one list of points (41_rasterizer.md R123). -/
theorem drawRect_eq (o : Orient) (x1 y1 x2 y2 c : Int) (fb : Mem) :
    drawRect o x1 y1 x2 y2 c fb =
      plotPoints o c
        (linePoints x1 y1 x2 y1 ++ linePoints x2 y1 x2 y2 ++ linePoints x2 y2 x1 y2 ++
          linePoints x1 y2 x1 y1) fb := by
  simp only [drawRect, drawLine, plotPoints_append]

/-- The points of `n` columns from `x` (41_rasterizer.md R124). -/
def columnPoints (y1 y2 : Int) : Nat → Int → List (Int × Int)
  | 0, _ => []
  | n + 1, x => linePoints x y1 x y2 ++ columnPoints y1 y2 n (x + 1)

/-- The columns of `RECTF` plot one list of points (41_rasterizer.md R124). -/
theorem drawColumns_eq (o : Orient) (y1 y2 c : Int) (n : Nat) (x : Int) (fb : Mem) :
    drawColumns o y1 y2 c n x fb = plotPoints o c (columnPoints y1 y2 n x) fb := by
  induction n generalizing x fb with
  | zero => rfl
  | succ n ih => rw [drawColumns, columnPoints, plotPoints_append, ih]; rfl

/-- A point is in `n` columns from `x` when it is on the line of one of them. -/
theorem mem_columnPoints {y1 y2 : Int} {n : Nat} {x : Int} {p : Int × Int} :
    p ∈ columnPoints y1 y2 n x ↔ ∃ k : Nat, k < n ∧ p ∈ linePoints (x + k) y1 (x + k) y2 := by
  induction n generalizing x with
  | zero => simp [columnPoints]
  | succ n ih =>
    rw [columnPoints, List.mem_append, ih]
    constructor
    · rintro (h | ⟨k, hk, h⟩)
      · exact ⟨0, Nat.succ_pos n, by simpa using h⟩
      · refine ⟨k + 1, by omega, ?_⟩
        have : x + 1 + (k : Int) = x + ((k + 1 : Nat) : Int) := by push_cast; ring
        rwa [← this]
    · rintro ⟨k, hk, h⟩
      cases k with
      | zero => exact .inl (by simpa using h)
      | succ k =>
        refine .inr ⟨k, by omega, ?_⟩
        have : x + 1 + (k : Int) = x + ((k + 1 : Nat) : Int) := by push_cast; ring
        rwa [this]

/-! ### Loops that read memory -/

/-- The drawing of a loop whose round `i` draws `paint i`: the last round that draws a point gives
its level. -/
def paintRange (paint : Nat → Paint) : Nat → Nat → Paint
  | 0, _ => fun _ _ => none
  | n + 1, first => fun x y =>
    match paintRange paint n (first + 1) x y with
    | some level => some level
    | none => paint first x y

/-- A loop whose every round draws draws them all (00_scope.md R9). -/
theorem drawRange_painted {body : Nat → Mem → Drawn} {o : Orient} {paint : Nat → Paint}
    {n first : Nat} (h : ∀ i, first ≤ i → i < first + n → ∀ fb, ∃ fb', body i fb = .done fb' ∧
      Painted o (paint i) fb fb') (fb : Mem) :
    ∃ fb', drawRange body n first fb = .done fb' ∧
      Painted o (paintRange paint n first) fb fb' := by
  induction n generalizing first fb with
  | zero => exact ⟨fb, rfl, Painted.refl o fb⟩
  | succ n ih =>
    obtain ⟨fb1, h1, p1⟩ := h first (Nat.le_refl _) (by omega) fb
    obtain ⟨fb2, h2, p2⟩ := ih (first := first + 1)
      (fun i hi hlt fb => h i (by omega) (by omega) fb) fb1
    refine ⟨fb2, ?_, p1.trans p2⟩
    rw [drawRange, h1]
    exact h2

/-- A loop stops at the first round that reads out of range, with what the rounds before it and
that round drew (60_exceptions.md R204). -/
theorem drawRange_outOfRange {body : Nat → Mem → Drawn} {o : Orient} {paint : Nat → Paint}
    {last : Paint} {n first k : Nat} (hk : k < n)
    (h : ∀ i, first ≤ i → i < first + k → ∀ fb, ∃ fb', body i fb = .done fb' ∧
      Painted o (paint i) fb fb')
    (hlast : ∀ fb, ∃ fb', body (first + k) fb = .outOfRange fb' ∧ Painted o last fb fb')
    (fb : Mem) :
    ∃ fb', drawRange body n first fb = .outOfRange fb' ∧
      Painted o
        (fun x y =>
          match last x y with
          | some level => some level
          | none => paintRange paint k first x y) fb fb' := by
  induction k generalizing n first fb with
  | zero =>
    obtain ⟨n, rfl⟩ : ∃ m, n = m + 1 := ⟨n - 1, by omega⟩
    obtain ⟨fb1, h1, p1⟩ := hlast fb
    refine ⟨fb1, ?_, p1.congr fun x y => ?_⟩
    · rw [Nat.add_zero] at h1; rw [drawRange, h1]
    · cases hl : last x y <;> simp [paintRange]
  | succ k ih =>
    obtain ⟨n, rfl⟩ : ∃ m, n = m + 1 := ⟨n - 1, by omega⟩
    obtain ⟨fb1, h1, p1⟩ := h first (Nat.le_refl _) (by omega) fb
    obtain ⟨fb2, h2, p2⟩ := ih (n := n) (first := first + 1) (by omega)
      (fun i hi hlt fb => h i (by omega) (by omega) fb)
      (fun fb => by simpa [Nat.add_assoc, Nat.add_comm 1 k] using hlast fb) fb1
    refine ⟨fb2, ?_, (p1.trans p2).congr fun x y => ?_⟩
    · rw [drawRange, h1]; exact h2
    · cases hl : last x y with
      | some l => simp
      | none => rfl

/-- The drawing of a loop at a point that only one round can draw. -/
theorem paintRange_of_unique {paint : Nat → Paint} {x y : Int} {k : Nat}
    (h : ∀ i, paint i x y ≠ none → i = k) (n first : Nat) :
    paintRange paint n first x y = if first ≤ k ∧ k < first + n then paint k x y else none := by
  induction n generalizing first with
  | zero => rw [if_neg (by omega)]; rfl
  | succ n ih =>
    simp only [paintRange, ih]
    by_cases hlt : first + 1 ≤ k ∧ k < first + 1 + n
    · rw [if_pos hlt, if_pos (by omega)]
      cases hk : paint k x y with
      | some l => rfl
      | none =>
        by_cases hf : paint first x y = none
        · simp [hf]
        · exact absurd (h first hf) (by omega)
    · rw [if_neg hlt]
      by_cases hf : first = k
      · subst hf; rw [if_pos (by omega)]
      · rw [if_neg (by omega)]
        by_contra hne
        exact hf (h first hne)

/-- A property of the framebuffer that every round keeps is kept by the loop, in both outcomes. -/
theorem drawRange_keeps {body : Nat → Mem → Drawn} {P : Mem → Prop}
    (h : ∀ i fb, P fb → (∀ fb', body i fb = .done fb' → P fb') ∧
      ∀ fb', body i fb = .outOfRange fb' → P fb') (n first : Nat) (fb : Mem) (hp : P fb) :
    (∀ fb', drawRange body n first fb = .done fb' → P fb') ∧
      ∀ fb', drawRange body n first fb = .outOfRange fb' → P fb' := by
  induction n generalizing first fb with
  | zero =>
    refine ⟨fun fb' e => ?_, fun fb' e => ?_⟩
    · injection e with e; exact e ▸ hp
    · cases e
  | succ n ih =>
    rw [drawRange]
    cases hb : body first fb with
    | done fb1 => exact ih (first + 1) fb1 ((h first fb hp).1 fb1 hb)
    | outOfRange fb1 =>
      refine ⟨nofun, fun fb' e => ?_⟩
      injection e with e
      exact e ▸ (h first fb hp).2 fb1 hb

/-- A loop whose every round reads in range ends. -/
theorem drawRange_isDone {body : Nat → Mem → Drawn} {n first : Nat}
    (h : ∀ i, first ≤ i → i < first + n → ∀ fb, ∃ fb', body i fb = .done fb') (fb : Mem) :
    ∃ fb', drawRange body n first fb = .done fb' := by
  induction n generalizing first fb with
  | zero => exact ⟨fb, rfl⟩
  | succ n ih =>
    obtain ⟨fb1, h1⟩ := h first (Nat.le_refl _) (by omega) fb
    obtain ⟨fb2, h2⟩ := ih (first := first + 1) (fun i hi hlt fb => h i (by omega) (by omega) fb) fb1
    exact ⟨fb2, by rw [drawRange, h1]; exact h2⟩

/-! ### Block copies (42_compositor.md) -/

/-- One pixel of a block as a drawing. -/
def pixelPaint (x0 y0 : Int) (i j : Nat) (paint : Paint) : Paint :=
  fun x y => if x = x0 + i ∧ y = y0 + j then paint x y else none

/-- The first `n` pixels of a row of a block. -/
theorem paintRange_row (x0 y0 : Int) (n j : Nat) (paint : Paint) (x y : Int) :
    paintRange (fun i => pixelPaint x0 y0 i j paint) n 0 x y =
      if y = y0 + j ∧ x0 ≤ x ∧ x < x0 + n then paint x y else none := by
  rw [paintRange_of_unique (k := (x - x0).toNat)]
  · dsimp only [pixelPaint]
    by_cases hc : y = y0 + j ∧ x0 ≤ x ∧ x < x0 + n
    · rw [if_pos hc, if_pos (by omega), if_pos (by omega)]
    · rw [if_neg hc]
      split
      · rw [if_neg (by omega)]
      · rfl
  · intro i hi
    dsimp only [pixelPaint] at hi
    split at hi
    · omega
    · exact absurd rfl hi

/-- The first `m` rows of a block. -/
theorem paintRange_rows (x0 y0 : Int) (n m : Nat) (paint : Paint) (x y : Int) :
    paintRange (fun j => paintRange (fun i => pixelPaint x0 y0 i j paint) n 0) m 0 x y =
      if (y0 ≤ y ∧ y < y0 + m) ∧ x0 ≤ x ∧ x < x0 + n then paint x y else none := by
  rw [paintRange_of_unique (k := (y - y0).toNat)]
  · rw [paintRange_row]
    by_cases hc : (y0 ≤ y ∧ y < y0 + m) ∧ x0 ≤ x ∧ x < x0 + n
    · rw [if_pos hc, if_pos (by omega), if_pos (by omega)]
    · rw [if_neg hc]
      split
      · rw [if_neg (by omega)]
      · rfl
  · intro j hj
    rw [paintRange_row] at hj
    split at hj
    · omega
    · exact absurd rfl hj

/-- A block copy draws nothing outside its block (42_compositor.md R150). -/
theorem blockPaint_inside {rdb : Nat → Byte} {x0 y0 vx0 vx1 w h bg fg x y : Int}
    (hn : blockPaint rdb x0 y0 vx0 vx1 w h bg fg x y ≠ none) :
    (x0 ≤ x ∧ x < x0 + w) ∧ y0 ≤ y ∧ y < y0 + h := by
  unfold blockPaint at hn
  split at hn
  · next h => exact ⟨h.1, h.2.1⟩
  · exact absurd rfl hn

/-- One pixel of a block copy whose byte, if it is visible, can be read. -/
theorem blitPixel_painted {rd : Nat → Option Byte} {rdb : Nat → Byte} {o : Orient}
    {x0 y0 vx0 vx1 w h bg fg : Int} {i j : Nat} (hi : (i : Int) < w) (hj : (j : Int) < h)
    (hr : visibleAt x0 vx0 vx1 w h i j →
      rd (j * ((w.toNat + 7) / 8) + i / 8) = some (rdb (j * ((w.toNat + 7) / 8) + i / 8)))
    (fb : Mem) :
    ∃ fb', blitPixel rd o x0 y0 vx0 vx1 (ceilDiv w.toNat 8) bg fg j i fb = .done fb' ∧
      Painted o (pixelPaint x0 y0 i j (blockPaint rdb x0 y0 vx0 vx1 w h bg fg)) fb fb' := by
  have hc : ceilDiv w.toNat 8 = (w.toNat + 7) / 8 := rfl
  unfold blitPixel
  by_cases hv : x0 + i < vx0 ∨ vx1 < x0 + i
  · rw [if_pos hv]
    refine ⟨fb, rfl, (Painted.refl o fb).congr fun x y => ?_⟩
    unfold pixelPaint blockPaint
    split
    · rw [if_neg (by omega)]
    · rfl
  · rw [if_neg hv, hc, hr ⟨hi, hj, by omega, by omega⟩]
    refine ⟨_, rfl, (plotPixel_painted _ _ _ _ _).congr fun x y => ?_⟩
    unfold pixelPaint blockPaint
    split
    · next hxy =>
      rw [if_pos (c := (x0 ≤ x ∧ x < x0 + w) ∧ _) (by omega)]
      have h1 : (x - x0).toNat = i := by omega
      have h2 : (y - y0).toNat = j := by omega
      rw [h1, h2]; rfl
    · rfl

/-- A block copy whose every visible byte can be read draws the block (42_compositor.md R150,
R151). -/
theorem blitCore_painted {rd : Nat → Option Byte} {rdb : Nat → Byte} {x0 vx0 vx1 w h : Int}
    (hr : ∀ i j : Nat, visibleAt x0 vx0 vx1 w h i j →
      rd (j * ((w.toNat + 7) / 8) + i / 8) = some (rdb (j * ((w.toNat + 7) / 8) + i / 8)))
    (o : Orient) (y0 bg fg : Int) (fb : Mem) :
    ∃ fb', blitCore rd o x0 y0 vx0 vx1 w h bg fg fb = .done fb' ∧
      Painted o (blockPaint rdb x0 y0 vx0 vx1 w h bg fg) fb fb' := by
  unfold blitCore
  by_cases hwh : w ≤ 0 ∨ h ≤ 0
  · rw [if_pos hwh]
    refine ⟨fb, rfl, (Painted.refl o fb).congr fun x y => ?_⟩
    by_contra hn
    have := blockPaint_inside (Ne.symm hn)
    omega
  · rw [if_neg hwh]
    obtain ⟨fb', h1, h2⟩ := drawRange_painted (o := o) (n := h.toNat) (first := 0)
      (body := fun j =>
        drawRange (blitPixel rd o x0 y0 vx0 vx1 (ceilDiv w.toNat 8) bg fg j) w.toNat 0)
      (paint := fun j => paintRange
        (fun i => pixelPaint x0 y0 i j (blockPaint rdb x0 y0 vx0 vx1 w h bg fg)) w.toNat 0)
      (fun j _ hj fb => drawRange_painted
        (fun i _ hi fb => blitPixel_painted (by omega) (by omega) (hr i j) fb) fb) fb
    refine ⟨fb', h1, h2.congr fun x y => ?_⟩
    rw [paintRange_rows]
    split
    · rfl
    · next hc =>
      by_contra hn
      have := blockPaint_inside (Ne.symm hn)
      omega

/-- A block copy stops at the first visible byte that cannot be read, row by row, with the pixels
before it drawn (42_compositor.md R150, 60_exceptions.md R204). -/
theorem blitCore_outOfRange {rd : Nat → Option Byte} {rdb : Nat → Byte} {x0 vx0 vx1 w h : Int}
    {i j : Nat} (hv : visibleAt x0 vx0 vx1 w h i j)
    (hn : rd (j * ((w.toNat + 7) / 8) + i / 8) = none)
    (hr : ∀ i' j' : Nat, visibleAt x0 vx0 vx1 w h i' j' → (j' < j ∨ (j' = j ∧ i' < i)) →
      rd (j' * ((w.toNat + 7) / 8) + i' / 8) = some (rdb (j' * ((w.toNat + 7) / 8) + i' / 8)))
    (o : Orient) (y0 bg fg : Int) (fb : Mem) :
    ∃ fb', blitCore rd o x0 y0 vx0 vx1 w h bg fg fb = .outOfRange fb' ∧
      Painted o (paintBefore x0 y0 i j (blockPaint rdb x0 y0 vx0 vx1 w h bg fg)) fb fb' := by
  obtain ⟨h1, h2, h3, h4⟩ := id hv
  unfold blitCore
  rw [if_neg (by omega)]
  obtain ⟨fb', e, p⟩ := drawRange_outOfRange (o := o) (n := h.toNat) (first := 0) (k := j)
      (body := fun j =>
        drawRange (blitPixel rd o x0 y0 vx0 vx1 (ceilDiv w.toNat 8) bg fg j) w.toNat 0)
      (paint := fun j => paintRange
        (fun i => pixelPaint x0 y0 i j (blockPaint rdb x0 y0 vx0 vx1 w h bg fg)) w.toNat 0)
      (last := paintRange
        (fun i => pixelPaint x0 y0 i j (blockPaint rdb x0 y0 vx0 vx1 w h bg fg)) i 0)
      (by omega)
      (fun j' _ hj fb => drawRange_painted
        (fun i' _ hi fb => blitPixel_painted (by omega) (by omega)
          (fun hv => hr i' j' hv (.inl (by omega))) fb) fb)
      (fun fb => by
        obtain ⟨fb2, e2, p2⟩ := drawRange_outOfRange (o := o) (n := w.toNat) (first := 0) (k := i)
          (body := blitPixel rd o x0 y0 vx0 vx1 (ceilDiv w.toNat 8) bg fg j)
          (paint := fun i => pixelPaint x0 y0 i j (blockPaint rdb x0 y0 vx0 vx1 w h bg fg))
          (last := fun _ _ => none) (by omega)
          (fun i' _ hi fb => blitPixel_painted (by omega) (by omega)
            (fun hv => hr i' j hv (.inr ⟨rfl, by omega⟩)) fb)
          (fun fb => ⟨fb, by
            have hc : ceilDiv w.toNat 8 = (w.toNat + 7) / 8 := rfl
            rw [Nat.zero_add, blitPixel, if_neg (by omega), hc, hn], Painted.refl o fb⟩) fb
        exact ⟨fb2, by rw [Nat.zero_add]; exact e2, p2⟩) fb
  refine ⟨fb', e, p.congr fun x y => ?_⟩
  rw [paintRange_row, paintRange_rows]
  unfold paintBefore
  by_cases hin : blockPaint rdb x0 y0 vx0 vx1 w h bg fg x y = none
  · simp [hin]
  · have := blockPaint_inside hin
    by_cases hrow : y = y0 + j ∧ x0 ≤ x ∧ x < x0 + i
    · rw [if_pos hrow, if_pos (c := y < y0 + j ∨ _) (by omega)]
      cases hb : blockPaint rdb x0 y0 vx0 vx1 w h bg fg x y
      · exact absurd hb hin
      · rfl
    · rw [if_neg hrow]
      dsimp only
      by_cases hrows : y < y0 + j
      · rw [if_pos (by omega), if_pos (c := y < y0 + j ∨ _) (by omega)]
      · rw [if_neg (by omega), if_neg (c := y < y0 + j ∨ _) (by omega)]

/-! ### The canonical form and size of `FB` -/

theorem drawLine_fbWf (o : Orient) (x0 y0 x1 y1 c : Int) {fb : Mem} (h : FbWf fb) :
    FbWf (drawLine o x0 y0 x1 y1 c fb) :=
  plotPoints_fbWf o c _ h

theorem drawRect_fbWf (o : Orient) (x1 y1 x2 y2 c : Int) {fb : Mem} (h : FbWf fb) :
    FbWf (drawRect o x1 y1 x2 y2 c fb) := by
  rw [drawRect_eq]; exact plotPoints_fbWf o c _ h

theorem drawColumns_fbWf (o : Orient) (y1 y2 c : Int) (n : Nat) (x : Int) {fb : Mem}
    (h : FbWf fb) : FbWf (drawColumns o y1 y2 c n x fb) := by
  rw [drawColumns_eq]; exact plotPoints_fbWf o c _ h

/-- One pixel of a block copy keeps any property of the framebuffer that plotting keeps. -/
theorem blitPixel_keeps {P : Mem → Prop} (hP : ∀ o x y l fb, P fb → P (plotPixel o x y l fb))
    (rd : Nat → Option Byte) (o : Orient) (x0 y0 vx0 vx1 : Int) (bpr : Nat) (bg fg : Int)
    (j i : Nat) (fb : Mem) (hp : P fb) :
    (∀ fb', blitPixel rd o x0 y0 vx0 vx1 bpr bg fg j i fb = .done fb' → P fb') ∧
      ∀ fb', blitPixel rd o x0 y0 vx0 vx1 bpr bg fg j i fb = .outOfRange fb' → P fb' := by
  unfold blitPixel
  split
  · refine ⟨fun fb' e => ?_, nofun⟩
    injection e with e; exact e ▸ hp
  · split
    · refine ⟨nofun, fun fb' e => ?_⟩
      injection e with e; exact e ▸ hp
    · refine ⟨fun fb' e => ?_, nofun⟩
      injection e with e; exact e ▸ hP _ _ _ _ _ hp

/-- A block copy keeps any property of the framebuffer that plotting keeps, in both outcomes. -/
theorem blitCore_keeps {P : Mem → Prop} (hP : ∀ o x y l fb, P fb → P (plotPixel o x y l fb))
    (rd : Nat → Option Byte) (o : Orient) (x0 y0 vx0 vx1 w h bg fg : Int) (fb : Mem) (hp : P fb) :
    (∀ fb', blitCore rd o x0 y0 vx0 vx1 w h bg fg fb = .done fb' → P fb') ∧
      ∀ fb', blitCore rd o x0 y0 vx0 vx1 w h bg fg fb = .outOfRange fb' → P fb' := by
  unfold blitCore
  split
  · refine ⟨fun fb' e => ?_, nofun⟩
    injection e with e; exact e ▸ hp
  · exact drawRange_keeps (fun j fb hp => drawRange_keeps
      (fun i fb hp => blitPixel_keeps hP rd o x0 y0 vx0 vx1 _ bg fg j i fb hp) _ _ fb hp) _ _ fb hp

/-- One pixel of a frame keeps any property of the framebuffer that plotting keeps. -/
theorem framePixel_keeps {P : Mem → Prop} (hP : ∀ o x y l fb, P fb → P (plotPixel o x y l fb))
    (s : State) (base : Nat) (colour : Int) (j i : Nat) (fb : Mem) (hp : P fb) :
    (∀ fb', framePixel s base colour j i fb = .done fb' → P fb') ∧
      ∀ fb', framePixel s base colour j i fb = .outOfRange fb' → P fb' := by
  simp only [framePixel]
  split
  · refine ⟨fun fb' e => ?_, nofun⟩
    injection e with e; exact e ▸ hp
  · split
    · refine ⟨nofun, fun fb' e => ?_⟩
      injection e with e; exact e ▸ hp
    · refine ⟨fun fb' e => ?_, nofun⟩
      injection e with e; exact e ▸ hP _ _ _ _ _ hp

/-- A frame keeps any property of the framebuffer that plotting keeps, in both outcomes. -/
theorem framePixels_keeps {P : Mem → Prop} (hP : ∀ o x y l fb, P fb → P (plotPixel o x y l fb))
    (s : State) (base : Nat) (colour : Int) (fb : Mem) (hp : P fb) :
    (∀ fb', framePixels s base colour fb = .done fb' → P fb') ∧
      ∀ fb', framePixels s base colour fb = .outOfRange fb' → P fb' := by
  unfold framePixels
  exact drawRange_keeps (fun j fb hp => drawRange_keeps
    (fun i fb hp => framePixel_keeps hP s base colour j i fb hp) _ _ fb hp) _ _ fb hp

end Sys2Proof.Machine
end

