-- ==== Sys2Proof/Laws/Port.lean ====
section
/-! SUPPORT. What a step can do: the words on the port, and one inversion lemma for `step`, which
says every way it goes on. -/

namespace Sys2Proof.Machine

/-! ### The words on the port -/

/-- The inbox is its leading words and what comes after them. -/
theorem leadingWords_append_afterWords (is : List HostInput) :
    (leadingWords is).map .word ++ afterWords is = is := by
  induction is with
  | nil => rfl
  | cons i is ih => cases i <;> simp [leadingWords, afterWords, ih]

/-- What comes after the leading words is no word. -/
theorem afterWords_ne_word (is rest : List HostInput) (w : Word) :
    afterWords is ≠ .word w :: rest := by
  induction is with
  | nil => nofun
  | cons i is ih => cases i <;> simp [afterWords, ih]

@[simp] theorem leadingWords_cons (w : Word) (is : List HostInput) :
    leadingWords (.word w :: is) = w :: leadingWords is := rfl

/-- Words in front of another input are the leading words, and what follows them is that input. -/
theorem leadingWords_map_append (ws : List Word) {is : List HostInput}
    (h : ∀ w rest, is ≠ .word w :: rest) :
    leadingWords (ws.map .word ++ is) = ws ∧ afterWords (ws.map .word ++ is) = is := by
  induction ws with
  | nil =>
    cases is with
    | nil => exact ⟨rfl, rfl⟩
    | cons x is => cases x <;> first | exact ⟨rfl, rfl⟩ | exact absurd rfl (h _ _)
  | cons w ws ih => simp [afterWords, ih]

/-- Dropping all but the last words of the port leaves them in front of the rest of the inbox. -/
theorem drop_words {is : List HostInput} {used rest : List Word}
    (h : leadingWords is = used ++ rest) :
    is.drop ((leadingWords is).length - rest.length) = rest.map .word ++ afterWords is := by
  have hl : (leadingWords is).length - rest.length = used.length := by simp [h]
  rw [hl]
  conv_lhs => rw [← leadingWords_append_afterWords is, h, List.map_append, List.append_assoc]
  rw [List.drop_append_of_le_length (by simp)]
  simp

/-! ### Decoding -/

/-- The opcode's row is found by its `OP` code, and by no other code. -/
theorem Opcode.ofCode_eq_some {c : Nat} {op : Opcode} :
    Opcode.ofCode c = some op ↔ op.code = c := by
  constructor
  · intro h
    simpa using List.find?_some h
  · rintro rfl; cases op <;> rfl

/-- What a legal header says (30_encoding.md R71). -/
theorem headerOpcode_eq_ok {h : Word} {op : Opcode} :
    headerOpcode h = .ok op ↔
      headerReserved h = 0 ∧ op.code = headerOp h ∧ op.operandCount = headerCount h := by
  unfold headerOpcode
  split
  · next hr => simp [hr]
  · next hr =>
    cases ho : Opcode.ofCode (headerOp h) with
    | none =>
      simp only [reduceCtorEq, false_iff, not_and]
      intro _ hc
      rw [Opcode.ofCode_eq_some.mpr hc] at ho
      cases ho
    | some op' =>
      have hop := Opcode.ofCode_eq_some.mp ho
      simp only
      split
      · next hn =>
        constructor
        · intro e; injection e with e; subst e; exact ⟨by simpa using hr, hop, hn.symm⟩
        · rintro ⟨_, hc, _⟩
          rw [Opcode.ofCode_eq_some.mpr hc] at ho
          injection ho with ho
          rw [ho]
      · next hn =>
        simp only [reduceCtorEq, false_iff, not_and]
        intro _ hc
        rw [Opcode.ofCode_eq_some.mpr hc] at ho
        injection ho with ho
        rw [ho]
        exact fun e => hn e.symm

/-- What a decoded command says of the words it was read from (30_encoding.md R75). -/
theorem decode_eq_command {ws rest : List Word} {i : Instr} :
    decode ws = .command i rest ↔
      ∃ (h : Word) (tail : List Word) (op : Opcode), ws = h :: tail ∧ headerOpcode h = .ok op ∧
        buildInstr op (tail.take op.operandCount) = some i ∧
        rest = tail.drop op.operandCount := by
  cases ws with
  | nil => simp [decode]
  | cons h tail =>
    constructor
    · intro e
      simp only [decode] at e
      split at e
      · cases e
      · next op ho =>
        split at e
        · next j hb =>
          injection e with e1 e2
          exact ⟨h, tail, op, rfl, ho, e1 ▸ hb, e2.symm⟩
        · cases e
    · rintro ⟨h', tail', op, heq, ho, hb, rfl⟩
      injection heq with h1 h2
      subst h1 h2
      simp only [decode, ho, hb]

/-- A decoded command leaves a tail of the words it was read from. -/
theorem decode_rest {ws rest : List Word} {i : Instr} (h : decode ws = .command i rest) :
    ∃ used, ws = used ++ rest := by
  obtain ⟨hd, tail, op, rfl, _, _, rfl⟩ := decode_eq_command.mp h
  exact ⟨hd :: tail.take op.operandCount, by simp⟩

/-! ### The step -/

/-- On a run that has not stopped, a command on the port of a block that is not busy executes in
the state whose inbox is past the command's words. -/
theorem step_of_command {s : State} {i : Instr} {ws : List Word} (hf : s.faulted = false)
    (hr : s.refused = false) (hb : s.busy = false)
    (hd : decode (leadingWords s.inbox) = .command i ws) :
    step s = exec i { s with inbox := ws.map .word ++ afterWords s.inbox } := by
  obtain ⟨used, hu⟩ := decode_rest hd
  have hadv : s.advance ((leadingWords s.inbox).length - ws.length) =
      { s with inbox := ws.map .word ++ afterWords s.inbox } := by
    rw [← drop_words hu]; rfl
  have hne : ∃ w rest, s.inbox = .word w :: rest := by
    cases hi : s.inbox with
    | nil => rw [hi] at hd; cases hd
    | cons x xs => cases x <;> first | exact ⟨_, _, rfl⟩ | (rw [hi] at hd; cases hd)
  obtain ⟨w, rest, hi⟩ := hne
  have hfetch : fetch s = .command i (s.advance ((leadingWords s.inbox).length - ws.length)) := by
    simp only [fetch, hf, hr, Bool.false_eq_true, if_false, hi, fetchCommand, hb]
    rw [hi] at hd
    rw [hd]
  unfold step
  rw [hfetch, hadv]

/-- The steps that execute no command, one equation for each input at the head of the inbox. -/
theorem step_of_ackSleep {s : State} {rest : List HostInput} (hf : s.faulted = false)
    (hr : s.refused = false) (hi : s.inbox = .ackSleep :: rest) : step s = takeAck s := by
  simp only [step, fetch, hf, hr, hi, Bool.false_eq_true, if_false]

theorem step_of_readResponse {s : State} {rest : List HostInput} (hf : s.faulted = false)
    (hr : s.refused = false) (hi : s.inbox = .readResponse :: rest) : step s = takeResponse s := by
  simp only [step, fetch, hf, hr, hi, Bool.false_eq_true, if_false]

theorem step_of_writeSrc {s : State} {a : Nat} {v : Byte} {rest : List HostInput}
    (hf : s.faulted = false) (hr : s.refused = false) (hi : s.inbox = .writeSrc a v :: rest) :
    step s = takeSrcWrite a v s := by
  simp only [step, fetch, hf, hr, hi, Bool.false_eq_true, if_false]

theorem step_of_reset {s : State} {rest : List HostInput} (hf : s.faulted = false)
    (hr : s.refused = false) (hi : s.inbox = .reset :: rest) :
    step s = .next (resetInput (s.advance 1)) := by
  simp only [step, fetch, hf, hr, hi, Bool.false_eq_true, if_false]

theorem step_of_busy {s : State} {w : Word} {rest : List HostInput} (hf : s.faulted = false)
    (hr : s.refused = false) (hi : s.inbox = .word w :: rest) (hb : s.busy = true) :
    step s = refuse .concurrentCommand s := by
  simp only [step, fetch, hf, hr, hi, Bool.false_eq_true, if_false, fetchCommand, hb, if_true]

theorem step_of_illegal {s : State} {w : Word} {rest : List HostInput} {why : IllegalHeader}
    (hf : s.faulted = false) (hr : s.refused = false) (hi : s.inbox = .word w :: rest)
    (hb : s.busy = false) (hd : decode (leadingWords s.inbox) = .illegal why) :
    step s = refuse (.illegalCommand why) s := by
  rw [hi] at hd
  simp only [step, fetch, hf, hr, hi, Bool.false_eq_true, if_false, fetchCommand, hb, hd]

theorem step_of_incomplete {s : State} {w : Word} {rest : List HostInput}
    (hf : s.faulted = false) (hr : s.refused = false) (hi : s.inbox = .word w :: rest)
    (hb : s.busy = false) (hd : decode (leadingWords s.inbox) = .incomplete) :
    step s = awaitWords s := by
  rw [hi] at hd
  simp only [step, fetch, hf, hr, hi, Bool.false_eq_true, if_false, fetchCommand, hb, hd]

/-- What waiting for the rest of a command's words leaves. -/
theorem awaitWords_next {s t : State} (h : awaitWords s = .next t) :
    t = s ∨ ∃ rest, t = resetInput { s with inbox := rest } := by
  unfold awaitWords at h
  split at h
  · injection h with h; exact .inl h.symm
  · injection h with h; exact .inr ⟨_, h.symm⟩
  · injection h with h; exact .inl h.symm
  all_goals simp at h

/-- Every way a step goes on: it idles or waits, it executes the command on the port, it resumes a
sleeping `MSTEP`, the host takes the response, the host writes `SRC`, or the reset input acts. -/
theorem step_next_cases {s t : State} (h : step s = .next t) :
    s.faulted = false ∧ s.refused = false ∧
    (t = s ∨
      (∃ i ws, s.sleeping = none ∧ s.response = none ∧
        decode (leadingWords s.inbox) = .command i ws ∧
        exec i { s with inbox := ws.map .word ++ afterWords s.inbox } = .next t) ∨
      (∃ now rest, s.sleeping = some now ∧ s.inbox = .ackSleep :: rest ∧
        resumePace now { s with inbox := rest } = .next t) ∨
      (∃ w rest, s.response = some w ∧ s.inbox = .readResponse :: rest ∧
        t = { s with inbox := rest, response := none }) ∨
      (∃ a v rest, s.sleeping = none ∧ a < s.params.srcSize ∧ s.inbox = .writeSrc a v :: rest ∧
        t = { s with inbox := rest, src := Mem.write s.src a v }) ∨
      ∃ rest, t = resetInput { s with inbox := rest }) := by
  by_cases hf : s.faulted = true
  · simp [step, fetch, hf] at h
  by_cases hr : s.refused = true
  · simp [step, fetch, hf, hr] at h
  simp only [Bool.not_eq_true] at hf hr
  refine ⟨hf, hr, ?_⟩
  cases hi : s.inbox with
  | nil =>
    simp only [step, fetch, hf, hr, hi, Bool.false_eq_true, if_false] at h
    injection h with h
    exact .inl h.symm
  | cons x rest =>
    have hadv : s.advance 1 = { s with inbox := rest } := by simp [State.advance, hi]
    cases x with
    | word w =>
      by_cases hb : s.busy = true
      · rw [step_of_busy hf hr hi hb] at h; simp at h
      simp only [Bool.not_eq_true] at hb
      have hidle : s.sleeping = none ∧ s.response = none := by simpa [State.busy] using hb
      rw [← hi]
      cases hd : decode (leadingWords s.inbox) with
      | command i ws =>
        rw [step_of_command hf hr hb hd] at h
        exact .inr (.inl ⟨i, ws, hidle.1, hidle.2, rfl, h⟩)
      | illegal why => rw [step_of_illegal hf hr hi hb hd] at h; simp at h
      | incomplete =>
        rw [step_of_incomplete hf hr hi hb hd] at h
        rcases awaitWords_next h with h | h
        · exact .inl h
        · exact .inr (.inr (.inr (.inr (.inr h))))
    | ackSleep =>
      rw [step_of_ackSleep hf hr hi, takeAck, hadv] at h
      split at h
      · next now hs => exact .inr (.inr (.inl ⟨now, rest, hs, rfl, h⟩))
      · simp at h
    | readResponse =>
      rw [step_of_readResponse hf hr hi, takeResponse, hadv] at h
      split at h
      · next w hs =>
        injection h with h
        exact .inr (.inr (.inr (.inl ⟨w, rest, hs, rfl, h.symm⟩)))
      · simp at h
    | writeSrc a v =>
      rw [step_of_writeSrc hf hr hi, takeSrcWrite, hadv] at h
      split at h
      · simp at h
      · next hs =>
        split at h
        · next ha =>
          injection h with h
          exact .inr (.inr (.inr (.inr (.inl ⟨a, v, rest, by simpa using hs, ha, rfl, h.symm⟩))))
        · simp at h
    | reset =>
      rw [step_of_reset hf hr hi, hadv] at h
      injection h with h
      exact .inr (.inr (.inr (.inr (.inr ⟨rest, h.symm⟩))))

end Sys2Proof.Machine
end

