-- ==== Sys2Proof/Laws/Encoding.lean ====
section
/-! SUPPORT. Operand words and headers: what the decoder and the encoder make of them. -/

namespace Sys2Proof.Machine

/-- An s32 value written as a word reads back (30_encoding.md R72). -/
theorem s32_wordOfInt {v : Int} (h : isS32 v = true) : s32 (wordOfInt v) = v := by
  simp only [isS32, Bool.and_eq_true, decide_eq_true_eq] at h
  simp only [s32, wordOfInt, BitVec.toInt_ofInt, Int.bmod]
  omega

/-- A u32 value written as a word reads back (30_encoding.md R72). -/
theorem u32_wordOfInt {n : Nat} (h : isU32 n = true) : u32 (wordOfInt n) = n := by
  simp only [isU32, decide_eq_true_eq] at h
  simp only [u32, wordOfInt, BitVec.ofInt_natCast, BitVec.toNat_ofNat]
  omega

/-- A word is the word of the s32 value it reads as. -/
theorem wordOfInt_s32 (w : Word) : wordOfInt (s32 w) = w := BitVec.ofInt_toInt

/-- A word is the word of the u32 value it reads as. -/
theorem wordOfInt_u32 (w : Word) : wordOfInt (u32 w : Int) = w := by
  simp [wordOfInt, u32]

/-- What an operand word reads as is an s32 value (00_scope.md R9). -/
theorem isS32_s32 (w : Word) : isS32 (s32 w) = true := by
  have h1 := BitVec.le_toInt w
  have h2 := BitVec.toInt_lt (x := w)
  simp only [isS32, Bool.and_eq_true, decide_eq_true_eq]
  unfold s32
  omega

/-- What an operand word reads as is a u32 value (00_scope.md R9). -/
theorem isU32_u32 (w : Word) : isU32 (u32 w) = true := by
  have h := w.isLt
  simp only [isU32, decide_eq_true_eq]
  exact h

/-- The legal header of an opcode says that opcode (30_encoding.md R71). -/
theorem headerOpcode_header (op : Opcode) : headerOpcode op.header = .ok op := by
  cases op <;> decide

/-- A legal header is `(N << 8) | OP` and nothing else (30_encoding.md R71). -/
theorem eq_header_of_headerOpcode {h : Word} {op : Opcode} (e : headerOpcode h = .ok op) :
    h = op.header := by
  obtain ⟨hr, hc, hn⟩ := headerOpcode_eq_ok.mp e
  apply BitVec.eq_of_toNat_eq
  have hlt := h.isLt
  rw [headerReserved, BitVec.extractLsb'_toNat, Nat.shiftRight_eq_div_pow] at hr
  rw [headerOp, BitVec.extractLsb'_toNat, Nat.shiftRight_eq_div_pow] at hc
  rw [headerCount, BitVec.extractLsb'_toNat, Nat.shiftRight_eq_div_pow] at hn
  rw [Opcode.header, BitVec.toNat_ofNat]
  omega

/-- The operand words of a command have the opcode's count, its operands are in range, and its
words are those operands written out (30_encoding.md R72, R74). -/
theorem buildInstr_eq_some {op : Opcode} {ws : List Word} {i : Instr}
    (h : buildInstr op ws = some i) :
    i.opcode = op ∧ i.wf = true ∧ ws = i.operands.map wordOfInt ∧
      ws.length = op.operandCount := by
  rcases ws with _ | ⟨a, _ | ⟨b, _ | ⟨c, _ | ⟨d, _ | ⟨e, _ | ⟨f, _ | ⟨g, _ | ⟨j, _ | ⟨k, _ | ⟨l, ws⟩⟩⟩⟩⟩⟩⟩⟩⟩⟩ <;>
    cases op <;> cases h <;>
      simp [Instr.opcode, Instr.wf, Instr.operands, isS32_s32, isU32_u32, wordOfInt_s32,
        wordOfInt_u32, Opcode.operandCount, Opcode.operandTypes]

/-- A legal header with fewer operand words than it announces is no command yet
(30_encoding.md R75). -/
theorem decode_header_short {op : Opcode} {ws : List Word} (h : ws.length < op.operandCount) :
    decode (op.header :: ws) = .incomplete := by
  have hb : buildInstr op (ws.take op.operandCount) = none := by
    rw [List.take_of_length_le (by omega)]
    cases hb : buildInstr op ws with
    | none => rfl
    | some i =>
      have := (buildInstr_eq_some hb).2.2.2
      omega
  simp only [decode, headerOpcode_header, hb]

/-- The operand words of a well-formed command are read back as its operands
(30_encoding.md R72, R74). -/
theorem buildInstr_operands {i : Instr} (h : i.wf = true) :
    buildInstr i.opcode (i.operands.map wordOfInt) = some i := by
  cases i <;>
    simp only [Instr.wf, Bool.and_eq_true] at h <;>
    refine congrArg some ?_ <;>
    simp [s32_wordOfInt, u32_wordOfInt, h]

end Sys2Proof.Machine
end

