-- ==== Sys2Proof/Laws/Lines.lean ====
section
/-! SUPPORT. Which points the lines of rectangles and chords have: a horizontal or vertical line
plots exactly the points between its ends. -/

namespace Sys2Proof.Machine

/-- A horizontal run of the line loop, `k` columns from its end. -/
theorem mem_lineLoop_horizontal {x1 y dx sx sy : Int} (hd : 0 < dx) (hs : sx = 1 ∨ sx = -1)
    (k n : Nat) (x : Int) (hx : x1 = x + sx * k) (hn : k < n) (p : Int × Int) :
    p ∈ lineLoop x1 y dx 0 sx sy n dx x y ↔
      p.2 = y ∧ ∃ j : Nat, j ≤ k ∧ p.1 = x + sx * j := by
  induction k generalizing n x with
  | zero =>
    obtain ⟨m, rfl⟩ : ∃ m, n = m + 1 := ⟨n - 1, by omega⟩
    rw [lineLoop, if_pos ⟨by omega, rfl⟩, List.mem_singleton, Prod.ext_iff]
    constructor
    · rintro ⟨h1, h2⟩; exact ⟨h2, 0, Nat.le_refl _, by simpa using h1⟩
    · rintro ⟨h2, j, hj, h1⟩
      obtain rfl : j = 0 := by omega
      exact ⟨by simpa using h1, h2⟩
  | succ k ih =>
    obtain ⟨m, rfl⟩ : ∃ m, n = m + 1 := ⟨n - 1, by omega⟩
    have hne : ¬(x = x1 ∧ y = y) := by
      rintro ⟨h, -⟩
      rcases hs with rfl | rfl <;> push_cast at hx <;> omega
    have hX : decide (-(0 : Int) < 2 * dx) = true := by simp; omega
    have hY : decide (2 * dx < dx) = false := by simp; omega
    rw [lineLoop, if_neg hne]
    simp only [hX, hY, if_true, Bool.false_eq_true, if_false, Int.sub_zero, Int.add_zero]
    rw [List.mem_cons, ih m (x + sx) (by rw [hx]; push_cast; ring) (by omega), Prod.ext_iff]
    constructor
    · rintro (⟨h1, h2⟩ | ⟨h2, j, hj, h1⟩)
      · exact ⟨h2, 0, by omega, by simpa using h1⟩
      · exact ⟨h2, j + 1, by omega, by rw [h1]; push_cast; ring⟩
    · rintro ⟨h2, j, hj, h1⟩
      cases j with
      | zero => exact .inl ⟨by simpa using h1, h2⟩
      | succ j => exact .inr ⟨h2, j, by omega, by rw [h1]; push_cast; ring⟩

/-- A vertical run of the line loop, `k` rows from its end. -/
theorem mem_lineLoop_vertical {x y1 dy sx sy : Int} (hd : 0 < dy) (hs : sy = 1 ∨ sy = -1)
    (k n : Nat) (y : Int) (hy : y1 = y + sy * k) (hn : k < n) (p : Int × Int) :
    p ∈ lineLoop x y1 0 dy sx sy n (-dy) x y ↔
      p.1 = x ∧ ∃ j : Nat, j ≤ k ∧ p.2 = y + sy * j := by
  induction k generalizing n y with
  | zero =>
    obtain ⟨m, rfl⟩ : ∃ m, n = m + 1 := ⟨n - 1, by omega⟩
    rw [lineLoop, if_pos ⟨rfl, by omega⟩, List.mem_singleton, Prod.ext_iff]
    constructor
    · rintro ⟨h1, h2⟩; exact ⟨h1, 0, Nat.le_refl _, by simpa using h2⟩
    · rintro ⟨h1, j, hj, h2⟩
      obtain rfl : j = 0 := by omega
      exact ⟨h1, by simpa using h2⟩
  | succ k ih =>
    obtain ⟨m, rfl⟩ : ∃ m, n = m + 1 := ⟨n - 1, by omega⟩
    have hne : ¬(x = x ∧ y = y1) := by
      rintro ⟨-, h⟩
      rcases hs with rfl | rfl <;> push_cast at hy <;> omega
    have hX : decide (-dy < 2 * -dy) = false := by simp; omega
    have hY : decide (2 * -dy < 0) = true := by simp; omega
    rw [lineLoop, if_neg hne]
    simp only [hX, hY, if_true, Bool.false_eq_true, if_false, Int.sub_zero, Int.add_zero]
    rw [List.mem_cons, ih m (y + sy) (by rw [hy]; push_cast; ring) (by omega), Prod.ext_iff]
    constructor
    · rintro (⟨h1, h2⟩ | ⟨h1, j, hj, h2⟩)
      · exact ⟨h1, 0, by omega, by simpa using h2⟩
      · exact ⟨h1, j + 1, by omega, by rw [h2]; push_cast; ring⟩
    · rintro ⟨h1, j, hj, h2⟩
      cases j with
      | zero => exact .inl ⟨h1, by simpa using h2⟩
      | succ j => exact .inr ⟨h1, j, by omega, by rw [h2]; push_cast; ring⟩

/-- A line from a point to itself is that point (41_rasterizer.md R120). -/
theorem linePoints_self (x y : Int) : linePoints x y x y = [(x, y)] := by
  simp [linePoints, lineLoop]

/-- A horizontal line plots exactly the points between its ends (41_rasterizer.md R120). -/
theorem mem_linePoints_horizontal (x0 x1 y : Int) (p : Int × Int) :
    p ∈ linePoints x0 y x1 y ↔ p.2 = y ∧ min x0 x1 ≤ p.1 ∧ p.1 ≤ max x0 x1 := by
  by_cases h : x0 = x1
  · subst h
    rw [linePoints_self, List.mem_singleton, Prod.ext_iff]
    constructor
    · rintro ⟨h1, h2⟩; exact ⟨h2, by omega, by omega⟩
    · rintro ⟨h2, h1, h3⟩; exact ⟨by omega, h2⟩
  · have hdx : (0 : Int) < ((x1 - x0).natAbs : Int) := by omega
    have e : linePoints x0 y x1 y =
        lineLoop x1 y (x1 - x0).natAbs 0 (lineSign x0 x1) (lineSign y y)
          ((x1 - x0).natAbs + 1) (x1 - x0).natAbs x0 y := by
      simp only [linePoints, Int.sub_self, Int.natAbs_zero, Int.natCast_zero, Int.sub_zero]
      congr 2
      omega
    have hs : lineSign x0 x1 = 1 ∨ lineSign x0 x1 = -1 := by unfold lineSign; split <;> simp
    rw [e, mem_lineLoop_horizontal hdx hs (x1 - x0).natAbs _ x0 ?_ (by omega)]
    · refine and_congr_right fun _ => ?_
      unfold lineSign
      constructor
      · rintro ⟨j, hj, h1⟩
        split at h1 <;> omega
      · intro h1
        refine ⟨(p.1 - x0).natAbs, by omega, ?_⟩
        split <;> omega
    · unfold lineSign; split <;> omega

/-- A vertical line plots exactly the points between its ends (41_rasterizer.md R120). -/
theorem mem_linePoints_vertical (x y0 y1 : Int) (p : Int × Int) :
    p ∈ linePoints x y0 x y1 ↔ p.1 = x ∧ min y0 y1 ≤ p.2 ∧ p.2 ≤ max y0 y1 := by
  by_cases h : y0 = y1
  · subst h
    rw [linePoints_self, List.mem_singleton, Prod.ext_iff]
    constructor
    · rintro ⟨h1, h2⟩; exact ⟨h1, by omega, by omega⟩
    · rintro ⟨h1, h2, h3⟩; exact ⟨h1, by omega⟩
  · have hdy : (0 : Int) < ((y1 - y0).natAbs : Int) := by omega
    have e : linePoints x y0 x y1 =
        lineLoop x y1 0 (y1 - y0).natAbs (lineSign x x) (lineSign y0 y1)
          ((y1 - y0).natAbs + 1) (-((y1 - y0).natAbs : Int)) x y0 := by
      simp only [linePoints, Int.sub_self, Int.natAbs_zero, Int.natCast_zero, Int.zero_sub]
      congr 2
    have hs : lineSign y0 y1 = 1 ∨ lineSign y0 y1 = -1 := by unfold lineSign; split <;> simp
    rw [e, mem_lineLoop_vertical hdy hs (y1 - y0).natAbs _ y0 ?_ (by omega)]
    · refine and_congr_right fun _ => ?_
      unfold lineSign
      constructor
      · rintro ⟨j, hj, h1⟩
        split at h1 <;> omega
      · intro h1
        refine ⟨(p.2 - y0).natAbs, by omega, ?_⟩
        split <;> omega
    · unfold lineSign; split <;> omega

/-- A chord plots exactly the points of its row within its half width (41_rasterizer.md R127,
R130). -/
theorem mem_chord {cx y half : Int} (h : 0 ≤ half) (p : Int × Int) :
    p ∈ chord cx y half ↔ p.2 = y ∧ cx - half ≤ p.1 ∧ p.1 ≤ cx + half := by
  rw [chord, mem_linePoints_horizontal]
  refine and_congr_right fun _ => ?_
  omega

end Sys2Proof.Machine
end

