-- ==== Sys2Proof/Laws/Movie.lean ====
section
/-! SUPPORT. What the movie player's shared operations do on a loaded movie: where a frame lies,
what a field of it reads as, and what drawing it leaves. -/

namespace Sys2Proof.Machine

/-! ### The header of a file (43_movie_player.md R171, 20_memory.md R55) -/

/-- Two joined bit vectors as a number. -/
theorem toNat_append_eq {m n : Nat} (a : BitVec m) (b : BitVec n) :
    (a ++ b).toNat = a.toNat * 2 ^ n + b.toNat := by
  rw [BitVec.toNat_append, ← Nat.shiftLeft_add_eq_or_of_lt b.isLt, Nat.shiftLeft_eq]

/-- A header field is the u32 in the file, in the host's byte order. -/
theorem headerField_toNat (s : State) (src k : Nat) :
    (headerField s src k).toNat = u32At s.params.hostEndian s.src (src + 4 * k) := by
  unfold headerField u32At
  cases s.params.hostEndian <;> simp only [joinBytes, toNat_append_eq, Nat.add_zero] <;> omega

/-- A u32 in a store is below `2^32`. -/
theorem u32At_lt (e : Endian) (m : Mem) (a : Nat) : u32At e m a < 2 ^ 32 := by
  have h0 := (Mem.read m a).isLt
  have h1 := (Mem.read m (a + 1)).isLt
  have h2 := (Mem.read m (a + 2)).isLt
  have h3 := (Mem.read m (a + 3)).isLt
  cases e <;> simp only [u32At, Nat.add_zero] <;> omega

/-- A header field as a word. -/
theorem headerField_eq (s : State) (src k : Nat) :
    headerField s src k =
      BitVec.ofNat 32 (u32At s.params.hostEndian s.src (src + 4 * k)) := by
  rw [← headerField_toNat, BitVec.ofNat_toNat, BitVec.setWidth_eq]

/-! ### Frames (43_movie_player.md) -/

/-- What the bits per pixel of an accepted header make of `q = 8 div HDR_BPP`
(43_movie_player.md R172). -/
theorem framePpb_eq {b : Word} (hb : b = 1#32 ∨ b = 2#32) :
    framePpb b.toNat = 8 / b.toNat ∧ 0 < 8 / b.toNat := by
  rcases hb with rfl | rfl <;> decide

/-- The frame size of an accepted header (43_movie_player.md R172). -/
theorem frameSize_eq {h : Header} (hb : h.bpp = 1#32 ∨ h.bpp = 2#32) (p : Params) :
    h.frameSize p = recordBytes p.scanOrient h.lcdW.toNat h.lcdH.toNat h.bpp.toNat := by
  obtain ⟨hq, h0⟩ := framePpb_eq hb
  have hc : ∀ n, ceilDiv n (framePpb h.bpp.toNat) =
      (n + 8 / h.bpp.toNat - 1) / (8 / h.bpp.toNat) := by
    intro n
    rw [hq, ceilDiv, divN, if_neg (by omega)]
  unfold Header.frameSize frameSizeOf
  cases p.scanOrient <;> simp only [hc, recordBytes]

/-- The index of a column's byte is below the bytes of a row. -/
theorem div_lt_ceilDiv {i w q : Nat} (hq : 0 < q) (hi : i < w) : i / q < (w + q - 1) / q := by
  rw [Nat.div_lt_iff_lt_mul hq]
  have h1 := Nat.div_add_mod (w + q - 1) q
  have h2 := Nat.mod_lt (w + q - 1) hq
  rw [Nat.mul_comm] at h1
  omega

/-- Every byte of a frame of a loaded movie lies in `MOV_BUF` (20_memory.md R54). -/
theorem frameByteOffset_lt {s : State} (hm : MovieLoaded s) {n i j : Nat}
    (hn : n < s.hdr.frameCount.toNat) (hi : i < s.hdr.lcdW.toNat) (hj : j < s.hdr.lcdH.toNat) :
    frameByteOffset s.params.scanOrient s.hdr (frameBase s n) i j < s.movLen := by
  obtain ⟨hq, h0⟩ := framePpb_eq hm.bpp
  have hfs : s.frameSize = _ := hm.frameSize.trans (frameSize_eq hm.bpp s.params)
  have hrec : n * s.frameSize + s.frameSize ≤ s.hdr.frameCount.toNat * s.frameSize := by
    rw [← Nat.succ_mul]; exact Nat.mul_le_mul_right _ hn
  rw [hm.movLen]
  unfold frameByteOffset frameBase
  cases hso : s.params.scanOrient <;> rw [hso] at hfs <;>
    dsimp only [recordBytes] at hfs ⊢
  · rw [hq, ceilDiv, divN, if_neg (by omega), divN, if_neg (by omega)]
    have h1 := div_lt_ceilDiv h0 hi
    generalize (s.hdr.lcdW.toNat + 8 / s.hdr.bpp.toNat - 1) / (8 / s.hdr.bpp.toNat) = c at *
    have h2 : j * c + c ≤ s.hdr.lcdH.toNat * c := by
      rw [← Nat.succ_mul]; exact Nat.mul_le_mul_right _ hj
    rw [Nat.mul_comm s.hdr.lcdH.toNat, ← hfs] at h2
    omega
  · rw [hq, divN, if_neg (by omega)]
    have h1 := div_lt_ceilDiv h0 hj
    generalize (s.hdr.lcdH.toNat + 8 / s.hdr.bpp.toNat - 1) / (8 / s.hdr.bpp.toNat) = c at *
    have h2 : j / (8 / s.hdr.bpp.toNat) * s.hdr.lcdW.toNat + s.hdr.lcdW.toNat ≤
        c * s.hdr.lcdW.toNat := by
      rw [← Nat.succ_mul]; exact Nat.mul_le_mul_right _ h1
    rw [← hfs] at h2
    omega

/-- `FrameField` where its byte lies in `MOV_BUF` (43_movie_player.md R178, R179). -/
theorem frameField_eq {s : State} {base i j : Nat} (hb : s.hdr.bpp = 1#32 ∨ s.hdr.bpp = 2#32)
    (h : frameByteOffset s.params.scanOrient s.hdr base i j < s.movLen) :
    frameField s base i j =
      some (recordField s.params.scanOrient s.hdr s.movBuf base i j) := by
  obtain ⟨hq, h0⟩ := framePpb_eq hb
  have hfield : ∀ (b : Byte) (k : Nat), fieldOfByte s.hdr.bpp.toNat b k =
      b.toNat / 2 ^ ((8 / s.hdr.bpp.toNat - 1 - k) * s.hdr.bpp.toNat) % 2 ^ s.hdr.bpp.toNat := by
    intro b k
    rw [fieldOfByte, hq, Nat.shiftRight_eq_div_pow, Nat.and_two_pow_sub_one_eq_mod]
  have hd : ∀ k, divN k (framePpb s.hdr.bpp.toNat) = k / (8 / s.hdr.bpp.toNat) := by
    intro k; rw [hq, divN, if_neg (by omega)]
  have hmod : ∀ k, modN k (framePpb s.hdr.bpp.toNat) = k % (8 / s.hdr.bpp.toNat) := by
    intro k; rw [hq, modN, if_neg (by omega)]
  have hc : ∀ k, ceilDiv k (framePpb s.hdr.bpp.toNat) =
      (k + 8 / s.hdr.bpp.toNat - 1) / (8 / s.hdr.bpp.toNat) := by
    intro k; rw [ceilDiv, hd, hq]
  have hr : movRead s (frameByteOffset s.params.scanOrient s.hdr base i j) =
      some (s.movBuf.getD (frameByteOffset s.params.scanOrient s.hdr base i j) 0#8) := by
    rw [movRead, List.getElem?_eq_getElem h, List.getD_eq_getElem _ _ h]
  rw [frameField, hr, Option.map_some, hfield]
  unfold frameByteOffset frameFieldIndex recordField
  cases s.params.scanOrient <;> simp only [hd, hmod, hc]

/-- Drawing a frame of a loaded movie draws exactly its pixels (43_movie_player.md R181). -/
theorem framePixels_painted {s : State} (hm : MovieLoaded s) {n : Nat}
    (hn : n < s.hdr.frameCount.toNat) (colour : Int) (fb : Mem) :
    ∃ fb', framePixels s (frameBase s n) colour fb = .done fb' ∧
      Painted s.orient (moviePaint s n colour) fb fb' := by
  obtain ⟨fb', h1, h2⟩ := drawRange_painted (o := s.orient) (n := s.hdr.lcdH.toNat) (first := 0)
    (body := fun j => drawRange (framePixel s (frameBase s n) colour j) s.hdr.lcdW.toNat 0)
    (paint := fun j => paintRange (fun i => pixelPaint (frameOrigin s.params s.hdr).1
      (frameOrigin s.params s.hdr).2 i j (fun x y =>
        if 0 ≤ x ∧ x < 192 then moviePaint s n colour x y else none)) s.hdr.lcdW.toNat 0)
    (fun j _ hj fb => drawRange_painted (fun i _ hi fb => by
      simp only [framePixel]
      split
      · next hx =>
        refine ⟨fb, rfl, (Painted.refl _ fb).congr fun x y => ?_⟩
        unfold pixelPaint
        split
        · dsimp only
          rw [if_neg]
          simp only [Config.screenW] at hx
          omega
        · rfl
      · next hx =>
        rw [frameField_eq hm.bpp (frameByteOffset_lt hm hn (by omega) (by omega))]
        refine ⟨_, rfl, (plotPixel_painted _ _ _ _ _).congr fun x y => ?_⟩
        unfold pixelPaint
        split
        · next hxy =>
          simp only [Config.screenW] at hx
          dsimp only
          rw [if_pos (c := 0 ≤ x ∧ x < 192) (by omega)]
          unfold moviePaint
          dsimp only
          rw [if_pos (c := (_ ∧ _) ∧ _) (by omega)]
          have e1 : (x - (frameOrigin s.params s.hdr).1).toNat = i := by omega
          have e2 : (y - (frameOrigin s.params s.hdr).2).toNat = j := by omega
          rw [e1, e2]
          unfold frameLevel frameBase
          rfl
        · rfl) fb) fb
  refine ⟨fb', h1, ?_⟩
  have hcongr := h2.congr fun x y => paintRange_rows _ _ _ _ _ x y
  have hin : ∀ x y, moviePaint s n colour x y ≠ none →
      ((frameOrigin s.params s.hdr).2 ≤ y ∧
        y < (frameOrigin s.params s.hdr).2 + s.hdr.lcdH.toNat) ∧
      (frameOrigin s.params s.hdr).1 ≤ x ∧
        x < (frameOrigin s.params s.hdr).1 + s.hdr.lcdW.toNat := by
    intro x y hne
    unfold moviePaint at hne
    dsimp only at hne
    split at hne
    · next h => exact ⟨h.2, h.1⟩
    · exact absurd rfl hne
  constructor
  · intro x y hs
    rw [hcongr.pixels x y hs]
    have hx := onScreen_iff.mp ((onScreen_mirror _ _ _).mp hs)
    by_cases hne : moviePaint s n colour x y = none
    · simp only [hne, ite_self]
    · rw [if_pos (hin x y hne), if_pos ⟨hx.1, hx.2.1⟩]
  · intro a ha
    refine hcongr.bytes a fun x y hp hs => ha x y (fun hne => hp ?_) hs
    simp only [hne, ite_self]

end Sys2Proof.Machine
end

