-- ==== Sys2Proof/Laws/PerInstr.lean ====
section
/-! SUPPORT. Per-command facts about the syntax, one lemma for each constructor of `Instr`: the
header word each command encodes to, as R74 of 30_encoding.md lists it, and how many operand words
follow. -/

namespace Sys2Proof.Laws.HeaderWord

/-- The `header word` column of 30_encoding.md R74. -/
def tableHeader : Opcode → Word
  | .setpt => 0x00000301#32
  | .getpt => 0x00000202#32
  | .clear => 0x00000103#32
  | .setori => 0x00000104#32
  | .flush => 0x00000005#32
  | .line => 0x00000510#32
  | .lineto => 0x00000311#32
  | .rect => 0x00000512#32
  | .circle => 0x00000413#32
  | .ellipse => 0x00000514#32
  | .rectf => 0x00000592#32
  | .circlef => 0x00000493#32
  | .ellipsef => 0x00000594#32
  | .blit => 0x00000920#32
  | .mload => 0x00000230#32
  | .mrewind => 0x00000031#32
  | .mstep => 0x00000132#32
  | .mteardown => 0x00000033#32

/-- A command encodes to the header word of its row and as many operand words as the header
announces (30_encoding.md R70, R74). -/
def Statement (i : Instr) : Prop :=
  (encode i).head? = some (tableHeader i.opcode) ∧
    (encode i).length = 1 + headerCount (tableHeader i.opcode)

theorem header_eq_table (op : Opcode) : op.header = tableHeader op := by cases op <;> decide

theorem headerCount_table (op : Opcode) : headerCount (tableHeader op) = op.operandCount := by
  cases op <;> decide

/-- A command with as many operands as its row announces meets the statement. -/
theorem of_operandCount {i : Instr} (h : i.operands.length = i.opcode.operandCount) :
    Statement i := by
  refine ⟨?_, ?_⟩
  · rw [encode, List.head?_cons, header_eq_table]
  · rw [encode, List.length_cons, List.length_map, h, headerCount_table, Nat.add_comm]

theorem setpt (a b c : Int) : Statement (.setpt a b c) :=
  of_operandCount rfl

theorem getpt (a b : Int) : Statement (.getpt a b) :=
  of_operandCount rfl

theorem clear (a : Int) : Statement (.clear a) :=
  of_operandCount rfl

theorem setori (a : Int) : Statement (.setori a) :=
  of_operandCount rfl

theorem flush : Statement .flush :=
  of_operandCount rfl

theorem line (a b c d e : Int) : Statement (.line a b c d e) :=
  of_operandCount rfl

theorem lineto (a b c : Int) : Statement (.lineto a b c) :=
  of_operandCount rfl

theorem rect (a b c d e : Int) : Statement (.rect a b c d e) :=
  of_operandCount rfl

theorem circle (a b c d : Int) : Statement (.circle a b c d) :=
  of_operandCount rfl

theorem ellipse (a b c d e : Int) : Statement (.ellipse a b c d e) :=
  of_operandCount rfl

theorem rectf (a b c d e : Int) : Statement (.rectf a b c d e) :=
  of_operandCount rfl

theorem circlef (a b c d : Int) : Statement (.circlef a b c d) :=
  of_operandCount rfl

theorem ellipsef (a b c d e : Int) : Statement (.ellipsef a b c d e) :=
  of_operandCount rfl

theorem blit (a : Nat) (b c d e f g h k : Int) : Statement (.blit a b c d e f g h k) :=
  of_operandCount rfl

theorem mload (a b : Nat) : Statement (.mload a b) :=
  of_operandCount rfl

theorem mrewind : Statement .mrewind :=
  of_operandCount rfl

theorem mstep (a : Int) : Statement (.mstep a) :=
  of_operandCount rfl

theorem mteardown : Statement .mteardown :=
  of_operandCount rfl

end Sys2Proof.Laws.HeaderWord
end

