-- ==== Sys2Proof/Tests/Slice0.lean ====
section
/-! SUPPORT. Tests of the model and witnesses for the hypotheses of its statements. Expected values
are those of 95_test_vectors.md (the section or vector is named) or are worked out by hand from the
rule named; a witness shows states and operands that meet every hypothesis of the statement it is
named after. -/

namespace Sys2Proof.Tests

open Sys2Proof.Machine

/-! ### Small states -/

/-- Reset with the OPEN parameters fixed. -/
def idle : State :=
  { State.reset with
    params :=
      { hostEndian := .little, scanOrient := .horizontal, centerBy := .video
        paceStamp := .atFlush, rectInvertedIsError := false
        paceMarginMs := 7, srcSize := 0x400, movieMaxBytes := 4096 } }

/-- `idle` where inverted corners are an error. -/
def strict : State := { idle with params := { idle.params with rectInvertedIsError := true } }

/-- `idle` with the pacing stamp taken after the sleep. -/
def afterSleep : State := { idle with params := { idle.params with paceStamp := .afterSleep } }

/-- The bitmap of 95_test_vectors.md section 2.4 in `SRC`. -/
def bitmap : State := { idle with src := [(0x100, 0xA5#8), (0x101, 0x80#8), (0x102, 0xFF#8)] }

/-- The 40-byte movie of program P3 in `SRC`. -/
def file : State :=
  { idle with
    src :=
      [(0x200, 0x46#8), (0x201, 0x49#8), (0x202, 0x56#8), (0x203, 0x4C#8), (0x204, 4#8),
        (0x208, 4#8), (0x20C, 4#8), (0x210, 4#8)] ++
      [(0x214, 0x19#8), (0x218, 2#8), (0x21C, 2#8), (0x220, 0x55#8), (0x221, 0x55#8),
        (0x222, 0x55#8), (0x223, 0x55#8), (0x224, 0x1B#8), (0x225, 0xE4#8), (0x226, 0xFF#8)] }

/-- The header of that movie. -/
def header : Header where
  magic := 0x4C564946#32
  videoW := 4#32
  videoH := 4#32
  lcdW := 4#32
  lcdH := 4#32
  fps := 25#32
  frameCount := 2#32
  bpp := 2#32

/-- That movie loaded: `START`, and the clock's next sample fixed at 1000. -/
def loaded : State :=
  { idle with
    loaded := true, pstate := .start, hdr := header, frameSize := 4
    movBuf := List.replicate 32 0#8 ++ List.replicate 4 0x55#8 ++ [0x1B#8, 0xE4#8, 0xFF#8, 0#8]
    clockIn := [1000] }

/-- That movie in `RUNNING` at frame 0. -/
def running : State := { loaded with pstate := .running }

/-- A 1-bit movie of 8 x 2 frames in `RUNNING`, frame 1 being `A0 01` (V-F2). -/
def running1 : State :=
  { running with
    hdr := { header with
      videoW := 8#32, videoH := 2#32, lcdW := 8#32, lcdH := 2#32, bpp := 1#32 }
    frameSize := 2
    movBuf := List.replicate 34 0#8 ++ [0xA0#8, 0x01#8] }

/-- A frame shown at 1000 ms, the next sample coming after `d` ms. -/
def paced (d : Nat) : State :=
  { running with hasPrev := true, tPrev := 1000, clockLast := 1000, clockIn := [d] }

/-- An `MSTEP` that waits in its `SLEEP` after the sample 1010. -/
def sleeper : State := { paced 10 with clockLast := 1010, clockIn := [], sleeping := some 1010 }

/-- A command's words on the port of a ready block. -/
def onPort (s : State) (ws : List Word) : State := s.withPort ws

/-- What a step that goes on leaves, seen through `f`. -/
def seen {α : Type} (f : State → α) : Host.Outcome State Fault Refusal → Option α
  | .next t => some (f t)
  | .fault _ => none
  | .refused _ => none

/-- The fault a step ends in, if it does. -/
def faultOf : Host.Outcome State Fault Refusal → Option Fault
  | .next _ => none
  | .fault f => some f
  | .refused _ => none

/-- The refusal a step ends in, if it does. -/
def refusalOf : Host.Outcome State Fault Refusal → Option Refusal
  | .next _ => none
  | .fault _ => none
  | .refused r => some r

/-! ### WellFormed: an ill-formed term for each check (30_encoding.md R72) -/

theorem test_wf_s32_range : isS32 (-2147483648) = true ∧ isS32 2147483647 = true ∧
    isS32 (-2147483649) = false ∧ isS32 2147483648 = false := by decide

theorem test_wf_u32_range : isU32 4294967295 = true ∧ isU32 4294967296 = false := by decide

theorem test_wf_pixelStore : (Instr.setpt (-1) 2147483648 0).wf = false ∧
    (Instr.getpt (-2147483649) 0).wf = false ∧ (Instr.clear 2147483648).wf = false ∧
    (Instr.setori (-2147483649)).wf = false := by decide

theorem test_wf_lines : (Instr.line 0 0 0 0 2147483648).wf = false ∧
    (Instr.lineto 0 2147483648 0).wf = false ∧ (Instr.rect 2147483648 0 0 0 0).wf = false ∧
    (Instr.rectf 0 0 0 (-2147483649) 0).wf = false := by decide

theorem test_wf_curves : (Instr.circle 0 0 2147483648 0).wf = false ∧
    (Instr.circlef 0 2147483648 0 0).wf = false ∧ (Instr.ellipse 0 0 0 2147483648 0).wf = false ∧
    (Instr.ellipsef 0 0 (-2147483649) 0 0).wf = false := by decide

theorem test_wf_copies : (Instr.blit 4294967296 0 0 0 0 0 0 0 0).wf = false ∧
    (Instr.blit 0 0 0 0 0 0 0 0 2147483648).wf = false ∧
    (Instr.mload 4294967296 0).wf = false ∧ (Instr.mload 0 4294967296).wf = false ∧
    (Instr.mstep 2147483648).wf = false := by decide

/-! ### Decoding: words written out from the encoding of 30_encoding.md R70 to R74 -/

theorem test_decode_setpt :
    decode [0b00000000000000000000001100000001#32, 0xFFFFFFFF#32, 0#32, 3#32] =
      .command (.setpt (-1) 0 3) [] := by decide

theorem test_decode_getpt :
    decode [0b00000000000000000000001000000010#32, 0xBF#32, 0#32] = .command (.getpt 191 0) [] := by
  decide

theorem test_decode_clear :
    decode [0b00000000000000000000000100000011#32, 0x80000000#32] =
      .command (.clear (-2147483648)) [] := by decide

theorem test_decode_setori :
    decode [0b00000000000000000000000100000100#32, 1#32] = .command (.setori 1) [] := by decide

theorem test_decode_flush :
    decode [0b00000000000000000000000000000101#32, 5#32] = .command .flush [5#32] := by decide

theorem test_decode_line :
    decode [0b00000000000000000000010100010000#32, 3#32, 0x5A#32, 0x96#32, 2#32, 1#32] =
      .command (.line 3 90 150 2 1) [] := by decide

theorem test_decode_lineto :
    decode [0b00000000000000000000001100010001#32, 0xE#32, 0xC#32, 2#32] =
      .command (.lineto 14 12 2) [] := by decide

theorem test_decode_rect :
    decode [0b00000000000000000000010100010010#32, 0x14#32, 5#32, 0x17#32, 7#32, 1#32] =
      .command (.rect 20 5 23 7 1) [] := by decide

theorem test_decode_circle :
    decode [0b00000000000000000000010000010011#32, 0x28#32, 0x14#32, 3#32, 2#32] =
      .command (.circle 40 20 3 2) [] := by decide

theorem test_decode_ellipse :
    decode [0b00000000000000000000010100010100#32, 1#32, 2#32, 3#32, 4#32, 5#32] =
      .command (.ellipse 1 2 3 4 5) [] := by decide

theorem test_decode_rectf :
    decode [0b00000000000000000000010110010010#32, 1#32, 2#32, 3#32, 4#32, 5#32] =
      .command (.rectf 1 2 3 4 5) [] := by decide

theorem test_decode_circlef :
    decode [0b00000000000000000000010010010011#32, 1#32, 2#32, 3#32, 4#32] =
      .command (.circlef 1 2 3 4) [] := by decide

theorem test_decode_ellipsef :
    decode [0b00000000000000000000010110010100#32, 1#32, 2#32, 3#32, 4#32, 5#32] =
      .command (.ellipsef 1 2 3 4 5) [] := by decide

theorem test_decode_blit :
    decode [0b00000000000000000000100100100000#32, 0xFFFFFFFF#32, 1#32, 2#32, 3#32, 4#32, 5#32,
      6#32, 7#32, 0xFFFFFFFE#32] = .command (.blit 4294967295 1 2 3 4 5 6 7 (-2)) [] := by decide

theorem test_decode_mload :
    decode [0b00000000000000000000001000110000#32, 0x200#32, 0xFFFFFFFF#32] =
      .command (.mload 512 4294967295) [] := by decide

theorem test_decode_mrewind :
    decode [0b00000000000000000000000000110001#32] = .command .mrewind [] := by decide

theorem test_decode_mstep :
    decode [0b00000000000000000000000100110010#32, 3#32] = .command (.mstep 3) [] := by decide

theorem test_decode_mteardown :
    decode [0b00000000000000000000000000110011#32] = .command .mteardown [] := by decide

/-- Section 2.1: the illegal headers. -/
theorem test_decode_illegal :
    decode [0x201#32, 0#32, 0#32] = .illegal .operandCount ∧
      decode [0x00010005#32] = .illegal .reservedBits ∧
      decode [6#32] = .illegal .unknownOpcode ∧ decode [0#32] = .illegal .unknownOpcode := by
  decide

/-- A command whose words have not all come is not decoded (R75). -/
theorem test_decode_incomplete :
    decode [0x301#32, 1#32, 2#32] = .incomplete ∧ decode [] = .incomplete := by decide

/-- R78: case, hexadecimal, a sign, a comment. -/
theorem test_assemble_line :
    (assembleLine "  setpt -1, 0x0, 3 ; note".toList).toOption =
      some [0x301#32, 0xFFFFFFFF#32, 0#32, 3#32] := by decide

theorem test_assemble_errors :
    (assembleLine "SETPT 1, 2".toList).toOption = none ∧
      (assembleLine "CLEAR 2147483648".toList).toOption = none ∧
      (assembleLine "MLOAD -1, 0".toList).toOption = none ∧
      (assembleLine "HALT".toList).toOption = none := by decide

/-! ### PixelStore (95_test_vectors.md section 2.2, V-S2, V-S8) -/

theorem test_setpt_field :
    seen (fun t => (t.fb, t.curX, t.curY, t.res)) (exec (.setpt 7 9 3) idle) =
      some ([(2 * 192 + 7, 0x30#8)], 7, 9, 0#32) := by decide

/-- Mirrored in both axes; the level masked; off screen nothing but the cursor. -/
theorem test_setpt_corners :
    seen (fun t => t.fb) (exec (.setpt 0 0 (-1)) { idle with orient := ⟨true, true⟩ }) =
        some [(23 * 192 + 191, 0x03#8)] ∧
      seen (fun t => (t.fb, t.curX)) (exec (.setpt (-1) 0 3) { idle with orient := ⟨true, false⟩ }) =
        some ([], -1) := by decide

theorem test_getpt_value :
    seen (fun t => t.res) (exec (.getpt 5 7) { idle with fb := [(197, 0x4E#8)] }) = some 2#32 ∧
      seen (fun t => t.res) (exec (.getpt 5 6) { idle with fb := [(197, 0x4E#8)] }) =
        some 3#32 := by decide

theorem test_getpt_offScreen :
    seen (fun t => t.res) (exec (.getpt 192 0) idle) = some 0xFFFFFFFF#32 ∧
      seen (fun t => t.res) (exec (.getpt 0 (-1)) idle) = some 0xFFFFFFFF#32 := by decide

theorem test_clear_byteFill :
    seen (fun t => (t.fb.length, Mem.read t.fb 4607, Mem.read t.fb 4608)) (exec (.clear 4) idle) =
      some (4608, 0xFF#8, 0x00#8) := by decide +kernel

theorem test_clear_zero :
    seen (fun t => t.fb) (exec (.clear 0) { idle with fb := [(0, 0xC0#8)] }) = some [] := by
  decide

theorem test_setori_modes :
    seen (fun t => t.orient) (exec (.setori 1) idle) = some ⟨true, false⟩ ∧
      seen (fun t => t.orient) (exec (.setori 2) idle) = some ⟨false, true⟩ := by decide

theorem test_setori_error :
    seen (fun t => (t.orient, t.res)) (exec (.setori 4) { idle with orient := ⟨true, true⟩ }) =
      some (⟨true, true⟩, 0xFFFFFFFF#32) := by decide

theorem test_flush_event :
    seen (fun t => t.events) (exec .flush { idle with fb := [(191, 0xC0#8)] }) =
      some [.flush [(191, 0xC0#8)]] := by decide

/-! ### Rasterizer (section 2.3) -/

/-- V-L1 and V-L7. -/
theorem test_line_points :
    linePoints 0 0 5 2 = [(0, 0), (1, 0), (2, 1), (3, 1), (4, 2), (5, 2)] ∧
      linePoints 4 5 0 4 = [(4, 5), (3, 5), (2, 5), (1, 4), (0, 4)] := by decide

/-- V-L11. -/
theorem test_line_offScreen :
    seen (fun t => (t.fb, t.curX, t.curY, t.res)) (exec (.line (-5) (-5) (-1) (-9) 2) idle) =
      some ([], -1, -9, 0#32) := by decide

/-- From the cursor (10, 10), the points of V-L5. -/
theorem test_lineto_fromCursor :
    seen (fun t => (t.fb, t.curX, t.curY)) (exec (.lineto 14 12 2) { idle with curX := 10, curY := 10 }) =
      some ([(394, 0x08#8), (395, 0x08#8), (396, 0x02#8), (397, 0x02#8), (590, 0x80#8)], 14, 12) := by
  decide

theorem test_rect_inverted :
    seen (fun t => (t.fb, t.curX, t.curY, t.res)) (exec (.rect 4 3 1 1 3) idle) =
      some ([(1, 0x3F#8), (2, 0x33#8), (3, 0x33#8), (4, 0x3F#8)], 4, 3, 0#32) := by decide +kernel

theorem test_rect_strict :
    seen (fun t => (t.fb, t.curX, t.res)) (exec (.rect 4 3 1 1 3) strict) =
      some ([], 0, 0xFFFFFFFF#32) := by decide

theorem test_rectf_inverted :
    seen (fun t => (t.fb, t.curX, t.curY)) (exec (.rectf 4 3 1 1 2) idle) =
      some ([(1, 0x2A#8), (2, 0x2A#8), (3, 0x2A#8), (4, 0x2A#8)], 4, 1) := by decide

theorem test_circle_steps :
    circleSteps 5 = [(0, 5), (1, 5), (2, 5), (3, 4)] ∧
      circleSteps 4 = [(0, 4), (1, 4), (2, 3), (3, 3)] ∧ circleSteps (-1) = [] := by decide

/-- The clipped circle: only (0,2), (1,2), (2,0), (2,1). -/
theorem test_circle_clipped :
    seen (fun t => (t.fb, t.curX)) (exec (.circle 0 0 2 3) { idle with curX := 9 }) =
      some ([(0, 0x0C#8), (1, 0x0C#8), (2, 0xF0#8)], 9) := by decide

/-- Radius 1 about (1, 1): 5 pixels. -/
theorem test_circlef_small :
    seen (fun t => t.fb) (exec (.circlef 1 1 1 1) idle) =
      some [(0, 0x10#8), (1, 0x54#8), (2, 0x10#8)] := by decide

theorem test_ellipse_steps :
    ellipseSteps 3 2 = [(0, 2), (1, 2), (2, 1), (3, 0)] ∧
      ellipseSteps 5 3 = [(0, 3), (1, 3), (2, 3), (3, 2), (4, 2), (5, 1), (5, 0)] ∧
      ellipseSteps 2 0 = [(0, 0)] := by decide

/-- Radii 0 and 2: the column of the minor axis. -/
theorem test_ellipse_column :
    seen (fun t => t.fb) (exec (.ellipse 0 2 0 2 1) idle) =
      some [(0, 0x55#8), (192, 0x40#8)] := by decide

/-- Radii 1 and 1 about (1, 1): rows ±1 one pixel, row 0 three. -/
theorem test_ellipsef_small :
    seen (fun t => t.fb) (exec (.ellipsef 1 1 1 1 1) idle) =
      some [(0, 0x10#8), (1, 0x54#8), (2, 0x10#8)] := by decide

/-! ### Compositor (section 2.4) -/

/-- V-B2. -/
theorem test_blit_window :
    seen (fun t => (t.fb, t.res)) (exec (.blit 0x100 10 4 12 15 9 2 1 3) bitmap) =
      some ([(204, 0xF0#8), (205, 0x70#8), (206, 0x70#8), (207, 0xF0#8)], 0#32) := by decide

/-- V-B11 cut to one column and its row 2: the faulting read leaves the rows before it drawn. -/
theorem test_blit_fault :
    faultOf (exec (.blit 0x100 10 4 10 10 9 3 1 3)
        { bitmap with params := { bitmap.params with srcSize := 0x104 } }) =
      some (.srcOutOfRange { bitmap with
        params := { bitmap.params with srcSize := 0x104 }
        fb := [(202, 0xF0#8)]
        faulted := true }) := by decide

/-! ### Movie player (section 2.5, program P3) -/

theorem test_mload_accepts :
    seen (fun t => (t.loaded, t.pstate, t.hdr, t.frameSize, t.res)) (exec (.mload 0x200 40) file) =
      some (true, .start, header, 4, 0#32) := by decide

/-- One byte short releases the movie; a range past `SRC` faults before that. -/
theorem test_mload_rejects :
    seen (fun t => (t.loaded, t.movBuf, t.res)) (exec (.mload 0x200 39) { file with loaded := true }) =
        some (false, [], 0xFFFFFFFF#32) ∧
      faultOf (exec (.mload 0x3FF 40) running) =
        some (.srcOutOfRange { running with faulted := true }) := by decide

theorem test_mrewind :
    seen (fun t => (t.pstate, t.frameIdx, t.res)) (exec .mrewind { running with frameIdx := 1 }) =
        some (.start, 1, 0#32) ∧
      seen (fun t => t.res) (exec .mrewind idle) = some 0xFFFFFFFF#32 := by decide

/-- V-F1: frame 1 of the movie of P3 is drawn, flushed and paced without a sleep. -/
theorem test_mstep_frame :
    seen (fun t => (t.fb, t.frameIdx, t.tPrev, t.hasPrev, t.res)) (exec (.mstep 3) running) =
      some ([(11 * 192 + 93, 0x0F#8), (11 * 192 + 94, 0x1B#8), (11 * 192 + 95, 0x27#8),
        (11 * 192 + 96, 0x33#8)], 1, 1000, true, 2#32) := by decide +kernel

/-- V-F2: a 1-bit frame. -/
theorem test_mstep_frame1 :
    seen (fun t => t.fb) (exec (.mstep 2) running1) =
      some [(11 * 192 + 91, 0x08#8), (11 * 192 + 93, 0x08#8), (11 * 192 + 98, 0x02#8)] := by
  decide +kernel

/-- The pacing table: a fast frame sleeps `30 + M`, an exact one does not. -/
theorem test_pace_table :
    seen (fun t => (t.events, t.sleeping)) (pace (paced 10)) =
        some ([.sleep 37], some 1010) ∧
      seen (fun t => (t.events, t.tPrev)) (pace (paced 40)) = some ([], 1040) ∧
      seen (fun t => t.events) (pace (paced 39)) = some [.sleep 8] := by decide

theorem test_mteardown :
    seen (fun t => (t.fb, t.loaded, t.pstate, t.events, t.res))
        (exec .mteardown { running with fb := [(5, 1#8)] }) =
      some ([], false, .stopped, [.flush []], 0#32) := by decide

/-- R179: a frame scanned vertically; V-F3. -/
theorem test_mstep_vertical :
    seen (fun t => t.fb)
        (exec (.mstep 3) { running with
          params := { running.params with scanOrient := .vertical }
          hdr := { header with videoW := 2#32, lcdW := 2#32 }
          frameSize := 2
          movBuf := List.replicate 34 0#8 ++ [0x1B#8, 0xE4#8] }) =
      some [(11 * 192 + 94, 0x06#8), (11 * 192 + 95, 0x39#8), (12 * 192 + 94, 0xC0#8)] := by
  decide

/-! ### The port -/

/-- 2.6: `SETPT 1, 1, 1` and then the word `00000007`: the command runs, the word is refused. -/
theorem test_step_command :
    seen (fun t => (t.inbox, t.response))
        (step { idle with inbox := [.word 0x301#32, .word 1#32, .word 1#32, .word 1#32,
          .readResponse, .word 7#32] }) =
      some ([.readResponse, .word 7#32], some 0#32) := by decide

theorem test_step_illegal :
    refusalOf (step (onPort idle [7#32])) =
      some (.illegalCommand .unknownOpcode { onPort idle [7#32] with refused := true }) := by
  decide

/-- The opcode table's word for `FLUSH` runs as the first command after reset. -/
theorem test_withFetchWord :
    seen (fun t => t.events) (step (State.reset.withFetchWord 32 5)) = some [.flush []] ∧
      decodeTableWord 32 5 = some .flush := by decide

/-! ### Witnesses: states and operands that meet the hypotheses of the statements -/

theorem idle_inv : Inv idle :=
  ⟨rfl, rfl, rfl, rfl, by decide, rfl, rfl, by decide, fun _ => ⟨rfl, rfl, rfl, rfl, rfl, rfl⟩,
    nofun, fun _ => rfl, Nat.le_refl _, nofun, nofun⟩

theorem header_movie : MovieLoaded running :=
  ⟨rfl, .inr rfl, by decide, by decide, by decide, by decide, by decide, by decide⟩

theorem loaded_inv : Inv loaded :=
  ⟨rfl, rfl, rfl, rfl, by decide, rfl, rfl, by decide, nofun,
    fun _ => ⟨rfl, .inr rfl, by decide, by decide, by decide, by decide, by decide, by decide⟩,
    fun _ => rfl, Nat.le_refl _, nofun, nofun⟩

theorem running_inv : Inv running :=
  ⟨rfl, rfl, rfl, rfl, by decide, rfl, rfl, by decide, nofun, fun _ => header_movie,
    fun _ => rfl, Nat.le_refl _, nofun, nofun⟩

theorem sleeper_inv : Inv sleeper :=
  ⟨rfl, rfl, rfl, rfl, by decide, rfl, rfl, by decide, nofun,
    fun _ => ⟨rfl, .inr rfl, by decide, by decide, by decide, by decide, by decide, by decide⟩,
    nofun, by decide, nofun,
    fun now h => ⟨by injection h with h; subst h; decide, rfl, rfl, rfl, rfl⟩⟩

theorem idle_ready (is : List HostInput) : Ready { idle with inbox := is } := ⟨rfl, rfl, rfl, rfl⟩

theorem witness_decodeOfEncode :
    (Instr.blit 4294967295 (-2147483648) 0 0 0 0 0 0 2147483647).wf = true := by decide

theorem witness_decodeOnlyEncodings :
    decode [0x104#32, 0xFFFFFFFF#32, 7#32] = .command (.setori (-1)) [7#32] := by decide

/-- The three grounds of R76, and a run already refused. -/
theorem witness_illegalHeaderRefused :
    Ready { idle with inbox := [.word 0x00010005#32] } ∧ headerReserved 0x00010005#32 ≠ 0 ∧
      (∀ op : Opcode, op.code ≠ headerOp 6#32) ∧
      (∃ op : Opcode, op.code = headerOp 0x201#32 ∧ op.operandCount ≠ headerCount 0x201#32) ∧
      { idle with refused := true }.refused = true :=
  ⟨idle_ready _, by decide, fun op => by cases op <;> decide, ⟨.setpt, by decide, by decide⟩, rfl⟩

theorem witness_stepRunsDecodedCommand :
    Ready { idle with inbox := [.word 5#32, .word 7#32, .readResponse] } ∧
      decode (leadingWords [.word 5#32, .word 7#32, .readResponse]) = .command .flush [7#32] :=
  ⟨idle_ready _, by decide⟩

/-- Both readings of a line: a command, and none. -/
theorem witness_assembledLineIsCommand :
    (assembleLine ['f', 'l', 'u', 's', 'h']).toOption = some [5#32] ∧
      (assembleLine [';']).toOption = some [] := by decide

/-- An on-screen point at the corner, its neighbour in the same byte, and an off-screen point. -/
theorem witness_pixelRoundTrip :
    ∃ t u v, exec (.setpt 191 95 3) idle = .next t ∧
      onScreen (mirror idle.orient 191 95) = true ∧ ((191, 94) : Int × Int) ≠ (191, 95) ∧
      exec (.setpt 191 94 1) t = .next u ∧ exec (.setpt 192 95 3) idle = .next v ∧
      onScreen (mirror idle.orient 192 95) = false :=
  ⟨_, _, _, rfl, by decide, by decide, rfl, rfl, by decide⟩

/-- V-S4, for each of the three modes. -/
theorem witness_orientationProperty :
    ∀ mode : Int, mode = 1 ∨ mode = 2 ∨ mode = 3 → ∃ a b c d e,
      exec (.setori mode) idle = .next a ∧ exec (.setpt 10 20 3) a = .next b ∧
      exec (.setori 0) b = .next c ∧ exec (.setori 0) idle = .next d ∧
      exec (.setpt (if mode = 2 then 10 else 191 - 10) (if mode = 1 then 20 else 95 - 20) 3) d =
        .next e ∧ onScreen (10, 20) = true := by
  rintro mode (rfl | rfl | rfl) <;> exact ⟨_, _, _, _, _, rfl, rfl, rfl, rfl, rfl, by decide⟩

theorem witness_getptResult :
    onScreen (mirror ⟨true, true⟩ 191 0) = true ∧ onScreen (mirror ⟨true, true⟩ 192 0) = false ∧
      onScreen (mirror ⟨true, true⟩ (-1) 0) = false := by decide

theorem witness_setptResult : onScreen (mirror idle.orient 0 96) = false := by decide

theorem witness_clearResult : Mem.below idle.fb 4608 = true := by decide

/-- V-S5. -/
theorem witness_lineEndpointsDrawn :
    ∃ t, onScreen (mirror idle.orient 3 90) = true ∧ onScreen (mirror idle.orient 150 2) = true ∧
      exec (.line 3 90 150 2 1) idle = .next t :=
  ⟨_, by decide, by decide, rfl⟩

theorem witness_rectResult :
    (strict.params.rectInvertedIsError = true ∧ ((3 : Int) < 4 ∨ (1 : Int) < 1)) ∧
      ¬(idle.params.rectInvertedIsError = true ∧ ((3 : Int) < 4 ∨ (1 : Int) < 1)) := by decide

theorem witness_rectfResult :
    (strict.params.rectInvertedIsError = true ∧ ((4 : Int) < 4 ∨ (1 : Int) < 3)) ∧
      ¬(strict.params.rectInvertedIsError = true ∧ ((4 : Int) < 4 ∨ (3 : Int) < 3)) := by decide

/-- The radii of each clause of CircleStepsOctant, CircleResult, CirclefResult,
EllipseStepsQuadrant, EllipseResult and EllipsefResult, at a boundary value. -/
theorem witness_curveRadii :
    (0 : Int) = 0 ∧ (-1 : Int) < 0 ∧ (0 : Int) < 1 ∧ circleSteps 0 = [(0, 0)] ∧
      circleSteps (-1) = [] ∧ ellipseSteps 0 1 = [(0, 1), (0, 0)] ∧ ellipseSteps 1 0 = [(0, 0)] ∧
      ellipseSteps (-1) 0 = [] ∧ ellipseSteps 0 (-1) = [] ∧ ellipseSteps 0 0 = [(0, 0)] := by
  decide

/-- A bitmap wholly inside `SRC`, at the last byte. -/
theorem witness_blitDraws :
    (0x3FF : Nat) ≠ 0 ∧ (0 : Int) ≤ 191 ∧ ∀ i j : Nat, visibleAt 10 0 191 8 1 i j →
      0x3FF + (j * (((8 : Int).toNat + 7) / 8) + i / 8) < idle.params.srcSize := by
  refine ⟨by decide, by decide, ?_⟩
  rintro i j ⟨hi, hj, -, -⟩
  show _ < 0x400
  simp only [Int.reduceToNat]
  omega

theorem witness_blitArgumentErrors : (0 : Nat) = 0 ∧ (19 : Int) < 20 := by decide

/-- V-B11: the first byte of row 2 lies at `SRC_SIZE`. -/
theorem witness_blitFaults :
    visibleAt 10 0 191 9 3 0 2 ∧ 0x104 ≤ 0x100 + (2 * (((9 : Int).toNat + 7) / 8) + 0 / 8) ∧
      ∀ i j : Nat, visibleAt 10 0 191 9 3 i j → (j < 2 ∨ (j = 2 ∧ i < 0)) →
        0x100 + (j * (((9 : Int).toNat + 7) / 8) + i / 8) < 0x104 := by
  refine ⟨⟨by decide, by decide, by decide, by decide⟩, by decide, ?_⟩
  rintro i j ⟨hi, hj, -, -⟩ h
  simp only [Int.reduceToNat]
  omega

/-- The three clauses: past `SRC` by one byte, the file of P3, and that file one byte short. -/
theorem witness_mloadResult :
    (0x3FF ≠ 0 ∧ file.params.srcSize < 0x3FF + 2) ∧
      ¬(0x200 ≠ 0 ∧ file.params.srcSize < 0x200 + 40) ∧
      u32At .little file.src 0x200 = 0x4C564946 ∧ u32At .little file.src 0x21C = 2 ∧
      u32At .little file.src 0x20C = 4 ∧ u32At .little file.src 0x210 = 4 ∧
      u32At .little file.src 0x214 = 25 ∧ u32At .little file.src 0x218 = 2 ∧
      40 ≤ file.params.movieMaxBytes ∧ 40 = 32 + 2 * recordBytes .horizontal 4 4 2 ∧
      39 ≠ 32 + 2 * recordBytes .horizontal 4 4 2 := by
  decide

theorem witness_mstepWithoutFrame :
    idle.loaded = false ∧ { loaded with pstate := .stopped }.pstate = .stopped ∧
      loaded.loaded = true ∧ loaded.pstate = .start ∧ running.pstate = .running ∧
      running.hdr.frameCount.toNat ≤ { running with frameIdx := 1 }.frameIdx + 1 := by decide

theorem witness_mstepDrawsFrame :
    Inv running ∧ running.loaded = true ∧ running.pstate = .running ∧
      running.frameIdx + 1 < running.hdr.frameCount.toNat :=
  ⟨running_inv, rfl, rfl, by decide⟩

theorem witness_frameDrawIsBlit :
    running1.hdr.bpp = 1#32 ∧ running1.params.scanOrient = .horizontal := by decide

/-- The rows of the pacing table: one ms early, exactly on time, the first frame; and a frame rate
above 1000. -/
theorem witness_paceDecidesSleep :
    1 ≤ (paced 39).hdr.fps.toNat ∧ (paced 39).hasPrev = true ∧
      ((1039 : Nat) : Int) - (paced 39).tPrev < (1000 / (paced 39).hdr.fps.toNat : Nat) ∧
      ((1000 / (paced 40).hdr.fps.toNat : Nat) : Int) ≤ ((1040 : Nat) : Int) - (paced 40).tPrev ∧
      running.hasPrev = false ∧ (paced 39).tPrev ≤ (paced 39).clockLast ∧
      1000 < { header with fps := 1001#32 }.fps.toNat := by decide

/-- Both stamps. -/
theorem witness_sleepAcknowledged :
    (∃ s : State, s.faulted = false ∧ s.refused = false ∧ s.sleeping = some 1010 ∧
      s.inbox = .ackSleep :: [] ∧ s.params.paceStamp = .atFlush) ∧
    ∃ s : State, s.faulted = false ∧ s.refused = false ∧ s.sleeping = some 1010 ∧
      s.inbox = .ackSleep :: [.readResponse] ∧ s.params.paceStamp = .afterSleep :=
  ⟨⟨{ sleeper with inbox := [.ackSleep] }, rfl, rfl, rfl, rfl, rfl⟩,
    ⟨{ sleeper with params := afterSleep.params, inbox := [.ackSleep, .readResponse] },
      rfl, rfl, rfl, rfl, rfl⟩⟩

/-- Both stamps, with `T = 10` and a margin of 7. -/
theorem witness_pacingOutcome :
    (∃ s : State, s.hasPrev = true ∧ 1 ≤ s.hdr.fps.toNat ∧ 10 < 1000 / s.hdr.fps.toNat ∧
      s.params.paceStamp = .atFlush) ∧
    ∃ s : State, s.hasPrev = true ∧ 1 ≤ s.hdr.fps.toNat ∧ 10 < 1000 / s.hdr.fps.toNat ∧
      s.params.paceStamp = .afterSleep ∧ s.clockLast = s.tPrev + 10 ∧
      s.clockIn = (1000 / s.hdr.fps.toNat - 10 + s.params.paceMarginMs) :: [] :=
  ⟨⟨paced 10, by decide⟩,
    ⟨{ paced 10 with clockLast := 1010, clockIn := [37], params := afterSleep.params },
      by decide⟩⟩

theorem witness_playbackStepCount :
    Inv loaded ∧ loaded.loaded = true ∧ loaded.pstate = .start ∧
      2 ≤ loaded.hdr.frameCount.toNat ∧ loaded.hdr.frameCount.toNat < 3 :=
  ⟨loaded_inv, rfl, rfl, by decide, by decide⟩

theorem witness_mstepIgnoresSrc :
    ∃ t, exec (.mstep 3) loaded = .next t := ⟨_, rfl⟩

/-- Steps of each kind from states with the invariant. -/
theorem witness_stepKeepsInv :
    (∃ t, Inv idle ∧ step idle = .next t) ∧
      ∃ t, Inv sleeper ∧ step { sleeper with inbox := [.ackSleep] } = .next t :=
  ⟨⟨_, idle_inv, rfl⟩, ⟨_, sleeper_inv, rfl⟩⟩

theorem witness_storesStayCanonical :
    ∃ t, Mem.wf bitmap.fb = true ∧ Mem.wf bitmap.src = true ∧
      step { bitmap with inbox := [.writeSrc 0x103 7#8] } = .next t :=
  ⟨_, by decide, by decide, rfl⟩

theorem witness_movieReadNeverFaults : Inv running := running_inv

/-- A fault of each command that can fault: the movie's buffer cut short breaks the invariant. -/
theorem witness_commandsFaultOnlyOnReads :
    (∃ f, exec (.mload 1 0x400) idle = .fault f) ∧
      (∃ f, exec (.blit 0x400 0 0 0 0 1 1 0 0) idle = .fault f) ∧
      ∃ f, exec (.mstep 3) { running with movBuf := [] } = .fault f :=
  ⟨⟨_, rfl⟩, ⟨_, rfl⟩, ⟨_, rfl⟩⟩

/-- Commands that complete, for the statements about what a command writes: CursorWriters,
CommandsLeaveHostState, FramebufferAndOrientWriters, MovieRegisterWriters. -/
theorem witness_commandsComplete :
    (∃ t, exec (.rectf 4 3 1 1 2) strict = .next t ∧ t.res = 0xFFFFFFFF#32) ∧
      (∃ t, exec (.lineto 3 0 1) idle = .next t ∧ t.res = 0#32) ∧
      (∃ t, exec .mteardown running = .next t) ∧ ∃ t, exec .mrewind loaded = .next t :=
  ⟨⟨_, rfl, rfl⟩, ⟨_, rfl, rfl⟩, ⟨_, rfl⟩, ⟨_, rfl⟩⟩

/-- An `MSTEP` that completes and one that sleeps. -/
theorem witness_resultOfEachCommand :
    (paced 10).sleeping = none ∧
      (∃ t, exec (.mstep 3) (paced 10) = .next t ∧ t.sleeping ≠ none) ∧
      ∃ t, exec (.mstep 3) loaded = .next t ∧ t.sleeping = none :=
  ⟨rfl, ⟨_, rfl, by decide⟩, ⟨_, rfl, rfl⟩⟩

theorem witness_resetInputRestores :
    ∃ s : State, s.faulted = false ∧ s.refused = false ∧ s.inbox = .reset :: [.word 5#32] ∧
      s.sleeping ≠ none :=
  ⟨{ sleeper with inbox := [.reset, .word 5#32] }, by decide⟩

/-- During a sleep, and before the response is read. -/
theorem witness_concurrentCommandRefused :
    (∃ s : State, s.faulted = false ∧ s.refused = false ∧ s.inbox = .word 5#32 :: [] ∧
      s.sleeping ≠ none) ∧
    ∃ s : State, s.faulted = false ∧ s.refused = false ∧ s.inbox = .word 5#32 :: [] ∧
      s.response ≠ none :=
  ⟨⟨{ sleeper with inbox := [.word 5#32] }, by decide⟩,
    ⟨{ idle with inbox := [.word 5#32], response := some 0#32 }, by decide⟩⟩

theorem witness_marksAreSticky :
    (∃ t, step idle = .next t) ∧ { idle with faulted := true }.faulted = true ∧
      { idle with refused := true }.faulted = false :=
  ⟨⟨_, rfl⟩, rfl, rfl⟩

/-- An empty queue, also during a sleep, and a `SETPT` with two of its three operand words. -/
theorem witness_waitingKeepsState :
    (idle.faulted = false ∧ idle.refused = false ∧ idle.inbox = [] ∧ sleeper.inbox = []) ∧
      Ready { idle with inbox := [.word 0x301#32, .word 1#32, .word 2#32] } ∧
      [1#32, 2#32].length < Opcode.setpt.operandCount ∧
      BitVec.ofNat 32 (Opcode.setpt.operandCount <<< 8 ||| Opcode.setpt.code) = 0x301#32 :=
  ⟨by decide, idle_ready _, by decide, by decide⟩

/-- A reset and an acknowledgement between the words of a `SETPT`. -/
theorem witness_interruptedCommand :
    Ready { idle with inbox := [.word 0x301#32, .word 1#32, .reset, .word 5#32] } ∧
      Ready { idle with inbox := [.word 0x301#32, .ackSleep] } ∧
      [1#32].length < Opcode.setpt.operandCount ∧
      (∀ w, HostInput.reset ≠ .word w) ∧ ∀ w, HostInput.ackSleep ≠ .word w :=
  ⟨idle_ready _, idle_ready _, by decide, nofun, nofun⟩

/-- Decimal digits as an operand after one blank. -/
theorem operand_decimal : IsOperand [' ', '2', '1', '4', '7', '4', '8', '3', '6', '4', '8']
    2147483648 :=
  ⟨[' '], ['2', '1', '4', '7', '4', '8', '3', '6', '4', '8'], [], rfl, by simp [Blanks, isBlank],
    nofun, .decimal _ _ ⟨List.cons_ne_nil _ _, [2, 1, 4, 7, 4, 8, 3, 6, 4, 8],
      by simp [IsDigit, Nat.digitChar], by decide⟩⟩

/-- A level just out of range, in lower case, and one operand too few. -/
theorem witness_assemblerErrors :
    IsCommandLine ['c', 'l', 'e', 'a', 'r', ' ', '2', '1', '4', '7', '4', '8', '3', '6', '4', '8']
      .clear [2147483648] ∧
    IsCommandLine ['C', 'L', 'E', 'A', 'R', ' ', ';'] .clear [] := by
  refine ⟨⟨[], ['c', 'l', 'e', 'a', 'r'],
      [' ', '2', '1', '4', '7', '4', '8', '3', '6', '4', '8'], [], rfl, nofun, ?_,
      .inr ⟨[_], rfl, ⟨' ', rfl, rfl⟩, List.cons_ne_nil _ _, .cons operand_decimal .nil⟩, .inl rfl⟩,
    ⟨[], ['C', 'L', 'E', 'A', 'R'], [' '], [';'], rfl, nofun, ?_,
      .inl ⟨rfl, by simp [Blanks, isBlank]⟩, .inr rfl⟩⟩
  · exact .cons (.inr rfl) (.cons (.inr rfl) (.cons (.inr rfl) (.cons (.inr rfl)
      (.cons (.inr rfl) .nil))))
  · exact .cons (.inl rfl) (.cons (.inl rfl) (.cons (.inl rfl) (.cons (.inl rfl)
      (.cons (.inl rfl) .nil))))

/-- Every kind of command of the statement about events completes: `FLUSH`, `MTEARDOWN`, and an
`MSTEP` that draws a frame and one that draws none. -/
theorem witness_eventsOfEachCommand :
    (∃ t, exec .flush idle = .next t) ∧ (∃ t, exec .mteardown idle = .next t) ∧
      (∃ t, exec (.mstep 3) running = .next t) ∧ ∃ t, exec (.mstep 3) loaded = .next t :=
  ⟨⟨_, rfl⟩, ⟨_, rfl⟩, ⟨_, rfl⟩, ⟨_, rfl⟩⟩

/-- A write of the last byte of `SRC`, and a write during a sleep. -/
theorem witness_hostSrcWrite :
    (∃ s : State, s.faulted = false ∧ s.refused = false ∧
      s.inbox = .writeSrc 0x3FF 0#8 :: [] ∧ s.sleeping = none ∧ 0x3FF < s.params.srcSize) ∧
    ∃ s : State, s.faulted = false ∧ s.refused = false ∧
      s.inbox = .writeSrc 0x3FF 0#8 :: [] ∧ s.sleeping ≠ none :=
  ⟨⟨{ idle with inbox := [.writeSrc 0x3FF 0#8] }, by decide⟩,
    ⟨{ sleeper with inbox := [.writeSrc 0x3FF 0#8] }, by decide⟩⟩

theorem witness_responseConsumed :
    ∃ s : State, s.faulted = false ∧ s.refused = false ∧ s.response = some 2#32 ∧
      s.inbox = .readResponse :: [] :=
  ⟨{ idle with response := some 2#32, inbox := [.readResponse] }, by decide⟩

end Sys2Proof.Tests
end

namespace Sys2Proof.Machine

/-- A ready block refuses no command word as concurrent (70_reset_and_hazards.md R237). -/
theorem Ready.busy_eq_false {s : State} (h : Ready s) : s.busy = false := by
  simp [State.busy, h.sleeping, h.response]

/-- Settles O5: a ready block is neither stopped nor busy, so `step_of_command` applies. -/
theorem stepRunsDecodedCommand : Obligations.StepRunsDecodedCommand :=
  fun _ _ _ hready hdecode =>
    step_of_command hready.faulted hready.refused hready.busy_eq_false hdecode

end Sys2Proof.Machine

namespace Sys2Proof.Machine

/-! ### What a command can change, by group of commands -/

/-- What `Pace()` can leave, written over the state it starts in: it sleeps on a sample of the clock
or records one (43_movie_player.md R185, 60_exceptions.md R212). -/
theorem pace_next_state {s t : State} (h : pace s = .next t) :
    ∃ now draws ds, s.clockLast ≤ now ∧
      ((s.hasPrev = true ∧ ∃ ms, t = { s with
          events := s.events ++ [.sleep ms], clockLast := now, clockDraws := draws, clockIn := ds
          sleeping := some now }) ∨
        t = { s with
          clockLast := now, clockDraws := draws, clockIn := ds, tPrev := now, hasPrev := true
          sleeping := none, res := 2#32, response := some 2#32 }) := by
  refine ⟨(clock s).1, (clock s).2.clockDraws, (clock s).2.clockIn, clockLast_le_clock s, ?_⟩
  rcases pace_next h with ⟨hprev, ms, h⟩ | h <;> rw [clock_eq] at h
  · exact .inl ⟨hprev, ms, h⟩
  · exact .inr h

/-- What `MSTEP` can leave, its pacing included (43_movie_player.md R183, R185): it stops, it arms
frame 0, or it draws and flushes the next frame and then sleeps or records the stamp. -/
theorem execMstep_next_state {c : Int} {s t : State} (h : execMstep c s = .next t) :
    t = { s with pstate := .stopped, res := 0#32, response := some 0#32 } ∨
    (s.loaded = true ∧
      t = { s with frameIdx := 0, pstate := .running, res := 2#32, response := some 2#32 }) ∨
    (s.loaded = true ∧ s.pstate = .running ∧ s.frameIdx + 1 < s.hdr.frameCount.toNat ∧
      ∃ fb, framePixels { s with frameIdx := s.frameIdx + 1 } (frameBase s (s.frameIdx + 1)) c
          s.fb = .done fb ∧
        ∃ now draws ds, s.clockLast ≤ now ∧
          ((s.hasPrev = true ∧ ∃ ms, t = { s with
              fb := fb, frameIdx := s.frameIdx + 1
              events := s.events ++ [.flush fb] ++ [.sleep ms]
              clockLast := now, clockDraws := draws, clockIn := ds, sleeping := some now }) ∨
            t = { s with
              fb := fb, frameIdx := s.frameIdx + 1, events := s.events ++ [.flush fb]
              clockLast := now, clockDraws := draws, clockIn := ds, tPrev := now, hasPrev := true
              sleeping := none, res := 2#32, response := some 2#32 })) := by
  rcases execMstep_next h with h | h | ⟨hl, hp, hn, fb, hpx, h⟩
  · exact .inl h
  · exact .inr (.inl h)
  · exact .inr (.inr ⟨hl, hp, hn, fb, hpx, pace_next_state h⟩)

/-- The opcodes of the movie player's commands (43_movie_player.md). -/
abbrev movieOpcodes : List Opcode := [.mload, .mrewind, .mstep, .mteardown]

/-- A command outside the movie player completes, and writes the framebuffer, the orientation, the
cursor and the events at most (40_pixelstore.md, 41_rasterizer.md, 42_compositor.md). -/
theorem exec_screen_next {i : Instr} {s t : State} (h : exec i s = .next t)
    (hi : i.opcode ∉ movieOpcodes) :
    ∃ fb o x y es r, t = { s with
      fb := fb, orient := o, curX := x, curY := y, events := es
      res := r, response := some r } := by
  cases i with
  | mload | mrewind | mstep | mteardown => exact absurd (by simp [Instr.opcode]) hi
  | setori mode => rcases execSetori_next h with ⟨-, -, h⟩ | h <;> exact ⟨_, _, _, _, _, _, h⟩
  | rect => rcases execRect_next h with h | h <;> exact ⟨_, _, _, _, _, _, h⟩
  | rectf => rcases execRectf_next h with h | h <;> exact ⟨_, _, _, _, _, _, h⟩
  | blit => rcases execBlit_next h with h | ⟨fb, -, h⟩ <;> exact ⟨_, _, _, _, _, _, h⟩
  | _ =>
    obtain rfl := complete_eq_next.mp h
    exact ⟨_, _, _, _, _, _, rfl⟩

/-- `MSTEP` leaves the movie it plays, and everything outside the movie player but the framebuffer
(43_movie_player.md R183). -/
theorem execMstep_frame {c : Int} {s t : State} (h : execMstep c s = .next t) :
    t = { s with
      fb := t.fb, res := t.res, pstate := t.pstate, frameIdx := t.frameIdx, tPrev := t.tPrev
      hasPrev := t.hasPrev, events := t.events, response := t.response, sleeping := t.sleeping
      clockLast := t.clockLast, clockDraws := t.clockDraws, clockIn := t.clockIn } := by
  rcases execMstep_next_state h with
    rfl | ⟨-, rfl⟩ | ⟨-, -, -, fb, -, now, draws, ds, -, ⟨-, ms, rfl⟩ | rfl⟩ <;> rfl

/-- A movie command leaves the orientation, the cursor and the host's side (10_state.md R22,
R24). -/
theorem exec_movie_frame {i : Instr} {s t : State} (h : exec i s = .next t)
    (hi : i.opcode ∈ movieOpcodes) :
    (t.orient = s.orient ∧ t.curX = s.curX ∧ t.curY = s.curY) ∧
      t.params = s.params ∧ t.src = s.src ∧ t.inbox = s.inbox ∧ t.faulted = s.faulted ∧
      t.refused = s.refused := by
  cases i with
  | mload => rcases execMload_next h with rfl | ⟨-, rfl⟩ <;> simp
  | mrewind => rcases execMrewind_next h with ⟨-, rfl⟩ | rfl <;> simp
  | mstep => rw [execMstep_frame h]; simp
  | mteardown => obtain rfl := complete_eq_next.mp h; simp
  | _ => exact absurd hi (by simp [Instr.opcode])

/-- A command that goes on leaves the parameters, `SRC`, the host's queue and the marks
(20_memory.md R52, 10_state.md R33). -/
theorem exec_keeps_host {i : Instr} {s t : State} (h : exec i s = .next t) :
    t.params = s.params ∧ t.src = s.src ∧ t.inbox = s.inbox ∧ t.faulted = s.faulted ∧
      t.refused = s.refused := by
  by_cases hi : i.opcode ∈ movieOpcodes
  · exact (exec_movie_frame h hi).2
  · obtain ⟨fb, o, x, y, es, r, rfl⟩ := exec_screen_next h hi
    simp

/-- A command completes, its result in `RES` and on the response channel, or it is an `MSTEP` of a
running movie that sleeps, both as they were (10_state.md R25, 60_exceptions.md R213). -/
theorem exec_completes_or_sleeps {i : Instr} {s t : State} (hs : s.sleeping = none)
    (h : exec i s = .next t) :
    (t.sleeping = none ∧ t.response = some t.res) ∨
    (i.opcode = .mstep ∧ t.sleeping = some t.clockLast ∧ t.loaded = true ∧ t.pstate = .running ∧
      t.hasPrev = true ∧ t.res = s.res ∧ t.response = s.response) := by
  cases i with
  | mload => rcases execMload_next h with rfl | ⟨-, rfl⟩ <;> exact .inl ⟨hs, rfl⟩
  | mrewind => rcases execMrewind_next h with ⟨-, rfl⟩ | rfl <;> exact .inl ⟨hs, rfl⟩
  | mstep =>
    rcases execMstep_next_state h with
      rfl | ⟨-, rfl⟩ | ⟨hl, hp, -, fb, -, now, draws, ds, -, ⟨hprev, ms, rfl⟩ | rfl⟩
    · exact .inl ⟨hs, rfl⟩
    · exact .inl ⟨hs, rfl⟩
    · exact .inr ⟨rfl, rfl, hl, hp, hprev, rfl, rfl⟩
    · exact .inl ⟨rfl, rfl⟩
  | mteardown => obtain rfl := complete_eq_next.mp h; exact .inl ⟨hs, rfl⟩
  | _ =>
    obtain ⟨fb, o, x, y, es, r, rfl⟩ := exec_screen_next h (by simp [Instr.opcode])
    exact .inl ⟨hs, rfl⟩

/-! ### Who writes what (10_state.md R21 to R33) -/

/-- Settles O54: a step that goes on ends with the marks it starts with, both clear, and `fetch`
looks at the marks before anything else. -/
theorem marksAreSticky : Obligations.MarksAreSticky := by
  intro s
  refine ⟨fun t h => ?_, fun hf => by simp [step, fetch, hf],
    fun hf hr => by simp [step, fetch, hf, hr]⟩
  obtain ⟨hf, hr, h⟩ := step_next_cases h
  refine ⟨hf, hr, ?_⟩
  rcases h with rfl | ⟨i, ws, -, -, -, h⟩ | ⟨now, rest, -, -, h⟩ | ⟨w, rest, -, -, rfl⟩ |
    ⟨a, v, rest, -, -, -, rfl⟩ | ⟨rest, rfl⟩
  · exact ⟨hf, hr⟩
  · obtain ⟨-, -, -, hf', hr'⟩ := exec_keeps_host h
    exact ⟨hf'.trans hf, hr'.trans hr⟩
  · rcases resumePace_next h with rfl | rfl <;> simp [hf, hr]
  · exact ⟨hf, hr⟩
  · exact ⟨hf, hr⟩
  · exact ⟨hf, hr⟩

/-- Settles O46: five drawing commands write the cursor, the two rectangles only where they do not
answer the sentinel. -/
theorem cursorWriters : Obligations.CursorWriters := by
  intro i s t h
  cases i with
  | setori => rcases execSetori_next h with ⟨-, -, rfl⟩ | rfl <;> rfl
  | rect => rcases execRect_next h with rfl | rfl <;> simp
  | rectf => rcases execRectf_next h with rfl | rfl <;> simp
  | blit => rcases execBlit_next h with rfl | ⟨fb, -, rfl⟩ <;> rfl
  | mload | mrewind | mstep | mteardown =>
    obtain ⟨⟨-, hx, hy⟩, -⟩ := exec_movie_frame h (by simp [Instr.opcode])
    exact Prod.ext hx hy
  | _ => obtain rfl := complete_eq_next.mp h; rfl

/-- Only `SETORI` writes the orientation (10_state.md R22). -/
theorem exec_keeps_orient {i : Instr} {s t : State} (h : exec i s = .next t)
    (hi : i.opcode ≠ .setori) : t.orient = s.orient := by
  cases i with
  | setori => exact absurd rfl hi
  | rect => rcases execRect_next h with rfl | rfl <;> rfl
  | rectf => rcases execRectf_next h with rfl | rfl <;> rfl
  | blit => rcases execBlit_next h with rfl | ⟨fb, -, rfl⟩ <;> rfl
  | mload | mrewind | mstep | mteardown =>
    obtain ⟨⟨ho, -⟩, -⟩ := exec_movie_frame h (by simp [Instr.opcode])
    exact ho
  | _ => obtain rfl := complete_eq_next.mp h; rfl

/-- The commands that do not draw leave the framebuffer (10_state.md R21). -/
theorem exec_keeps_fb_of_not_drawing {i : Instr} {s t : State} (h : exec i s = .next t)
    (hi : i.opcode ∈ [Opcode.getpt, .setori, .flush, .mload, .mrewind]) : t.fb = s.fb := by
  cases i with
  | getpt | flush => obtain rfl := complete_eq_next.mp h; rfl
  | setori => rcases execSetori_next h with ⟨-, -, rfl⟩ | rfl <;> rfl
  | mload => rcases execMload_next h with rfl | ⟨-, rfl⟩ <;> rfl
  | mrewind => rcases execMrewind_next h with ⟨-, rfl⟩ | rfl <;> rfl
  | _ => exact absurd hi (by simp [Instr.opcode])

/-- Settles O49: the commands that do not draw keep `FB`, and all but `SETORI` keep `ORIENT`. -/
theorem framebufferAndOrientWriters : Obligations.FramebufferAndOrientWriters :=
  fun _ _ _ h => ⟨exec_keeps_fb_of_not_drawing h, exec_keeps_orient h⟩

/-- Settles O50: the commands outside the movie player write none of these registers, `MREWIND`
writes `PSTATE` alone, and `MSTEP` keeps the movie. -/
theorem movieRegisterWriters : Obligations.MovieRegisterWriters := by
  intro i s t h hload hteardown
  cases i with
  | mload => exact absurd rfl hload
  | mteardown => exact absurd rfl hteardown
  | mrewind =>
    rcases execMrewind_next h with ⟨-, rfl⟩ | rfl <;>
      exact ⟨rfl, rfl, rfl, rfl, fun _ => ⟨rfl, rfl, rfl, rfl, rfl, fun hne => absurd rfl hne⟩⟩
  | mstep =>
    rw [execMstep_frame h]
    exact ⟨rfl, rfl, rfl, rfl, fun hne => absurd rfl hne⟩
  | _ =>
    obtain ⟨fb, o, x, y, es, r, rfl⟩ := exec_screen_next h (by simp [Instr.opcode])
    exact ⟨rfl, rfl, rfl, rfl, fun _ => ⟨rfl, rfl, rfl, rfl, rfl, fun _ => rfl⟩⟩

/-! ### Results (10_state.md R25) -/

/-- `ReadPixel` answers the sentinel or a level of two bits (40_pixelstore.md R102). -/
theorem readPixel_range (o : Orient) (x y : Int) (fb : Mem) :
    readPixel o x y fb = -1 ∨ (0 ≤ readPixel o x y fb ∧ readPixel o x y fb ≤ 3) := by
  by_cases h : onScreen (mirror o x y) = true
  · have hle := Nat.and_le_right
      (n := (Mem.read fb (pixelAddr (mirror o x y)) >>> pixelShift (mirror o x y)).toNat) (m := 3)
    rw [readPixel_onScreen fb h, getField, BitVec.toNat_and]
    exact .inr ⟨Int.natCast_nonneg _, by exact_mod_cast hle⟩
  · exact .inl (readPixel_offScreen fb h)

/-- Settles O47: a command completes with a response or is a sleeping `MSTEP`, and each command's
laws name the values that it completes with. -/
theorem resultOfEachCommand : Obligations.ResultOfEachCommand := by
  intro i s t hs h
  rcases exec_completes_or_sleeps hs h with
    ⟨hwake, hresp⟩ | ⟨hop, hsleep, -, -, -, hres, hresp⟩
  · refine ⟨fun _ => ⟨hresp, ?_⟩, fun hne => absurd hwake hne⟩
    cases i with
    | getpt x y =>
      obtain rfl := complete_eq_next.mp h
      have hv := readPixel_range s.orient x y s.fb
      have hw := s32_wordOfInt (v := readPixel s.orient x y s.fb)
        (by simp only [isS32, Bool.and_eq_true, decide_eq_true_eq]; omega)
      rw [s32] at hw
      rwa [← hw] at hv
    | setori => rcases execSetori_next h with ⟨-, -, rfl⟩ | rfl <;> simp
    | rect => rcases execRect_next h with rfl | rfl <;> simp
    | rectf => rcases execRectf_next h with rfl | rfl <;> simp
    | blit => rcases execBlit_next h with rfl | ⟨fb, -, rfl⟩ <;> simp
    | mload => rcases execMload_next h with rfl | ⟨-, rfl⟩ <;> simp
    | mrewind => rcases execMrewind_next h with ⟨-, rfl⟩ | rfl <;> simp
    | mstep =>
      rcases execMstep_next_state h with
        rfl | ⟨-, rfl⟩ | ⟨-, hp, -, fb, -, now, draws, ds, -, ⟨-, ms, rfl⟩ | rfl⟩
      · exact .inl ⟨rfl, rfl⟩
      · exact .inr ⟨rfl, rfl⟩
      · cases hwake
      · exact .inr ⟨hp, rfl⟩
    | _ => obtain rfl := complete_eq_next.mp h; rfl
  · exact ⟨fun hn => absurd hn (by simp [hsleep]), fun _ => ⟨hop, hres, hresp⟩⟩

/-! ### The byte stores in every step (10_state.md R20, 20_memory.md R52) -/

section Framebuffer

variable {P : Mem → Prop} (hplot : ∀ o x y l fb, P fb → P (plotPixel o x y l fb))
  (hfill : ∀ b, P (Mem.fill Config.fbBytes b))

include hplot

/-- A list of points keeps any property of the framebuffer that plotting keeps. -/
theorem plotPoints_keeps (o : Orient) (c : Int) (ps : List (Int × Int)) {fb : Mem} (hp : P fb) :
    P (plotPoints o c ps fb) := by
  induction ps generalizing fb with
  | nil => exact hp
  | cons p ps ih => exact ih (hplot o p.1 p.2 c fb hp)

include hfill

/-- Every command that goes on keeps any property of the framebuffer that plotting a pixel keeps
and a byte fill has. -/
theorem exec_keeps_fb {i : Instr} {s t : State} (h : exec i s = .next t) (hp : P s.fb) :
    P t.fb := by
  cases i with
  | getpt | setori | flush | mload | mrewind =>
    rw [exec_keeps_fb_of_not_drawing h (by simp [Instr.opcode])]; exact hp
  | setpt => obtain rfl := complete_eq_next.mp h; exact hplot _ _ _ _ _ hp
  | clear => obtain rfl := complete_eq_next.mp h; exact hfill _
  | rect =>
    rcases execRect_next h with rfl | rfl
    · exact hp
    · dsimp only; rw [drawRect_eq]; exact plotPoints_keeps hplot _ _ _ hp
  | rectf =>
    rcases execRectf_next h with rfl | rfl
    · exact hp
    · dsimp only; rw [drawColumns_eq]; exact plotPoints_keeps hplot _ _ _ hp
  | blit =>
    rcases execBlit_next h with rfl | ⟨fb, hfb, rfl⟩
    · exact hp
    · exact (blitCore_keeps hplot _ _ _ _ _ _ _ _ _ _ _ hp).1 fb hfb
  | mstep =>
    rcases execMstep_next_state h with
      rfl | ⟨-, rfl⟩ | ⟨-, -, -, fb, hfb, now, draws, ds, -, ⟨-, ms, rfl⟩ | rfl⟩
    · exact hp
    · exact hp
    all_goals exact (framePixels_keeps hplot _ _ _ _ hp).1 fb hfb
  | mteardown => obtain rfl := complete_eq_next.mp h; exact hfill 0x00#8
  | line | lineto | circle | circlef | ellipse | ellipsef =>
    obtain rfl := complete_eq_next.mp h
    exact plotPoints_keeps hplot _ _ _ hp

/-- Every step keeps such a property: the reset input fills the framebuffer with `0x00`. -/
theorem step_keeps_fb {s t : State} (h : step s = .next t) (hp : P s.fb) : P t.fb := by
  obtain ⟨-, -, h⟩ := step_next_cases h
  rcases h with rfl | ⟨i, ws, -, -, -, h⟩ | ⟨now, rest, -, -, h⟩ | ⟨w, rest, -, -, rfl⟩ |
    ⟨a, v, rest, -, -, -, rfl⟩ | ⟨rest, rfl⟩
  · exact hp
  · exact exec_keeps_fb hplot hfill h hp
  · rcases resumePace_next h with rfl | rfl
    · exact hp
    · simpa using hp
  · exact hp
  · exact hp
  · exact hfill 0x00#8

end Framebuffer

/-- A step leaves the parameters, and `SRC` but for one byte inside it that the host writes
(00_scope.md R6, 20_memory.md R52, R61). -/
theorem step_src {s t : State} (h : step s = .next t) :
    t.params = s.params ∧
      (t.src = s.src ∨ ∃ a v, a < s.params.srcSize ∧ t.src = Mem.write s.src a v) := by
  obtain ⟨-, -, h⟩ := step_next_cases h
  rcases h with rfl | ⟨i, ws, -, -, -, h⟩ | ⟨now, rest, -, -, h⟩ | ⟨w, rest, -, -, rfl⟩ |
    ⟨a, v, rest, -, ha, -, rfl⟩ | ⟨rest, rfl⟩
  · exact ⟨rfl, .inl rfl⟩
  · obtain ⟨hparams, hsrc, -⟩ := exec_keeps_host h
    exact ⟨hparams, .inl hsrc⟩
  · rcases resumePace_next h with rfl | rfl <;> simp
  · exact ⟨rfl, .inl rfl⟩
  · exact ⟨rfl, .inr ⟨a, v, ha, rfl⟩⟩
  · exact ⟨rfl, .inl rfl⟩

/-- Every step keeps `SRC` canonical. -/
theorem step_keeps_src_wf {s t : State} (h : step s = .next t) (hw : Mem.wf s.src = true) :
    Mem.wf t.src = true := by
  obtain ⟨-, hsrc | ⟨a, v, -, hsrc⟩⟩ := step_src h <;> rw [hsrc]
  · exact hw
  · exact Mem.wf_write a v hw

/-- Every step keeps `SRC` inside its size. -/
theorem step_keeps_src_size {s t : State} (h : step s = .next t)
    (hb : Mem.below s.src s.params.srcSize = true) : Mem.below t.src t.params.srcSize = true := by
  obtain ⟨hparams, hsrc | ⟨a, v, ha, hsrc⟩⟩ := step_src h <;> rw [hparams, hsrc]
  · exact hb
  · exact Mem.below_write v ha hb

/-- Settles O43: plotting and filling keep `FB` canonical, and the host's writes keep `SRC` so. -/
theorem storesStayCanonical : Obligations.StoresStayCanonical :=
  fun _ _ hfb hsrc h =>
    ⟨step_keeps_fb (P := fun m => Mem.wf m = true) (fun o x y l _ => plotPixel_wf o x y l)
      (Mem.wf_fill _) h hfb, step_keeps_src_wf h hsrc⟩

/-! ### The other clauses of the invariant -/

/-- A command read from the port has operands in range (30_encoding.md R72). -/
theorem wf_of_decode {ws rest : List Word} {i : Instr} (h : decode ws = .command i rest) :
    i.wf = true := by
  obtain ⟨_, _, _, -, -, hb, -⟩ := decode_eq_command.mp h
  exact (buildInstr_eq_some hb).2.1

/-- The cursor holds s32 values (10_state.md R23). -/
abbrev CursorWf (s : State) : Prop := isS32 s.curX = true ∧ isS32 s.curY = true

/-- The larger of two s32 values is one. -/
theorem isS32_max {a b : Int} (ha : isS32 a = true) (hb : isS32 b = true) :
    isS32 (max a b) = true := by
  rcases max_choice a b with h | h <;> rw [h] <;> assumption

/-- A command with operands in range keeps the cursor in range (10_state.md R23, R24). -/
theorem exec_keeps_cursorWf {i : Instr} {s t : State} (h : exec i s = .next t)
    (hi : i.wf = true) (hc : CursorWf s) : CursorWf t := by
  have hw := cursorWriters i s t h
  cases i with
  | setpt | line | lineto =>
    simp only [Instr.wf, Bool.and_eq_true] at hi
    injection hw with hx hy
    simp [CursorWf, hx, hy, hi]
  | rect =>
    simp only [Instr.wf, Bool.and_eq_true] at hi
    dsimp only at hw
    split at hw <;> injection hw with hx hy
    · simpa [CursorWf, hx, hy] using hc
    · simp [CursorWf, hx, hy, hi]
  | rectf =>
    simp only [Instr.wf, Bool.and_eq_true] at hi
    dsimp only at hw
    split at hw <;> injection hw with hx hy
    · simpa [CursorWf, hx, hy] using hc
    · simp [CursorWf, hx, hy, hi, isS32_max]
  | _ =>
    injection hw with hx hy
    simpa [CursorWf, hx, hy] using hc

/-- Every step keeps the cursor in range: the port's operands are s32 values (30_encoding.md
R72). -/
theorem step_keeps_cursorWf {s t : State} (h : step s = .next t) (hc : CursorWf s) :
    CursorWf t := by
  obtain ⟨-, -, h⟩ := step_next_cases h
  rcases h with rfl | ⟨i, ws, -, -, hd, h⟩ | ⟨now, rest, -, -, h⟩ | ⟨w, rest, -, -, rfl⟩ |
    ⟨a, v, rest, -, -, -, rfl⟩ | ⟨rest, rfl⟩
  · exact hc
  · exact exec_keeps_cursorWf h (wf_of_decode hd) hc
  · rcases resumePace_next h with rfl | rfl
    · exact hc
    · simpa [CursorWf] using hc
  · exact hc
  · exact hc
  · exact ⟨rfl, rfl⟩

/-- `NoMovie` reads the movie registers alone. -/
theorem NoMovie.congr {s t : State} (h : NoMovie s) (hp : t.pstate = .stopped)
    (hb : t.movBuf = s.movBuf) (hh : t.hdr = s.hdr) (hf : t.frameSize = s.frameSize)
    (hi : t.frameIdx = s.frameIdx) (hprev : t.hasPrev = s.hasPrev) : NoMovie t :=
  ⟨hp, hb.trans h.movBuf, hh.trans h.hdr, hf.trans h.frameSize, hi.trans h.frameIdx,
    hprev.trans h.hasPrev⟩

/-- `MovieLoaded` reads the movie, the parameters and a frame index that stays below the count. -/
theorem MovieLoaded.congr {s t : State} (h : MovieLoaded s) (hp : t.params = s.params)
    (hh : t.hdr = s.hdr) (hf : t.frameSize = s.frameSize) (hb : t.movBuf = s.movBuf)
    (hi : t.frameIdx < s.hdr.frameCount.toNat) : MovieLoaded t where
  magic := hh ▸ h.magic
  bpp := hh ▸ h.bpp
  fps := hh ▸ h.fps
  frameCount := hh ▸ h.frameCount
  frameSize := by rw [hf, hh, hp]; exact h.frameSize
  movLen := by rw [State.movLen, hb, hh, hf]; exact h.movLen
  capacity := by rw [State.movLen, hb, hp]; exact h.capacity
  frameIdx := hh ▸ hi

/-- The clauses of the invariant about the movie and its pacing stamp (10_state.md R26 to R32). -/
structure MovieInv (s : State) : Prop where
  unloaded : s.loaded = false → NoMovie s
  loaded : s.loaded = true → MovieLoaded s
  noStamp : s.hasPrev = false → s.tPrev = 0
  stampPast : s.tPrev ≤ s.clockLast

theorem Inv.movieInv {s : State} (h : Inv s) : MovieInv s :=
  ⟨h.unloaded, h.loaded, h.noStamp, h.stampPast⟩

/-- `FRAME_IDX` is below `2^32`: it is below the header's frame count, or 0 (10_state.md R28). -/
theorem MovieInv.frameIdx_lt {s : State} (h : MovieInv s) : s.frameIdx < 2 ^ 32 := by
  cases hl : s.loaded with
  | false => rw [(h.unloaded hl).frameIdx]; decide
  | true => exact (h.loaded hl).frameIdx.trans s.hdr.frameCount.isLt

/-- What is outside the movie player does not enter `MovieInv`. -/
theorem MovieInv.update {s : State} (h : MovieInv s) (fb : Mem) (o : Orient) (x y : Int) (r : Word)
    (src : Mem) (es : List Event) (resp : Option Word) (sl : Option Nat) (is : List HostInput) :
    MovieInv { s with
      fb := fb, orient := o, curX := x, curY := y, res := r, src := src, events := es
      response := resp, sleeping := sl, inbox := is } :=
  ⟨fun hl => (h.unloaded hl).congr (h.unloaded hl).pstate rfl rfl rfl rfl rfl,
    fun hl => (h.loaded hl).congr rfl rfl rfl rfl (h.loaded hl).frameIdx, h.noStamp, h.stampPast⟩

/-- The registers with no movie in them (43_movie_player.md R170, R187). -/
theorem releaseMovie_movieInv (s : State) : MovieInv (releaseMovie s) :=
  ⟨fun _ => ⟨rfl, rfl, rfl, rfl, rfl, rfl⟩, nofun, fun _ => rfl, Nat.zero_le _⟩

/-- The movie that `MLOAD` installs from a file whose header it accepts (43_movie_player.md R173,
20_memory.md R54). -/
theorem installMovie_movieInv {s : State} {src len : Nat}
    (h : headerAccepted s.params (readHeader s src) len = true) :
    MovieInv (installMovie (readHeader s src) src (releaseMovie s)) := by
  obtain ⟨hmagic, hbpp, hfps, hcount, hcap, -⟩ := headerAccepted_iff.mp h
  exact ⟨nofun,
    fun _ => ⟨hmagic, hbpp, hfps, hcount, rfl, by simp [State.movLen, Header.totalSize],
      by simpa [State.movLen] using hcap, hcount⟩,
    fun _ => rfl, Nat.zero_le _⟩

/-- `MREWIND` on a loaded movie (43_movie_player.md R176). -/
theorem MovieInv.start {s : State} (h : MovieInv s) (hl : s.loaded = true) :
    MovieInv { s with pstate := .start } :=
  ⟨fun hn => absurd (hl.symm.trans hn) nofun,
    fun _ => (h.loaded hl).congr rfl rfl rfl rfl (h.loaded hl).frameIdx, h.noStamp, h.stampPast⟩

/-- `MSTEP` keeps the movie and stamps a sample no later than the clock's last (43_movie_player.md
R183, R185). -/
theorem execMstep_keeps_movieInv {c : Int} {s t : State} (h : execMstep c s = .next t)
    (hm : MovieInv s) : MovieInv t := by
  rcases execMstep_next_state h with
    rfl | ⟨hl, rfl⟩ | ⟨hl, -, hn, fb, -, now, draws, ds, hle, ⟨hprev, ms, rfl⟩ | rfl⟩
  · exact ⟨fun hl => (hm.unloaded hl).congr rfl rfl rfl rfl rfl rfl,
      fun hl => (hm.loaded hl).congr rfl rfl rfl rfl (hm.loaded hl).frameIdx, hm.noStamp,
      hm.stampPast⟩
  · exact ⟨fun hn => absurd (hl.symm.trans hn) nofun,
      fun _ => (hm.loaded hl).congr rfl rfl rfl rfl (hm.loaded hl).frameCount, hm.noStamp,
      hm.stampPast⟩
  · exact ⟨fun hn => absurd (hl.symm.trans hn) nofun,
      fun _ => (hm.loaded hl).congr rfl rfl rfl rfl hn, hm.noStamp, hm.stampPast.trans hle⟩
  · exact ⟨fun hn => absurd (hl.symm.trans hn) nofun,
      fun _ => (hm.loaded hl).congr rfl rfl rfl rfl hn, nofun, Nat.le_refl _⟩

/-- Every command keeps the movie's clauses. -/
theorem exec_keeps_movieInv {i : Instr} {s t : State} (h : exec i s = .next t)
    (hm : MovieInv s) : MovieInv t := by
  cases i with
  | mload src len =>
    rcases execMload_next h with rfl | ⟨ha, rfl⟩
    · exact (releaseMovie_movieInv s).update ..
    · exact (installMovie_movieInv ha).update ..
  | mrewind =>
    rcases execMrewind_next h with ⟨hl, rfl⟩ | rfl
    · exact (hm.start hl).update ..
    · exact hm.update ..
  | mstep => exact execMstep_keeps_movieInv h hm
  | mteardown =>
    obtain rfl := complete_eq_next.mp h
    exact (releaseMovie_movieInv s).update ..
  | _ =>
    obtain ⟨fb, o, x, y, es, r, rfl⟩ := exec_screen_next h (by simp [Instr.opcode])
    exact hm.update ..

/-- A stamp at a past sample, in a loaded movie. -/
theorem MovieInv.stamp {s : State} (h : MovieInv s) (hl : s.loaded = true) {now : Nat}
    (hle : now ≤ s.clockLast) : MovieInv { s with tPrev := now, hasPrev := true } :=
  ⟨fun hn => absurd (hl.symm.trans hn) nofun,
    fun _ => (h.loaded hl).congr rfl rfl rfl rfl (h.loaded hl).frameIdx, nofun, hle⟩

/-- Drawing a sample keeps the movie's clauses: the clock only rises (60_exceptions.md R212). -/
theorem MovieInv.clock {s : State} (h : MovieInv s) : MovieInv (clock s).2 := by
  rw [clock_eq]
  exact ⟨fun hl => (h.unloaded hl).congr (h.unloaded hl).pstate rfl rfl rfl rfl rfl,
    fun hl => (h.loaded hl).congr rfl rfl rfl rfl (h.loaded hl).frameIdx, h.noStamp,
    h.stampPast.trans (clockLast_le_clock s)⟩

/-- The acknowledgement of a `SLEEP` keeps the movie's clauses (60_exceptions.md R213). -/
theorem resumePace_keeps_movieInv {now : Nat} {s t : State} (h : resumePace now s = .next t)
    (hm : MovieInv s) (hl : s.loaded = true) (hle : now ≤ s.clockLast) : MovieInv t := by
  rcases resumePace_next h with rfl | rfl
  · exact (hm.stamp hl hle).update ..
  · have hlast : (clock s).1 ≤ (clock s).2.clockLast := Nat.le_of_eq (clock_clockLast s).symm
    exact (hm.clock.stamp ((clock_loaded s).trans hl) hlast).update ..

/-- Every step keeps the movie's clauses. -/
theorem step_keeps_movieInv {s t : State} (h : step s = .next t) (hinv : Inv s) :
    MovieInv t := by
  obtain ⟨-, -, h⟩ := step_next_cases h
  rcases h with rfl | ⟨i, ws, -, -, -, h⟩ | ⟨now, rest, hs, -, h⟩ | ⟨w, rest, -, -, rfl⟩ |
    ⟨a, v, rest, -, -, -, rfl⟩ | ⟨rest, rfl⟩
  · exact hinv.movieInv
  · exact exec_keeps_movieInv h (hinv.movieInv.update ..)
  · obtain ⟨hle, hl, -, -, -⟩ := hinv.sleeping now hs
    exact resumePace_keeps_movieInv h (hinv.movieInv.update ..) hl hle
  · exact hinv.movieInv.update ..
  · exact hinv.movieInv.update ..
  · exact (releaseMovie_movieInv s).update ..

/-- The clauses of the invariant about the response channel and a waiting `MSTEP`
(30_encoding.md R81, 60_exceptions.md R213). -/
structure ReplyInv (s : State) : Prop where
  response : ∀ w, s.response = some w → w = s.res
  sleeping : ∀ now, s.sleeping = some now → Asleep now s

/-- A block that no `MSTEP` keeps waiting has only the response to account for. -/
theorem ReplyInv.of_awake {s : State} (hs : s.sleeping = none)
    (hr : s.response = none ∨ s.response = some s.res) : ReplyInv s := by
  refine ⟨fun w hw => ?_, fun now hn => absurd (hs.symm.trans hn) nofun⟩
  rcases hr with hr | hr <;> rw [hr] at hw
  · cases hw
  · injection hw with hw; exact hw.symm

/-- A command on a ready block completes with its response, or waits with none given. -/
theorem exec_replyInv {i : Instr} {s t : State} (h : exec i s = .next t)
    (hs : s.sleeping = none) (hr : s.response = none) : ReplyInv t := by
  rcases exec_completes_or_sleeps hs h with
    ⟨hwake, hresp⟩ | ⟨-, hsleep, hl, hp, hprev, -, hresp⟩
  · exact .of_awake hwake (.inr hresp)
  · refine ⟨fun w hw => absurd ((hresp.trans hr).symm.trans hw) nofun, fun now hn => ?_⟩
    obtain rfl := Option.some.inj (hsleep.symm.trans hn)
    exact ⟨Nat.le_refl _, hl, hp, hprev, hresp.trans hr⟩

/-- Every step keeps the clauses about the response and the waiting `MSTEP`. -/
theorem step_keeps_replyInv {s t : State} (h : step s = .next t) (hinv : Inv s) :
    ReplyInv t := by
  obtain ⟨-, -, h⟩ := step_next_cases h
  rcases h with rfl | ⟨i, ws, hs, hr, -, h⟩ | ⟨now, rest, -, -, h⟩ | ⟨w, rest, hw, -, rfl⟩ |
    ⟨a, v, rest, hs, -, -, rfl⟩ | ⟨rest, rfl⟩
  · exact ⟨hinv.response, hinv.sleeping⟩
  · exact exec_replyInv h hs hr
  · rcases resumePace_next h with rfl | rfl <;> exact .of_awake rfl (.inr rfl)
  · exact ⟨nofun, fun now hs => absurd ((hinv.sleeping now hs).response.symm.trans hw) nofun⟩
  · exact ⟨hinv.response, fun now hn => absurd (hs.symm.trans hn) nofun⟩
  · exact .of_awake rfl (.inl rfl)

/-- Settles O42: each group of clauses is kept by a law of its own. -/
theorem stepKeepsInv : Obligations.StepKeepsInv := by
  intro s t hinv h
  obtain ⟨hfbWf, hfbSize⟩ := step_keeps_fb (P := FbWf) (fun o x y l _ => plotPixel_fbWf o x y l)
    (fun b => ⟨Mem.wf_fill _ b, Mem.below_fill _ b⟩) h ⟨hinv.fbCanonical, hinv.fbSize⟩
  obtain ⟨hcurX, hcurY⟩ := step_keeps_cursorWf h ⟨hinv.curX, hinv.curY⟩
  have hmovie := step_keeps_movieInv h hinv
  have hreply := step_keeps_replyInv h hinv
  exact {
    fbCanonical := hfbWf
    fbSize := hfbSize
    srcCanonical := step_keeps_src_wf h hinv.srcCanonical
    srcSize := step_keeps_src_size h hinv.srcSize
    srcSizePos := (step_src h).1 ▸ hinv.srcSizePos
    curX := hcurX
    curY := hcurY
    frameIdx := hmovie.frameIdx_lt
    unloaded := hmovie.unloaded
    loaded := hmovie.loaded
    noStamp := hmovie.noStamp
    stampPast := hmovie.stampPast
    response := hreply.response
    sleeping := hreply.sleeping }

end Sys2Proof.Machine

namespace Sys2Proof.Machine

/-! ### Faults, and reads of `MOV_BUF` (20_memory.md R54, 60_exceptions.md R204) -/

/-- The commands that can fault: `BLIT` and `MLOAD` on a read of `SRC`, with the drawing so far and
the mark the only writes, and `MSTEP` (60_exceptions.md R204). -/
theorem exec_fault_cases {i : Instr} {s : State} {f : Fault} (h : exec i s = .fault f) :
    ((i.opcode = .blit ∨ i.opcode = .mload) ∧
      ∃ fb, f = .srcOutOfRange { s with fb := fb, faulted := true }) ∨
    ∃ c, i = .mstep c ∧ execMstep c s = .fault f := by
  cases i with
  | blit => obtain ⟨fb, -, hf⟩ := execBlit_fault h; exact .inl ⟨.inl rfl, fb, hf⟩
  | mload => obtain ⟨-, -, hf⟩ := execMload_fault h; exact .inl ⟨.inr rfl, s.fb, hf⟩
  | mstep c => exact .inr ⟨c, rfl, h⟩
  | setori => rw [exec, execSetori] at h; split at h <;> cases h
  | rect => rw [exec, execRect] at h; split at h <;> cases h
  | rectf => rw [exec, execRectf] at h; split at h <;> cases h
  | mrewind => rw [exec, execMrewind] at h; split at h <;> cases h
  | _ => exact absurd h (complete_ne_fault _ _ _)

/-- Waiting for the rest of a command's words raises no fault. -/
theorem awaitWords_ne_fault (s : State) (f : Fault) : awaitWords s ≠ .fault f := by
  unfold awaitWords
  split <;> nofun

/-- Every way a step faults: the run has faulted already, or the command on the port of a ready
block faults (60_exceptions.md R204). -/
theorem step_fault_cases {s : State} {f : Fault} (h : step s = .fault f) :
    (s.faulted = true ∧ f = .alreadyFaulted s) ∨
    (Ready s ∧ ∃ i ws, decode (leadingWords s.inbox) = .command i ws ∧
      exec i { s with inbox := ws.map .word ++ afterWords s.inbox } = .fault f) := by
  obtain ⟨-, hfaulted, hrefused⟩ := marksAreSticky s
  by_cases hf : s.faulted = true
  · rw [hfaulted hf] at h
    injection h with h
    exact .inl ⟨hf, h.symm⟩
  rw [Bool.not_eq_true] at hf
  by_cases hr : s.refused = true
  · rw [hrefused hf hr] at h; cases h
  rw [Bool.not_eq_true] at hr
  refine .inr ?_
  cases hi : s.inbox with
  | nil => simp [step, fetch, hf, hr, hi] at h
  | cons x rest =>
    cases x with
    | word w =>
      by_cases hb : s.busy = true
      · rw [step_of_busy hf hr hi hb] at h; cases h
      rw [Bool.not_eq_true] at hb
      obtain ⟨hs, hresp⟩ : s.sleeping = none ∧ s.response = none := by
        simpa [State.busy] using hb
      rw [← hi]
      cases hd : decode (leadingWords s.inbox) with
      | command i ws =>
        rw [step_of_command hf hr hb hd] at h
        exact ⟨⟨hf, hr, hs, hresp⟩, i, ws, rfl, h⟩
      | illegal why => rw [step_of_illegal hf hr hi hb hd] at h; cases h
      | incomplete =>
        rw [step_of_incomplete hf hr hi hb hd] at h
        exact absurd h (awaitWords_ne_fault s f)
    | ackSleep =>
      rw [step_of_ackSleep hf hr hi, takeAck] at h
      split at h
      · obtain ⟨t, ht⟩ := resumePace_isNext _ (s.advance 1)
        exact absurd (ht.symm.trans h) nofun
      · cases h
    | readResponse =>
      rw [step_of_readResponse hf hr hi, takeResponse] at h
      split at h <;> cases h
    | writeSrc a v =>
      rw [step_of_writeSrc hf hr hi, takeSrcWrite] at h
      split at h
      · cases h
      · split at h <;> cases h
    | reset => rw [step_of_reset hf hr hi] at h; cases h

/-- `MSTEP` reads `MOV_BUF` only inside it: the frame it draws is one of the loaded movie's, so it
is drawn to the end (20_memory.md R54, 43_movie_player.md R183). -/
theorem execMstep_ne_fault {s : State} (hm : s.loaded = true → MovieLoaded s) (c : Int)
    (f : Fault) : execMstep c s ≠ .fault f := by
  intro h
  obtain ⟨hl, -, hn, fb, hout, -⟩ := execMstep_fault h
  have hnext : MovieLoaded { s with frameIdx := s.frameIdx + 1 } :=
    (hm hl).congr rfl rfl rfl rfl hn
  obtain ⟨fb', hdone, -⟩ := framePixels_painted hnext hn c s.fb
  exact absurd (hdone.symm.trans hout) nofun

/-- Settles O44: only a command's own fault reads out of range, `BLIT` and `MLOAD` fault on `SRC`,
and `MSTEP` does not fault on a movie that the invariant describes. -/
theorem movieReadNeverFaults : Obligations.MovieReadNeverFaults := by
  intro s t hinv h
  rcases step_fault_cases h with ⟨-, hf⟩ | ⟨-, i, ws, -, hexec⟩
  · cases hf
  · rcases exec_fault_cases hexec with ⟨-, fb, hf⟩ | ⟨c, -, hmstep⟩
    · cases hf
    · refine execMstep_ne_fault (fun hl => ?_) c _ hmstep
      have hm : MovieLoaded s := hinv.loaded hl
      exact hm.congr rfl rfl rfl rfl hm.frameIdx

/-! ### `SRC` and the host (20_memory.md R52, R61) -/

/-- Settles O48: `exec_keeps_host`, its clauses in the statement's order. -/
theorem commandsLeaveHostState : Obligations.CommandsLeaveHostState := by
  intro i s t h
  obtain ⟨hparams, hsrc, hinbox, hfaulted, hrefused⟩ := exec_keeps_host h
  exact ⟨hsrc, hparams, hinbox, hfaulted, hrefused⟩

/-- Settles O56: `takeSrcWrite` looks at the sleep first, and a byte inside `SRC` is then written by
`Mem.write`, which `Mem.read_write` describes. -/
theorem hostSrcWrite : Obligations.HostSrcWrite := by
  intro s a v rest hf hr hi
  rw [step_of_writeSrc hf hr hi, takeSrcWrite]
  refine ⟨fun hs => if_pos (Option.isSome_iff_ne_none.mpr hs), fun hs ha => ?_⟩
  have hadv : s.advance 1 = { s with inbox := rest } := by simp [State.advance, hi]
  refine ⟨Mem.write s.src a v, ?_, Mem.read_write s.src a v⟩
  rw [if_neg (by simp [hs]), if_pos ha, hadv]

end Sys2Proof.Machine

namespace Sys2Proof.Machine

/-! ### The words of a command (30_encoding.md R70 to R76) -/

/-- A command has as many operands as its row of R74 announces. -/
@[simp] theorem length_operands (i : Instr) : i.operands.length = i.opcode.operandCount := by
  cases i <;> rfl

/-- Settles O1: the header names the row, and the operand words, exactly as many as it announces,
are read back by `buildInstr_operands`. -/
theorem decodeOfEncode : Obligations.DecodeOfEncode := by
  intro i rest hwf
  have hlen : (i.operands.map wordOfInt).length = i.opcode.operandCount := by simp
  refine decode_eq_command.mpr ⟨i.opcode.header, i.operands.map wordOfInt ++ rest, i.opcode, rfl,
    headerOpcode_header _, ?_, ?_⟩
  · rw [List.take_left' hlen, buildInstr_operands hwf]
  · rw [List.drop_left' hlen]

/-- Settles O2: a legal header is its row's header, and the operand words a command is built from
are its operands written out. -/
theorem decodeOnlyEncodings : Obligations.DecodeOnlyEncodings := by
  intro ws rest i hd
  obtain ⟨h, tail, op, rfl, hop, hbuild, rfl⟩ := decode_eq_command.mp hd
  obtain ⟨rfl, hwf, hwords, -⟩ := buildInstr_eq_some hbuild
  refine ⟨hwf, ?_⟩
  rw [encode, ← eq_header_of_headerOpcode hop, ← hwords, List.cons_append, List.take_append_drop]

/-- The legal header of a row is `(N << 8) | OP` (30_encoding.md R71). -/
theorem header_eq_shift (op : Opcode) :
    op.header = BitVec.ofNat 32 (op.operandCount <<< 8 ||| op.code) := by
  cases op <;> rfl

/-- A header says an opcode exactly when it is that row's header (30_encoding.md R71). -/
theorem headerOpcode_eq_ok_iff_header {h : Word} {op : Opcode} :
    headerOpcode h = .ok op ↔ h = op.header :=
  ⟨eq_header_of_headerOpcode, fun e => e ▸ headerOpcode_header op⟩

/-- Whether a header is illegal does not depend on the words after it, and it is illegal exactly
when it says no opcode (30_encoding.md R71, R76). -/
theorem decode_illegal_iff {h : Word} {ws : List Word} :
    (∃ why, decode (h :: ws) = .illegal why) ↔ ∀ op, headerOpcode h ≠ .ok op := by
  rw [decode]
  cases headerOpcode h with
  | error why => simp
  | ok op =>
    simp only [ne_eq, Except.ok.injEq, forall_eq', iff_false, not_exists]
    intro why
    split <;> simp

/-- Settles O3: a header says no opcode exactly when its fields fit no row, and exactly when it is
no row's header. -/
theorem legalHeaderForm : Obligations.LegalHeaderForm := by
  intro h ws
  rw [decode_illegal_iff]
  constructor
  · simp only [ne_eq, headerOpcode_eq_ok, ← not_exists, exists_and_left]
  · simp only [ne_eq, headerOpcode_eq_ok_iff_header, header_eq_shift]

/-- No two rows of R74 share a code. -/
theorem code_injective : Function.Injective Opcode.code := fun _ _ h =>
  Option.some.inj ((Opcode.ofCode_eq_some.mpr h).symm.trans (Opcode.ofCode_eq_some.mpr rfl))

/-- Settles O4: each ground of R76 contradicts what a legal header says, so the block refuses, and
the mark then stops every step (`marksAreSticky`). -/
theorem illegalHeaderRefused : Obligations.IllegalHeaderRefused := by
  intro s h rest hready hi hground
  refine ⟨?_, fun t => (marksAreSticky t).2.2⟩
  have hillegal : ∀ op, headerOpcode h ≠ .ok op := by
    intro op hop
    obtain ⟨hrsv, hcode, hcount⟩ := headerOpcode_eq_ok.mp hop
    rcases hground with hg | hg | ⟨op', hcode', hg⟩
    · exact hg hrsv
    · exact hg op hcode
    · rw [← code_injective (hcode.trans hcode'.symm)] at hg
      exact hg hcount
  obtain ⟨why, hd⟩ := decode_illegal_iff (ws := leadingWords rest) |>.mpr hillegal
  rw [← leadingWords_cons, ← hi] at hd
  exact ⟨why, step_of_illegal hready.faulted hready.refused hi hready.busy_eq_false hd⟩

/-- Settles O6: the four word lists are closed terms, which the decoder evaluates. -/
theorem sampleWordsDecode : Obligations.SampleWordsDecode := by
  unfold Obligations.SampleWordsDecode
  decide

/-! ### The other inputs of the host (30_encoding.md R75, R81) -/

/-- Settles O57: the response is there, so `takeResponse` takes it off the port. -/
theorem responseConsumed : Obligations.ResponseConsumed := by
  intro s w rest hf hr hw hi
  rw [step_of_readResponse hf hr hi, takeResponse, hw]
  simp [State.advance, hi]

/-- Settles O59: the words before the interruption are no command yet, so `awaitWords` meets the
input after them. -/
theorem interruptedCommand : Obligations.InterruptedCommand := by
  intro s op ws x rest hready hlen hx hi
  rw [← header_eq_shift] at hi
  obtain ⟨hleading, hafter⟩ := leadingWords_map_append (op.header :: ws) (is := x :: rest)
    fun w _ e => hx w (List.cons.inj e).1
  rw [List.map_cons, List.cons_append, ← hi] at hleading hafter
  have hstep : step s = awaitWords s :=
    step_of_incomplete hready.faulted hready.refused hi hready.busy_eq_false
      (hleading ▸ decode_header_short hlen)
  rw [hstep, awaitWords, hafter]
  cases x with
  | word w => exact absurd rfl (hx w)
  | reset =>
    refine ⟨fun _ => ?_, fun hne => absurd rfl hne⟩
    rw [step_of_reset (s := { s with inbox := .reset :: rest }) hready.faulted hready.refused rfl]
    rfl
  | ackSleep | readResponse | writeSrc => exact ⟨nofun, fun _ => rfl⟩

end Sys2Proof.Machine

namespace Sys2Proof.Machine

/-! ### Operands in the range of their types (30_encoding.md R72, R78) -/

/-- A u32 operand that a command holds is in range exactly when it fits its word. -/
@[simp] theorem inRange_u32_natCast (n : Nat) : inRange .u32 n = isU32 n := by
  simp [inRange]

@[simp] theorem inRange_s32 (v : Int) : inRange .s32 v = isS32 v := rfl

/-- The ranges of R78 in numbers. -/
theorem inRange_iff (t : OperandType) (v : Int) :
    inRange t v = true ↔
      match t with
      | .s32 => -2147483648 ≤ v ∧ v < 2147483648
      | .u32 => 0 ≤ v ∧ v < 4294967296 := by
  cases t with
  | s32 => simp [isS32]
  | u32 =>
    simp only [inRange, isU32, Bool.and_eq_true, decide_eq_true_eq]
    omega

/-- A command is well formed exactly when its operands are in the ranges of its row's types. -/
theorem wf_iff_operandsInRange (i : Instr) :
    i.wf = true ↔ OperandsInRange i.opcode.operandTypes i.operands := by
  cases i <;>
    simp [Instr.wf, Instr.opcode, Instr.operands, Opcode.operandTypes, OperandsInRange, and_assoc]

/-- Two values in the range of a type are told apart by their words. -/
theorem eq_of_wordOfInt_eq {t : OperandType} {u v : Int} (hu : inRange t u = true)
    (hv : inRange t v = true) (h : wordOfInt u = wordOfInt v) : u = v := by
  cases t with
  | s32 => rw [← s32_wordOfInt hu, h, s32_wordOfInt hv]
  | u32 =>
    lift u to Nat using ((inRange_iff _ _).mp hu).1
    lift v to Nat using ((inRange_iff _ _).mp hv).1
    rw [inRange_u32_natCast] at hu hv
    rw [← u32_wordOfInt hu, h, u32_wordOfInt hv]

/-- Operands in range are told apart by their words. -/
theorem operandsInRange_ext {ts : List OperandType} {us vs : List Int} (hu : OperandsInRange ts us)
    (hv : OperandsInRange ts vs) (h : us.map wordOfInt = vs.map wordOfInt) : us = vs := by
  induction hu generalizing vs with
  | nil => cases hv; rfl
  | @cons t u ts us ht hts ih =>
    cases hv with
    | @cons _ v _ vs hv hvs =>
      rw [List.map_cons, List.map_cons, List.cons.injEq] at h
      obtain ⟨hword, hwords⟩ := h
      rw [eq_of_wordOfInt_eq ht hv hword, ih hvs hwords]

/-- Operand words make a command of a row exactly when they are as many as it announces
(30_encoding.md R74, R75). -/
theorem isSome_buildInstr (op : Opcode) (ws : List Word) :
    (buildInstr op ws).isSome = (ws.length == op.operandCount) := by
  rcases ws with _ | ⟨a, _ | ⟨b, _ | ⟨c, _ | ⟨d, _ | ⟨e, _ | ⟨f, _ | ⟨g, _ | ⟨j, _ | ⟨k, _ |
    ⟨l, ws⟩⟩⟩⟩⟩⟩⟩⟩⟩⟩ <;> cases op <;> rfl

/-- Operands in the ranges of a row's types are the operands of a command of that row. -/
theorem exists_instr_of_operandsInRange {op : Opcode} {vs : List Int}
    (h : OperandsInRange op.operandTypes vs) :
    ∃ i : Instr, i.opcode = op ∧ i.operands = vs := by
  have hlen : (vs.map wordOfInt).length = op.operandCount := by
    rw [List.length_map, ← h.length_eq, Opcode.operandCount]
  obtain ⟨i, hi⟩ := Option.isSome_iff_exists.mp
    ((isSome_buildInstr op (vs.map wordOfInt)).trans (beq_iff_eq.mpr hlen))
  obtain ⟨rfl, hwf, hwords, -⟩ := buildInstr_eq_some hi
  exact ⟨i, rfl, operandsInRange_ext ((wf_iff_operandsInRange i).mp hwf) h hwords.symm⟩

/-! ### What a line assembles to (30_encoding.md R78, log entry 24) -/

/-- A text is an operand of one value at most. -/
theorem IsOperand.value_unique {t : List Char} {u v : Int} (hu : IsOperand t u)
    (hv : IsOperand t v) : u = v := by
  rw [← parseNumber_trimBlanks] at hu hv
  exact Option.some.inj (hu.symm.trans hv)

theorem operandTexts_values_unique {texts : List (List Char)} {us vs : List Int}
    (hu : List.Forall₂ IsOperand texts us) (hv : List.Forall₂ IsOperand texts vs) : us = vs := by
  induction hu generalizing vs with
  | nil => cases hv; rfl
  | cons h _ ih =>
    cases hv with
    | cons h' hs' => rw [h.value_unique h', ih hs']

/-- The first operand out of its range is the error, where there are as many as there should be. -/
theorem assembleOperands_outOfRange {ts : List OperandType} {texts : List (List Char)}
    {vs : List Int} (hf : List.Forall₂ IsOperand texts vs) (hlen : vs.length = ts.length)
    (hr : ¬OperandsInRange ts vs) : assembleOperands ts texts = .error .outOfRange := by
  induction hf generalizing ts with
  | nil =>
    rw [List.length_eq_zero_iff.mp hlen.symm] at hr
    exact absurd .nil hr
  | @cons text v texts vs hv _ ih =>
    cases ts with
    | nil => cases hlen
    | cons t ts =>
      rw [assembleOperands, (parseNumber_trimBlanks text v).mpr hv]
      by_cases ht : inRange t v = true
      · have hrest : ¬OperandsInRange ts vs := fun hvs => hr (.cons ht hvs)
        simp only [ht, if_true, ih (Nat.succ.inj hlen) hrest]
      · simp only [ht, Bool.false_eq_true, if_false]

/-- A mnemonic's operand texts are assembled against its row's types. -/
theorem assembleParts_of_isMnemonic {name : List Char} {op : Opcode} (h : IsMnemonic name op)
    (area : List Char) :
    assembleParts name area =
      (assembleOperands op.operandTypes (operandTexts area)).map (op.header :: ·) := by
  simp only [assembleParts, (find_mnemonic name op).mpr h]
  cases assembleOperands op.operandTypes (operandTexts area) <;> rfl

/-- A line that names a row and operands is assembled as those operands against that row. -/
theorem assembleLine_of_isCommandLine {text : List Char} {op : Opcode} {vs : List Int}
    (h : IsCommandLine text op vs) :
    ∃ texts, List.Forall₂ IsOperand texts vs ∧
      assembleLine text = (assembleOperands op.operandTypes texts).map (op.header :: ·) := by
  obtain ⟨pre, name, area, comment, rfl, hpre, hname, hops, hcomment⟩ := h
  obtain ⟨hne, hchars⟩ := hname.chars
  obtain ⟨hhead, harea⟩ := hops.chars
  refine ⟨operandTexts area, (isOperandList_iff hhead vs).mp hops, ?_⟩
  rw [assembleLine_of_parts hpre hne hchars harea hhead hcomment, assembleParts_of_isMnemonic hname]

/-- The mnemonic and the operands of the parts that assemble, and to which words. -/
theorem assembleParts_eq_ok {name area : List Char} {ws : List Word}
    (hhead : area = [] ∨ ∃ b, area.head? = some b ∧ isBlank b = true)
    (h : assembleParts name area = .ok ws) :
    ∃ op vs, IsMnemonic name op ∧ IsOperandList area vs ∧ OperandsInRange op.operandTypes vs ∧
      ws = op.header :: vs.map wordOfInt := by
  cases hfind : Opcode.all.find? fun op => opcodeMnemonic op == name.map toCapital with
  | none => rw [assembleParts, hfind] at h; cases h
  | some op =>
    have hname := (find_mnemonic name op).mp hfind
    rw [assembleParts_of_isMnemonic hname] at h
    cases hops : assembleOperands op.operandTypes (operandTexts area) with
    | error e => rw [hops] at h; cases h
    | ok words =>
      obtain ⟨vs, hvs, hrange, rfl⟩ := (assembleOperands_eq_ok _ _ _).mp hops
      rw [hops] at h
      exact ⟨op, vs, hname, (isOperandList_iff hhead vs).mpr hvs, hrange, (Except.ok.inj h).symm⟩

/-- Settles O7: a line is blank or cut into its parts, which assemble exactly when they name a row
and operands in its ranges; those are the operands of a command of that row. -/
theorem assembledLineIsCommand : Obligations.AssembledLineIsCommand := by
  intro text ws
  constructor
  · intro h
    rcases line_parts text with hblank |
      ⟨pre, name, area, comment, rfl, hpre, hne, hchars, harea, hhead, hcomment⟩
    · rw [assembleLine_of_blank hblank] at h
      exact .inl ⟨(Except.ok.inj h).symm, hblank⟩
    · rw [assembleLine_of_parts hpre hne hchars harea hhead hcomment] at h
      obtain ⟨op, vs, hname, hops, hrange, rfl⟩ := assembleParts_eq_ok hhead h
      obtain ⟨i, rfl, rfl⟩ := exists_instr_of_operandsInRange hrange
      exact .inr ⟨i, rfl, (wf_iff_operandsInRange i).mpr hrange,
        pre, name, area, comment, rfl, hpre, hname, hops, hcomment⟩
  · rintro (⟨rfl, hblank⟩ | ⟨i, rfl, hwf, hline⟩)
    · exact assembleLine_of_blank hblank
    · obtain ⟨texts, htexts, hasm⟩ := assembleLine_of_isCommandLine hline
      have hops : assembleOperands i.opcode.operandTypes texts = .ok (i.operands.map wordOfInt) :=
        (assembleOperands_eq_ok _ _ _).mpr
          ⟨i.operands, htexts, (wf_iff_operandsInRange i).mp hwf, rfl⟩
      rw [hasm, hops]
      rfl

/-- Settles O58: operands that assemble are as many as the row has, and where they are as many, one
out of its range is the error. -/
theorem assemblerErrors : Obligations.AssemblerErrors := by
  intro text op vs hline
  obtain ⟨texts, htexts, hasm⟩ := assembleLine_of_isCommandLine hline
  rw [hasm]
  constructor
  · intro hlen
    cases hops : assembleOperands op.operandTypes texts with
    | error e => exact ⟨e, rfl⟩
    | ok ws =>
      obtain ⟨us, hus, hrange, -⟩ := (assembleOperands_eq_ok _ _ _).mp hops
      rw [operandTexts_values_unique hus htexts] at hrange
      exact absurd hrange.length_eq.symm hlen
  · rintro hlen ⟨⟨t, v⟩, hmem, hout⟩
    have hr : ¬OperandsInRange op.operandTypes vs := fun hr =>
      hout ((inRange_iff t v).mp ((List.forall₂_iff_zip.mp hr).2 hmem))
    rw [assembleOperands_outOfRange htexts hlen hr]
    rfl

end Sys2Proof.Machine

namespace Sys2Proof.Machine

/-! ### Plotting and reading one point (40_pixelstore.md R100 to R102) -/

/-- A field of a byte as a number (20_memory.md R51). -/
theorem getField_toNat (b : Byte) (shift : Nat) :
    (getField b shift).toNat = b.toNat / 2 ^ shift % 4 := by
  rw [getField, BitVec.toNat_and, BitVec.toNat_ushiftRight, Nat.shiftRight_eq_div_pow]
  exact Nat.and_two_pow_sub_one_eq_mod _ 2

/-- A level of two bits is stored as it is (40_pixelstore.md R101). -/
theorem storedLevel_of_range {level : Int} (h0 : 0 ≤ level) (h3 : level ≤ 3) :
    storedLevel level = level :=
  Int.emod_eq_of_lt h0 (by omega)

theorem readPixel_plotPixel_same {o : Orient} {x y : Int} (level : Int) (fb : Mem)
    (h : onScreen (mirror o x y) = true) :
    readPixel o x y (plotPixel o x y level fb) = storedLevel level := by
  simp [(plotPixel_painted o x y level fb).pixels x y h]

theorem readPixel_plotPixel_other (o : Orient) {x y x' y' : Int} (level : Int) (fb : Mem)
    (hne : (x', y') ≠ (x, y)) :
    readPixel o x y (plotPixel o x' y' level fb) = readPixel o x y fb := by
  by_cases h : onScreen (mirror o x y) = true
  · have hpoint : ¬(x = x' ∧ y = y') := fun ⟨hx, hy⟩ => hne (by rw [hx, hy])
    simp [(plotPixel_painted o x' y' level fb).pixels x y h, hpoint]
  · rw [readPixel_offScreen _ h, readPixel_offScreen _ h]

/-- Plotting depends on the physical point alone (40_pixelstore.md R101). -/
theorem plotPixel_congr {o o' : Orient} {x y x' y' : Int} (h : mirror o x y = mirror o' x' y')
    (level : Int) (fb : Mem) : plotPixel o x y level fb = plotPixel o' x' y' level fb := by
  simp only [plotPixel, h]

/-- Reading depends on the physical point alone (40_pixelstore.md R102). -/
theorem readPixel_congr {o o' : Orient} {x y x' y' : Int} (h : mirror o x y = mirror o' x' y')
    (fb : Mem) : readPixel o x y fb = readPixel o' x' y' fb := by
  simp only [readPixel, h]

/-- With no mirroring the logical point is the physical one (40_pixelstore.md R100). -/
@[simp] theorem mirror_none (x y : Int) : mirror ⟨false, false⟩ x y = (x, y) := rfl

/-- A point on the screen of a filled framebuffer reads the fill's field. -/
theorem readPixel_fill {o : Orient} {x y : Int} (b : Byte) (h : onScreen (mirror o x y) = true) :
    readPixel o x y (Mem.fill Config.fbBytes b) =
      ((getField b (pixelShift (mirror o x y))).toNat : Int) := by
  rw [readPixel_onScreen _ h, Mem.read_fill, if_pos (pixelAddr_lt h)]

/-- Above the bound on its addresses a store reads as `0x00`. -/
theorem Mem.read_of_below {m : Mem} {n a : Nat} (h : Mem.below m n = true) (ha : n ≤ a) :
    Mem.read m a = 0#8 := by
  rw [Mem.below_iff] at h
  induction m with
  | nil => rfl
  | cons c m ih =>
    have hc : c.1 ≠ a := Nat.ne_of_lt ((h c (List.mem_cons_self ..)).trans_le ha)
    rw [Mem.read_cons, if_neg hc]
    exact ih fun d hd => h d (List.mem_cons_of_mem _ hd)

/-! ### The bytes of a snapshot (60_exceptions.md R210) -/

@[simp] theorem length_fbBytes (fb : Mem) : (fbBytes fb).length = Config.fbBytes := by
  simp [fbBytes]

theorem getElem?_fbBytes (fb : Mem) {a : Nat} (h : a < Config.fbBytes) :
    (fbBytes fb)[a]? = some (Mem.read fb a) := by
  rw [fbBytes, List.getElem?_map, List.getElem?_range h, Option.map_some]

/-! ### The PixelStore commands (40_pixelstore.md R103 to R107) -/

/-- `SETPT` plots the point and moves the cursor to it (40_pixelstore.md R103). -/
theorem exec_setpt (x y level : Int) (s : State) :
    exec (.setpt x y level) s =
      .next { s with
        fb := plotPixel s.orient x y level s.fb, curX := x, curY := y
        res := 0#32, response := some 0#32 } :=
  rfl

/-- `GETPT` answers what `ReadPixel` reads (40_pixelstore.md R104). -/
theorem exec_getpt {x y v : Int} {s : State} (h : readPixel s.orient x y s.fb = v) :
    exec (.getpt x y) s =
      .next { s with res := BitVec.ofInt 32 v, response := some (BitVec.ofInt 32 v) } :=
  h ▸ rfl

/-- What `SETPT` leaves in the pixels and the orientation (40_pixelstore.md R103). -/
theorem exec_setpt_next {x y level : Int} {s t : State}
    (h : exec (.setpt x y level) s = .next t) :
    t.fb = plotPixel s.orient x y level s.fb ∧ t.orient = s.orient := by
  obtain rfl := complete_eq_next.mp h
  exact ⟨rfl, rfl⟩

/-- `FLUSH` emits a copy of the framebuffer (40_pixelstore.md R107). -/
theorem exec_flush (s : State) :
    exec .flush s =
      .next { s with
        events := s.events ++ [.flush s.fb], res := 0#32, response := some 0#32 } :=
  rfl

/-- Settles O8: `SETPT` is `PlotPixel`, whose drawing `plotPixel_painted` gives. -/
theorem setptResult : Obligations.SetptResult := fun x y level s =>
  ⟨plotPixel s.orient x y level s.fb, exec_setpt x y level s,
    plotPixel_painted s.orient x y level s.fb,
    fun hoff => plotPixel_offScreen level s.fb (by simp [hoff])⟩

/-- Settles O9: `GETPT` is `ReadPixel`, whose value on screen is a field of a byte. -/
theorem getptResult : Obligations.GetptResult := by
  intro x y s
  refine ⟨readPixel s.orient x y s.fb, exec_getpt rfl,
    fun hoff => readPixel_offScreen s.fb (by simp [hoff]), fun hon => ?_⟩
  rw [readPixel_onScreen s.fb hon, getField_toNat]
  push_cast
  rfl

/-- Settles O10: a plotted point reads back, and plotting another point does not change what it
reads. -/
theorem pixelRoundTrip : Obligations.PixelRoundTrip := by
  intro x y level s t ht
  obtain ⟨htfb, hto⟩ := exec_setpt_next ht
  refine ⟨fun hon h0 h3 => ?_, fun hoff => ?_⟩
  · have hread : readPixel t.orient x y t.fb = level := by
      rw [htfb, hto, readPixel_plotPixel_same level s.fb hon, storedLevel_of_range h0 h3]
    refine ⟨exec_getpt hread, fun x' y' level' u hne hu => exec_getpt ?_⟩
    obtain ⟨hufb, huo⟩ := exec_setpt_next hu
    rw [hufb, huo, readPixel_plotPixel_other t.orient level' t.fb hne, hread]
  · have hoff' : onScreen (mirror s.orient x y) ≠ true := by simp [hoff]
    have hread : readPixel t.orient x y t.fb = -1 := by rw [hto, readPixel_offScreen t.fb hoff']
    exact ⟨htfb.trans (plotPixel_offScreen level s.fb hoff'), exec_getpt hread⟩

/-- Settles O13: the four modes in turn, and any other mode is outside the range that `SETORI`
tests. -/
theorem setoriResult : Obligations.SetoriResult := by
  intro mode s
  by_cases hmode : mode = 0 ∨ mode = 1 ∨ mode = 2 ∨ mode = 3
  · rw [if_pos hmode]
    rcases hmode with rfl | rfl | rfl | rfl <;> rfl
  · rw [if_neg hmode]
    exact if_neg (by omega)

/-- What a mode of `SETORI` leaves in the pixels and the orientation (40_pixelstore.md R106). -/
theorem exec_setori_next {mode : Int} {s t : State}
    (hmode : mode = 0 ∨ mode = 1 ∨ mode = 2 ∨ mode = 3) (h : exec (.setori mode) s = .next t) :
    t.fb = s.fb ∧ t.orient = ⟨decide (mode = 1 ∨ mode = 3), decide (mode = 2 ∨ mode = 3)⟩ := by
  rw [setoriResult, if_pos hmode] at h
  obtain rfl := Host.Outcome.next.inj h
  exact ⟨rfl, rfl⟩

/-- The orientation of a mirroring mode maps a point to the mirrored point of section 3
(40_pixelstore.md R100, R106). -/
theorem mirror_of_mode {mode : Int} (hmode : mode = 1 ∨ mode = 2 ∨ mode = 3) (x y : Int) :
    mirror ⟨decide (mode = 1 ∨ mode = 3), decide (mode = 2 ∨ mode = 3)⟩ x y =
      (if mode = 2 then x else 191 - x, if mode = 1 then y else 95 - y) := by
  rcases hmode with rfl | rfl | rfl <;> rfl

/-- Settles O11: the mirrored point is the physical point of the unmirrored one, and plotting and
reading depend on the physical point alone. -/
theorem orientationProperty : Obligations.OrientationProperty := by
  intro mode x y level s a b c d e hmode ha hb hc hd he
  obtain ⟨hafb, hao⟩ := exec_setori_next (.inr hmode) ha
  obtain ⟨hbfb, hbo⟩ := exec_setpt_next hb
  obtain ⟨hcfb, hco⟩ := exec_setori_next (.inl rfl) hc
  obtain ⟨hdfb, hdo⟩ := exec_setori_next (.inl rfl) hd
  obtain ⟨hefb, -⟩ := exec_setpt_next he
  have hp := mirror_of_mode hmode x y
  rw [← hao] at hp
  generalize (if mode = 2 then x else 191 - x) = px at *
  generalize (if mode = 1 then y else 95 - y) = py at *
  have hplot : b.fb = plotPixel ⟨false, false⟩ px py level s.fb := by
    rw [hbfb, hafb, plotPixel_congr (hp.trans (mirror_none px py).symm)]
  refine ⟨?_, fun hon h0 h3 => exec_getpt ?_, ?_⟩
  · rw [hplot, hefb, hdfb, hdo]
    rfl
  · have hon' : onScreen (mirror ⟨false, false⟩ px py) = true := by
      rw [mirror_none, ← hp, onScreen_mirror]
      exact hon
    rw [hcfb, hco, hplot]
    exact (readPixel_plotPixel_same level s.fb hon').trans (storedLevel_of_range h0 h3)
  · have hback : mirror b.orient px py = (x, y) := by
      rw [hbo]
      simpa only [hp] using mirror_mirror a.orient (x, y)
    exact readPixel_congr hback b.fb

/-- Every field of the byte that `CLEAR` fills with is all ones or all zeros. -/
theorem getField_clear (level : Int) (p : Int × Int) :
    ((getField (if level ≠ 0 then 0xFF#8 else 0x00#8) (pixelShift p)).toNat : Int) =
      if level = 0 then 0 else 3 := by
  rcases pixelShift_cases p with h | h | h | h <;> by_cases hl : level = 0 <;>
    simp [h, hl, getField]

/-- Settles O12: `CLEAR` is a byte fill, so a read below the fill's bound gives its byte. -/
theorem clearResult : Obligations.ClearResult := by
  intro level s
  refine ⟨Mem.fill Config.fbBytes (if level ≠ 0 then 0xFF#8 else 0x00#8), rfl,
    fun a ha => ?_, fun hbelow a ha => ?_, fun x y hon => ?_⟩
  · have hsize : a < Config.fbBytes := ha
    rw [Mem.read_fill, if_pos hsize, ite_not]
  · rw [Mem.read_of_below (Mem.below_fill Config.fbBytes _) ha, Mem.read_of_below hbelow ha]
  · rw [readPixel_fill _ hon, getField_clear]

/-- Settles O14: `FLUSH` appends the framebuffer to the events, and keeps it. -/
theorem flushResult : Obligations.FlushResult := by
  intro s
  refine ⟨_, exec_flush s, rfl, ?_, length_fbBytes s.fb, fun r c hr hc => ?_⟩
  · rw [exec_flush]
    simp
  · refine getElem?_fbBytes s.fb ?_
    change r * 192 + c < 4608
    omega

end Sys2Proof.Machine

namespace Sys2Proof.Machine

/-! ### The line loop (41_rasterizer.md R120)

Along a line that is at least as wide as it is high, every round steps one column, because the error
value stays in a fixed range. A line that is higher than wide is such a line with the axes
swapped. -/

/-- The error value of the line loop where `k` columns and `m` rows are left, on a line at least as
wide as it is high. -/
structure ShallowError (dx dy : Int) (k : Nat) (m err : Int) : Prop where
  value : err = dx - dy + k * dy - m * dx
  lower : -dy < 2 * err
  upper : 2 * err < 3 * dx - 2 * dy

theorem ShallowError.start {dx dy : Int} {k : Nat} (hk : dx = k) (hdx : 0 < dx) (hle : dy ≤ dx) :
    ShallowError dx dy k dy (dx - dy) :=
  ⟨by rw [← hk]; ring, by omega, by omega⟩

/-- At the end column of a line no row is left. -/
theorem ShallowError.rows_eq_zero {dx dy m err : Int} (h : ShallowError dx dy 0 m err)
    (hdx : 0 < dx) (hdy : 0 ≤ dy) : m = 0 := by
  obtain ⟨hvalue, hlower, hupper⟩ := h
  push_cast at hvalue
  have hlt : m < 1 := by nlinarith
  have hgt : -1 < m := by nlinarith
  omega

/-- One column further the error value is in range again, with a row less where the round stepped
one. -/
theorem ShallowError.next {dx dy m err : Int} {k : Nat} (h : ShallowError dx dy (k + 1) m err)
    (hdy : 0 ≤ dy) (hle : dy ≤ dx) :
    ShallowError dx dy k (if 2 * err < dx then m - 1 else m)
      (err - dy + if 2 * err < dx then dx else 0) := by
  obtain ⟨hvalue, hlower, hupper⟩ := h
  push_cast at hvalue
  split <;> exact ⟨by rw [hvalue]; ring, by omega, by omega⟩

/-- At its end point the line loop plots the point and ends. -/
theorem lineLoop_end (x1 y1 dx dy sx sy err : Int) (n : Nat) :
    lineLoop x1 y1 dx dy sx sy (n + 1) err x1 y1 = [(x1, y1)] := by
  rw [lineLoop, if_pos ⟨rfl, rfl⟩]

/-- A round of the line loop that steps one column. -/
theorem lineLoop_stepX {x1 y1 dx dy sx sy err x y : Int} (n : Nat) (hne : x ≠ x1)
    (hstep : -dy < 2 * err) :
    lineLoop x1 y1 dx dy sx sy (n + 1) err x y =
      (x, y) :: lineLoop x1 y1 dx dy sx sy n (err - dy + if 2 * err < dx then dx else 0) (x + sx)
        (if 2 * err < dx then y + sy else y) := by
  rw [lineLoop, if_neg fun hend => hne hend.1]
  simp [hstep]

/-- A list of `k + 1` distinct points from `p` to `q`. -/
structure IsWalk (p q : Int × Int) (k : Nat) (ps : List (Int × Int)) : Prop where
  length : ps.length = k + 1
  nodup : ps.Nodup
  head : ps.head? = some p
  last : ps.getLast? = some q

/-- A list of points with one point in each column from that of `p` to that of `q`. -/
structure IsColumnWalk (p q : Int × Int) (sx : Int) (k : Nat) (ps : List (Int × Int)) : Prop where
  columns : ps.map Prod.fst = (List.range (k + 1)).map fun i : Nat => p.1 + sx * i
  head : ps.head? = some p
  last : ps.getLast? = some q

theorem IsColumnWalk.single (p : Int × Int) (sx : Int) : IsColumnWalk p p sx 0 [p] :=
  ⟨by simp, rfl, rfl⟩

theorem IsColumnWalk.cons {p q r : Int × Int} {sx : Int} {k : Nat} {ps : List (Int × Int)}
    (h : IsColumnWalk q r sx k ps) (hq : q.1 = p.1 + sx) :
    IsColumnWalk p r sx (k + 1) (p :: ps) := by
  obtain ⟨hcolumns, -, hlast⟩ := h
  refine ⟨?_, rfl, by rw [List.getLast?_cons, hlast]; rfl⟩
  rw [List.map_cons, hcolumns, List.range_succ_eq_map (n := k + 1), List.map_cons, List.map_map, hq]
  congr 1
  · simp
  · refine List.map_congr_left fun i _ => ?_
    simp only [Function.comp_apply]
    push_cast
    ring

theorem IsColumnWalk.isWalk {p q : Int × Int} {sx : Int} {k : Nat} {ps : List (Int × Int)}
    (h : IsColumnWalk p q sx k ps) (hsx : sx ≠ 0) : IsWalk p q k ps := by
  obtain ⟨hcolumns, hhead, hlast⟩ := h
  refine ⟨by simpa using congrArg List.length hcolumns, .of_map Prod.fst ?_, hhead, hlast⟩
  rw [hcolumns]
  refine List.nodup_range.map fun i j hij => ?_
  have hmul : sx * (i : Int) = sx * j := by simpa using hij
  exact_mod_cast mul_left_cancel₀ hsx hmul

/-- The line loop, `k` columns from its end: one point in each column, whatever the bound on rounds
past that. -/
theorem exists_columnWalk_lineLoop {x1 y1 dx dy sx sy : Int} (hdx : 0 < dx) (hdy : 0 ≤ dy)
    (hle : dy ≤ dx) (hsx : sx ≠ 0) (k : Nat) (m err x y : Int) (hx : x1 = x + sx * k)
    (hy : y1 = y + sy * m) (herr : ShallowError dx dy k m err) :
    ∃ ps, IsColumnWalk (x, y) (x1, y1) sx k ps ∧
      ∀ n, k + 1 ≤ n → lineLoop x1 y1 dx dy sx sy n err x y = ps := by
  induction k generalizing m err x y with
  | zero =>
    obtain rfl : x1 = x := by simpa using hx
    obtain rfl : y1 = y := by simpa [herr.rows_eq_zero hdx hdy] using hy
    refine ⟨_, .single _ sx, fun n hn => ?_⟩
    obtain ⟨n, rfl⟩ := Nat.exists_eq_add_of_le' hn
    exact lineLoop_end ..
  | succ k ih =>
    have hne : x ≠ x1 := by
      have hk : sx * ((k + 1 : Nat) : Int) ≠ 0 := mul_ne_zero hsx (by omega)
      omega
    obtain ⟨ps, hwalk, hps⟩ := ih _ _ (x + sx) (if 2 * err < dx then y + sy else y)
      (by rw [hx]; push_cast; ring) (by rw [hy]; split <;> ring) (herr.next hdy hle)
    refine ⟨_, hwalk.cons rfl, fun n hn => ?_⟩
    obtain ⟨n, rfl⟩ := Nat.exists_eq_add_of_le' hn
    rw [← Nat.add_assoc, lineLoop_stepX _ hne herr.lower, hps _ (by omega)]

/-- The line loop with the axes swapped. -/
theorem map_swap_lineLoop (x1 y1 dx dy sx sy : Int) (n : Nat) (err x y : Int) :
    (lineLoop x1 y1 dx dy sx sy n err x y).map Prod.swap =
      lineLoop y1 x1 dy dx sy sx n (-err) y x := by
  induction n generalizing err x y with
  | zero => rfl
  | succ n ih =>
    have hstepX : decide (-dy < 2 * err) = decide (2 * -err < dy) := by
      rw [decide_eq_decide]; omega
    have hstepY : decide (2 * err < dx) = decide (-dx < 2 * -err) := by
      rw [decide_eq_decide]; omega
    rw [lineLoop, lineLoop, List.map_cons, apply_ite (List.map Prod.swap), List.map_nil, ih,
      hstepX, hstepY]
    simp only [Prod.swap_prod_mk, and_comm (a := x = x1)]
    congr 4
    split <;> split <;> ring

theorem IsWalk.swap {p q : Int × Int} {k : Nat} {ps : List (Int × Int)} (h : IsWalk p q k ps) :
    IsWalk p.swap q.swap k (ps.map Prod.swap) :=
  ⟨by simp [h.length], h.nodup.map Prod.swap_injective, by simp [h.head], by simp [h.last]⟩

/-- The loop of `DrawLine(x0, y0, x1, y1, c)` for at most `n` rounds. -/
def lineRounds (x0 y0 x1 y1 : Int) (n : Nat) : List (Int × Int) :=
  lineLoop x1 y1 (x1 - x0).natAbs (y1 - y0).natAbs (lineSign x0 x1) (lineSign y0 y1) n
    ((x1 - x0).natAbs - (y1 - y0).natAbs) x0 y0

theorem linePoints_eq_lineRounds (x0 y0 x1 y1 : Int) :
    linePoints x0 y0 x1 y1 =
      lineRounds x0 y0 x1 y1 (max (x1 - x0).natAbs (y1 - y0).natAbs + 1) := by
  rw [linePoints, lineRounds]
  congr 2
  omega

theorem map_swap_lineRounds (x0 y0 x1 y1 : Int) (n : Nat) :
    (lineRounds x0 y0 x1 y1 n).map Prod.swap = lineRounds y0 x0 y1 x1 n := by
  rw [lineRounds, map_swap_lineLoop, neg_sub, lineRounds]

theorem lineSign_ne_zero (a b : Int) : lineSign a b ≠ 0 := by
  unfold lineSign
  split <;> decide

theorem eq_add_lineSign_mul (a b : Int) : b = a + lineSign a b * (b - a).natAbs := by
  unfold lineSign
  split <;> omega

/-- A line at least as wide as it is high, and not a point. -/
theorem exists_walk_lineRounds_shallow {x0 y0 x1 y1 : Int} (hx : 0 < (x1 - x0).natAbs)
    (hle : (y1 - y0).natAbs ≤ (x1 - x0).natAbs) :
    ∃ ps, IsWalk (x0, y0) (x1, y1) (x1 - x0).natAbs ps ∧
      ∀ n, (x1 - x0).natAbs + 1 ≤ n → lineRounds x0 y0 x1 y1 n = ps := by
  obtain ⟨ps, hwalk, hps⟩ := exists_columnWalk_lineLoop (by omega) (by omega) (by omega)
    (lineSign_ne_zero x0 x1) _ _ _ x0 y0 (eq_add_lineSign_mul x0 x1) (eq_add_lineSign_mul y0 y1)
    (.start rfl (by omega) (by omega))
  exact ⟨ps, hwalk.isWalk (lineSign_ne_zero x0 x1), hps⟩

/-- Every line is a walk from its first end to its second, whatever the bound on rounds past its
length: a point, a line at least as wide as it is high, or such a line with the axes swapped. -/
theorem exists_walk_lineRounds (x0 y0 x1 y1 : Int) :
    ∃ ps, IsWalk (x0, y0) (x1, y1) (max (x1 - x0).natAbs (y1 - y0).natAbs) ps ∧
      ∀ n, max (x1 - x0).natAbs (y1 - y0).natAbs + 1 ≤ n → lineRounds x0 y0 x1 y1 n = ps := by
  rcases Nat.lt_or_ge (x1 - x0).natAbs (y1 - y0).natAbs with hsteep | hshallow
  · rw [Nat.max_eq_right hsteep.le]
    obtain ⟨ps, hwalk, hps⟩ :=
      exists_walk_lineRounds_shallow (x0 := y0) (y0 := x0) (by omega) hsteep.le
    exact ⟨_, hwalk.swap, fun n hn => by rw [← map_swap_lineRounds, hps n hn]⟩
  · rw [Nat.max_eq_left hshallow]
    rcases Nat.eq_zero_or_pos (x1 - x0).natAbs with hpoint | hpos
    · obtain rfl : x1 = x0 := by omega
      obtain rfl : y1 = y0 := by omega
      refine ⟨[(x1, y1)], ⟨by simp, by simp, rfl, rfl⟩, fun n hn => ?_⟩
      obtain ⟨n, rfl⟩ := Nat.exists_eq_add_of_le' hn
      rw [lineRounds, ← Nat.add_assoc, lineLoop_end]
    · exact exists_walk_lineRounds_shallow hpos hshallow

/-- The points of a line are a walk from its first end to its second. -/
theorem linePoints_isWalk (x0 y0 x1 y1 : Int) :
    IsWalk (x0, y0) (x1, y1) (max (x1 - x0).natAbs (y1 - y0).natAbs) (linePoints x0 y0 x1 y1) := by
  obtain ⟨ps, hwalk, hps⟩ := exists_walk_lineRounds x0 y0 x1 y1
  rwa [linePoints_eq_lineRounds, hps _ le_rfl]

/-- The loop of a line ends by its own test. -/
theorem lineRounds_eq_linePoints {x0 y0 x1 y1 : Int} {n : Nat}
    (hn : max (x1 - x0).natAbs (y1 - y0).natAbs + 1 ≤ n) :
    lineRounds x0 y0 x1 y1 n = linePoints x0 y0 x1 y1 := by
  obtain ⟨ps, -, hps⟩ := exists_walk_lineRounds x0 y0 x1 y1
  rw [linePoints_eq_lineRounds, hps n hn, hps _ le_rfl]

/-- Settles O15: the points of a line are a walk, and more rounds add nothing to it. -/
theorem linePointsReachEnd : Obligations.LinePointsReachEnd := by
  intro x0 y0 x1 y1
  obtain ⟨hlength, hnodup, hhead, hlast⟩ := linePoints_isWalk x0 y0 x1 y1
  exact ⟨hlength, hnodup, hhead, hlast, fun n hn => lineRounds_eq_linePoints hn⟩

/-! ### `LINE` and `LINETO` (41_rasterizer.md R121, R122, R131) -/

/-- `LINE` draws its line and moves the cursor to its end (41_rasterizer.md R121). -/
theorem exec_line (x0 y0 x1 y1 colour : Int) (s : State) :
    exec (.line x0 y0 x1 y1 colour) s =
      .next { s with
        fb := drawLine s.orient x0 y0 x1 y1 colour s.fb, curX := x1, curY := y1
        res := 0#32, response := some 0#32 } :=
  rfl

/-- Settles O16: `LINE` is `DrawLine`, whose drawing `drawLine_painted` gives. -/
theorem lineResult : Obligations.LineResult := fun x0 y0 x1 y1 colour s =>
  ⟨_, exec_line x0 y0 x1 y1 colour s, drawLine_painted s.orient x0 y0 x1 y1 colour s.fb⟩

/-- Settles O17: `LINETO` is `LINE` from the cursor. -/
theorem linetoResult : Obligations.LinetoResult :=
  ⟨fun x y colour s => lineResult s.curX s.curY x y colour s, rfl, rfl⟩

/-- A point of a line reads as the line's colour, if it is on the screen. -/
theorem readPixel_drawLine {o : Orient} {x0 y0 x1 y1 x y : Int} (colour : Int) (fb : Mem)
    (hmem : (x, y) ∈ linePoints x0 y0 x1 y1) (hon : onScreen (mirror o x y) = true) :
    readPixel o x y (drawLine o x0 y0 x1 y1 colour fb) = storedLevel colour := by
  rw [(drawLine_painted o x0 y0 x1 y1 colour fb).pixels x y hon, paintPoints, if_pos hmem]

/-- Settles O18: both ends are points of the line, and its points read as its colour. -/
theorem lineEndpointsDrawn : Obligations.LineEndpointsDrawn := by
  intro x0 y0 x1 y1 colour s t hon0 hon1 h0 h3 ht
  obtain ⟨-, -, hhead, hlast⟩ := linePoints_isWalk x0 y0 x1 y1
  obtain rfl := Host.Outcome.next.inj ((exec_line x0 y0 x1 y1 colour s).symm.trans ht)
  have hcolour := storedLevel_of_range h0 h3
  exact ⟨exec_getpt ((readPixel_drawLine colour s.fb (List.mem_of_head? hhead) hon0).trans hcolour),
    exec_getpt ((readPixel_drawLine colour s.fb (List.mem_of_getLast? hlast) hon1).trans hcolour)⟩

end Sys2Proof.Machine

namespace Sys2Proof.Machine

/-! ### Rectangles (41_rasterizer.md R123, R124) -/

theorem rectRejected_iff {s : State} {x1 y1 x2 y2 : Int} :
    rectRejected s x1 y1 x2 y2 = true ↔
      s.params.rectInvertedIsError = true ∧ (x2 < x1 ∨ y2 < y1) := by
  simp [rectRejected, and_comm]

/-- `RECT` plots the points of its four sides (41_rasterizer.md R123). -/
theorem execRect_accepted {x1 y1 x2 y2 : Int} (colour : Int) {s : State}
    (h : ¬rectRejected s x1 y1 x2 y2 = true) :
    execRect x1 y1 x2 y2 colour s =
      .next { s with
        fb := plotPoints s.orient colour
          (linePoints x1 y1 x2 y1 ++ linePoints x2 y1 x2 y2 ++ linePoints x2 y2 x1 y2 ++
            linePoints x1 y2 x1 y1) s.fb
        curX := x1, curY := y1, res := 0#32, response := some 0#32 } := by
  rw [execRect, if_neg h, drawRect_eq]
  rfl

/-- `RECTF` plots the points of its columns (41_rasterizer.md R124). -/
theorem execRectf_accepted {x1 y1 x2 y2 : Int} (colour : Int) {s : State}
    (h : ¬rectRejected s x1 y1 x2 y2 = true) :
    execRectf x1 y1 x2 y2 colour s =
      .next { s with
        fb := plotPoints s.orient colour
          (columnPoints y1 y2 (max x1 x2 + 1 - min x1 x2).toNat (min x1 x2)) s.fb
        curX := max x1 x2, curY := y2, res := 0#32, response := some 0#32 } := by
  rw [execRectf, if_neg h, drawColumns_eq]
  rfl

/-- The columns of a box are the whole box. -/
theorem mem_columnPoints_box {x1 y1 x2 y2 x y : Int} :
    (x, y) ∈ columnPoints y1 y2 (max x1 x2 + 1 - min x1 x2).toNat (min x1 x2) ↔
      inBox x1 y1 x2 y2 x y := by
  simp only [mem_columnPoints, mem_linePoints_vertical, inBox]
  constructor
  · rintro ⟨k, hk, hx, hy⟩
    exact ⟨by omega, hy⟩
  · rintro ⟨hx, hy⟩
    exact ⟨(x - min x1 x2).toNat, by omega, by omega, hy⟩

/-- Settles O19: the four sides of a box are its boundary. -/
theorem rectResult : Obligations.RectResult := by
  intro x1 y1 x2 y2 colour s
  refine ⟨fun h => if_pos (rectRejected_iff.mpr h), fun h => ⟨_, _,
    execRect_accepted colour (rectRejected_iff.not.mpr h), plotPoints_painted .., fun x y => ?_⟩⟩
  simp only [List.mem_append, mem_linePoints_horizontal, mem_linePoints_vertical, onBoundary]
  omega

/-- Settles O20: the columns of a box are the whole box. -/
theorem rectfResult : Obligations.RectfResult := by
  intro x1 y1 x2 y2 colour s
  exact ⟨fun h => if_pos (rectRejected_iff.mpr h), fun h => ⟨_, _,
    execRectf_accepted colour (rectRejected_iff.not.mpr h), plotPoints_painted ..,
    fun x y => mem_columnPoints_box⟩⟩

/-! ### The circle generator (41_rasterizer.md R125) -/

theorem circleLoop_of_lt {x y : Int} (h : y < x) (n : Nat) (d : Int) : circleLoop n x y d = [] := by
  cases n with
  | zero => rfl
  | succ n => rw [circleLoop, if_neg (by omega)]

/-- A round of the circle loop yields its point and goes on one column further, no higher. -/
theorem circleLoop_succ {x y : Int} (h : x ≤ y) (d : Int) :
    ∃ y' d', y' ≤ y ∧ ∀ n, circleLoop (n + 1) x y d = (x, y) :: circleLoop n (x + 1) y' d' := by
  by_cases hd : d < 0
  · exact ⟨y, _, le_rfl, fun n => by rw [circleLoop, if_pos h, if_pos hd]⟩
  · exact ⟨y - 1, _, by omega, fun n => by rw [circleLoop, if_pos h, if_neg hd]⟩

theorem circleLoop_octant {n : Nat} {x y d : Int} {p : Int × Int}
    (hp : p ∈ circleLoop n x y d) : x ≤ p.1 ∧ p.1 ≤ p.2 ∧ p.2 ≤ y := by
  induction n generalizing x y d with
  | zero => simp [circleLoop] at hp
  | succ n ih =>
    rcases lt_or_ge y x with hend | hle
    · simp [circleLoop_of_lt hend] at hp
    · obtain ⟨y', d', hy', hloop⟩ := circleLoop_succ hle d
      rw [hloop, List.mem_cons] at hp
      rcases hp with rfl | hp
      · exact ⟨le_rfl, hle, le_rfl⟩
      · obtain ⟨hx, hxy, hy⟩ := ih hp
        exact ⟨by omega, hxy, by omega⟩

theorem length_circleLoop_le (n : Nat) (x y d : Int) :
    (circleLoop n x y d).length ≤ (y - x + 1).toNat := by
  induction n generalizing x y d with
  | zero => exact Nat.zero_le _
  | succ n ih =>
    rcases lt_or_ge y x with hend | hle
    · simp [circleLoop_of_lt hend]
    · obtain ⟨y', d', hy', hloop⟩ := circleLoop_succ hle d
      have := ih (x + 1) y' d'
      rw [hloop, List.length_cons]
      omega

/-- The circle loop ends by its own test: bounds on its rounds that are large enough agree. -/
theorem circleLoop_rounds {n m : Nat} {x y : Int} (d : Int) (hn : (y - x + 1).toNat ≤ n)
    (hm : (y - x + 1).toNat ≤ m) : circleLoop n x y d = circleLoop m x y d := by
  induction n generalizing m x y d with
  | zero => rw [circleLoop_of_lt (by omega), circleLoop_of_lt (by omega)]
  | succ n ih =>
    rcases lt_or_ge y x with hend | hle
    · rw [circleLoop_of_lt hend, circleLoop_of_lt hend]
    · obtain ⟨m, rfl⟩ : ∃ m', m = m' + 1 := Nat.exists_eq_succ_of_ne_zero (by omega)
      obtain ⟨y', d', hy', hloop⟩ := circleLoop_succ hle d
      rw [hloop, hloop, ih d' (by omega) (m := m) (by omega)]

theorem circleSteps_octant {r : Int} {p : Int × Int} (hp : p ∈ circleSteps r) :
    0 ≤ p.1 ∧ p.1 ≤ p.2 ∧ p.2 ≤ r :=
  circleLoop_octant hp

theorem circleSteps_of_neg {r : Int} (h : r < 0) : circleSteps r = [] :=
  circleLoop_of_lt h _ _

theorem circleSteps_zero : circleSteps 0 = [(0, 0)] := by decide

/-- Settles O21: each round of the generator goes one column further and no higher. -/
theorem circleStepsOctant : Obligations.CircleStepsOctant := by
  intro r
  refine ⟨fun p hp => circleSteps_octant hp, ?_, circleSteps_of_neg, ?_, fun n hn => ?_⟩
  · simpa [circleSteps] using length_circleLoop_le (r.toNat + 1) 0 r (1 - r)
  · rintro rfl
    exact circleSteps_zero
  · exact circleLoop_rounds _ (by omega) (by omega)

/-! ### `CIRCLE` and `CIRCLEF` (41_rasterizer.md R126, R127) -/

theorem mem_circlePoints {cx cy r x y : Int} :
    (x, y) ∈ circlePoints cx cy r ↔ ∃ p ∈ circleSteps r,
      (((x - cx).natAbs : Int) = p.1 ∧ ((y - cy).natAbs : Int) = p.2) ∨
      (((x - cx).natAbs : Int) = p.2 ∧ ((y - cy).natAbs : Int) = p.1) := by
  rw [circlePoints, List.mem_flatMap]
  refine exists_congr fun p => and_congr_right fun hp => ?_
  obtain ⟨hx, hxy, -⟩ := circleSteps_octant hp
  simp only [circleOctants, List.mem_cons, List.not_mem_nil, or_false, Prod.mk.injEq]
  omega

theorem mem_circleFillPoints {cx cy r x y : Int} :
    (x, y) ∈ circleFillPoints cx cy r ↔ ∃ p ∈ circleSteps r,
      (((y - cy).natAbs : Int) = p.2 ∧ ((x - cx).natAbs : Int) ≤ p.1) ∨
      (((y - cy).natAbs : Int) = p.1 ∧ ((x - cx).natAbs : Int) ≤ p.2) := by
  rw [circleFillPoints, List.mem_flatMap]
  refine exists_congr fun p => and_congr_right fun hp => ?_
  obtain ⟨hx, hxy, -⟩ := circleSteps_octant hp
  simp only [circleChords, List.mem_append, mem_chord hx, mem_chord (hx.trans hxy)]
  omega

/-- Settles O22: the octants of a point are the points with its two distances from the centre. -/
theorem circleResult : Obligations.CircleResult := by
  intro cx cy r colour s
  refine ⟨_, circlePoints cx cy r, rfl, plotPoints_painted .., fun x y => mem_circlePoints, ?_, ?_⟩
  · rintro rfl x y
    rw [mem_circlePoints, circleSteps_zero]
    simp only [List.mem_singleton, exists_eq_left]
    omega
  · intro hneg
    rw [circlePoints, circleSteps_of_neg hneg]
    rfl

/-- Settles O23: the chords of a point are the rows at its distances from the centre. -/
theorem circlefResult : Obligations.CirclefResult := by
  intro cx cy r colour s
  refine ⟨_, circleFillPoints cx cy r, rfl, plotPoints_painted .., fun x y => mem_circleFillPoints,
    ?_, ?_⟩
  · rintro rfl x y
    rw [mem_circleFillPoints, circleSteps_zero]
    simp only [List.mem_singleton, exists_eq_left]
    omega
  · intro hneg
    rw [circleFillPoints, circleSteps_of_neg hneg]
    rfl

end Sys2Proof.Machine

namespace Sys2Proof.Machine

/-! ### Region 2 of the ellipse generator (41_rasterizer.md R128) -/

theorem ellipseRegion2_of_neg {y : Int} (h : y < 0) (a b : Int) (n : Nat) (x p2 : Int) :
    ellipseRegion2 a b n x y p2 = [] := by
  cases n with
  | zero => rfl
  | succ n => rw [ellipseRegion2, if_neg (by omega)]

/-- A round of region 2 yields its point and goes on one row further, no column back. -/
theorem ellipseRegion2_succ {y : Int} (h : 0 ≤ y) (a b x p2 : Int) :
    ∃ x' p2', x ≤ x' ∧ ∀ n,
      ellipseRegion2 a b (n + 1) x y p2 = (x, y) :: ellipseRegion2 a b n x' (y - 1) p2' := by
  by_cases hp : 0 < p2
  · exact ⟨x, _, le_rfl, fun n => by rw [ellipseRegion2, if_pos h, if_pos hp]⟩
  · exact ⟨x + 1, _, by omega, fun n => by rw [ellipseRegion2, if_pos h, if_neg hp]⟩

theorem ellipseRegion2_quadrant {a b : Int} {n : Nat} {x y p2 : Int} {p : Int × Int}
    (hp : p ∈ ellipseRegion2 a b n x y p2) : x ≤ p.1 ∧ 0 ≤ p.2 ∧ p.2 ≤ y := by
  induction n generalizing x y p2 with
  | zero => simp [ellipseRegion2] at hp
  | succ n ih =>
    rcases lt_or_ge y 0 with hend | hy
    · simp [ellipseRegion2_of_neg hend] at hp
    · obtain ⟨x', p2', hx', hloop⟩ := ellipseRegion2_succ hy a b x p2
      rw [hloop, List.mem_cons] at hp
      rcases hp with rfl | hp
      · exact ⟨le_rfl, hy, le_rfl⟩
      · obtain ⟨hpx, hpy, hle⟩ := ih hp
        exact ⟨by omega, hpy, by omega⟩

theorem length_ellipseRegion2_le (a b : Int) (n : Nat) (x y p2 : Int) :
    (ellipseRegion2 a b n x y p2).length ≤ (y + 1).toNat := by
  induction n generalizing x y p2 with
  | zero => exact Nat.zero_le _
  | succ n ih =>
    rcases lt_or_ge y 0 with hend | hy
    · simp [ellipseRegion2_of_neg hend]
    · obtain ⟨x', p2', -, hloop⟩ := ellipseRegion2_succ hy a b x p2
      have := ih x' (y - 1) p2'
      rw [hloop, List.length_cons]
      omega

/-- Region 2 ends by its own test: bounds on its rounds that are large enough agree. -/
theorem ellipseRegion2_rounds {n m : Nat} {y : Int} (a b x p2 : Int) (hn : (y + 1).toNat ≤ n)
    (hm : (y + 1).toNat ≤ m) :
    ellipseRegion2 a b n x y p2 = ellipseRegion2 a b m x y p2 := by
  induction n generalizing m x y p2 with
  | zero => rw [ellipseRegion2_of_neg (by omega), ellipseRegion2_of_neg (by omega)]
  | succ n ih =>
    rcases lt_or_ge y 0 with hend | hy
    · rw [ellipseRegion2_of_neg hend, ellipseRegion2_of_neg hend]
    · obtain ⟨m, rfl⟩ : ∃ m', m = m' + 1 := Nat.exists_eq_succ_of_ne_zero (by omega)
      obtain ⟨x', p2', -, hloop⟩ := ellipseRegion2_succ hy a b x p2
      rw [hloop, hloop, ih x' p2' (by omega) (m := m) (by omega)]

/-- Region 2 of an ellipse of no width stays in its column: `P2` keeps its positive start value. -/
theorem mem_ellipseRegion2_column {b : Int} (hb : 0 < b) {n : Nat} {y : Int}
    (hn : (y + 1).toNat ≤ n) (p : Int × Int) :
    p ∈ ellipseRegion2 0 b n 0 y b ↔ p.1 = 0 ∧ 0 ≤ p.2 ∧ p.2 ≤ y := by
  induction n generalizing y with
  | zero =>
    rw [ellipseRegion2_of_neg (by omega)]
    simp only [List.not_mem_nil, false_iff]
    omega
  | succ n ih =>
    rcases lt_or_ge y 0 with hend | hy
    · rw [ellipseRegion2_of_neg hend]
      simp only [List.not_mem_nil, false_iff]
      omega
    · have hp2 : b + 4 * ((0 : Int) - 2 * 0 * (y - 1)) = b := by ring
      rw [ellipseRegion2, if_pos hy, if_pos hb, hp2, List.mem_cons, ih (by omega), Prod.ext_iff]
      omega

/-! ### Region 1 of the ellipse generator (41_rasterizer.md R128) -/

/-- The decision value `P1` at a point of region 1: four times the ellipse's form at the midpoint
`(x + 1, y - 1 / 2)`. -/
def ellipseP1 (a b x y : Int) : Int := 4 * b * (x + 1) ^ 2 + a * (2 * y - 1) ^ 2 - 4 * a * b

/-- The row of the point after `(x, y)` in region 1. -/
def ellipseNextRow (a b x y : Int) : Int := if ellipseP1 a b x y < 0 then y else y - 1

theorem ellipseNextRow_bounds (a b x y : Int) :
    y - 1 ≤ ellipseNextRow a b x y ∧ ellipseNextRow a b x y ≤ y := by
  unfold ellipseNextRow
  split <;> omega

/-- A round of region 1 yields its point, and `P1` follows the point. -/
theorem ellipseRegion1_succ {a b x y : Int} (h : b * x < a * y) (n : Nat) :
    ellipseRegion1 a b (n + 1) x y (ellipseP1 a b x y) =
      (x, y) :: ellipseRegion1 a b n (x + 1) (ellipseNextRow a b x y)
        (ellipseP1 a b (x + 1) (ellipseNextRow a b x y)) := by
  rw [ellipseRegion1, if_pos h, ellipseNextRow]
  split <;>
  · congr 2
    unfold ellipseP1
    ring

/-- Past its last round region 1 goes on to region 2. -/
theorem ellipseRegion1_of_le {a b x y : Int} (h : a * y ≤ b * x) (n : Nat) (p1 : Int) :
    ellipseRegion1 a b (n + 1) x y p1 =
      ellipseRegion2 a b (y.toNat + 1) x y (ellipseP2 a b x y) := by
  rw [ellipseRegion1, if_neg (by omega)]

/-- Region 1 runs above the major axis alone. -/
theorem pos_of_ellipseRegion1 {a b x y : Int} (ha : 0 ≤ a) (hb : 0 ≤ b) (hx : 0 ≤ x)
    (h : b * x < a * y) : 0 < y :=
  pos_of_mul_pos_right ((mul_nonneg hb hx).trans_lt h) ha

theorem ellipseRegion1_quadrant {a b : Int} {n : Nat} {x y : Int} {p : Int × Int} (ha : 0 ≤ a)
    (hb : 0 ≤ b) (hx : 0 ≤ x) (hp : p ∈ ellipseRegion1 a b n x y (ellipseP1 a b x y)) :
    0 ≤ p.1 ∧ 0 ≤ p.2 ∧ p.2 ≤ y := by
  induction n generalizing x y with
  | zero => simp [ellipseRegion1] at hp
  | succ n ih =>
    rcases lt_or_ge (b * x) (a * y) with hrun | hend
    · rw [ellipseRegion1_succ hrun, List.mem_cons] at hp
      rcases hp with rfl | hp
      · exact ⟨hx, (pos_of_ellipseRegion1 ha hb hx hrun).le, le_rfl⟩
      · obtain ⟨hpx, hpy, hle⟩ := ih (by omega) hp
        exact ⟨hpx, hpy, hle.trans (ellipseNextRow_bounds a b x y).2⟩
    · rw [ellipseRegion1_of_le hend] at hp
      obtain ⟨hpx, hpy⟩ := ellipseRegion2_quadrant hp
      exact ⟨hx.trans hpx, hpy⟩

/-- A step of region 1 keeps the point below the diagonal through the corner of the ellipse's box:
it stays in its row only when the midpoint is inside the ellipse, hence left of `rx`. -/
theorem ellipseNextRow_diagonal {rx ry x y : Int} (hrx : 0 ≤ rx) (hy : y ≤ ry)
    (hxy : x + y ≤ rx + ry) :
    x + 1 + ellipseNextRow (rx * rx) (ry * ry) x y ≤ rx + ry := by
  unfold ellipseNextRow ellipseP1
  split
  · next hinside =>
    have hwidth : (x + 1) ^ 2 < rx ^ 2 := by
      by_contra hge
      have hrow := mul_nonneg (mul_self_nonneg rx) (sq_nonneg (2 * y - 1))
      have hcol := mul_nonneg (mul_self_nonneg ry) (sub_nonneg.mpr (not_lt.mp hge))
      linarith
    have := lt_of_pow_lt_pow_left₀ 2 hrx hwidth
    omega
  · omega

/-- Each round goes one column further below the diagonal, and region 2 takes a round for each row
that is left. -/
theorem length_ellipseRegion1_le {rx ry : Int} (hrx : 0 ≤ rx) (n : Nat) {x y : Int} (hx : 0 ≤ x)
    (hy0 : 0 ≤ y) (hy : y ≤ ry) (hxy : x + y ≤ rx + ry) :
    ((ellipseRegion1 (rx * rx) (ry * ry) n x y
      (ellipseP1 (rx * rx) (ry * ry) x y)).length : Int) + x ≤ rx + ry + 1 := by
  induction n generalizing x y with
  | zero => simp only [ellipseRegion1, List.length_nil]; omega
  | succ n ih =>
    rcases lt_or_ge (ry * ry * x) (rx * rx * y) with hrun | hend
    · have hpos := pos_of_ellipseRegion1 (mul_self_nonneg rx) (mul_self_nonneg ry) hx hrun
      obtain ⟨hlower, hupper⟩ := ellipseNextRow_bounds (rx * rx) (ry * ry) x y
      have := ih (by omega) (by omega) (hupper.trans hy) (ellipseNextRow_diagonal hrx hy hxy)
      rw [ellipseRegion1_succ hrun, List.length_cons]
      omega
    · have := length_ellipseRegion2_le (rx * rx) (ry * ry) (y.toNat + 1) x y
        (ellipseP2 (rx * rx) (ry * ry) x y)
      rw [ellipseRegion1_of_le hend]
      omega

/-- Region 1 ends by its own test: bounds on its rounds that are large enough agree. -/
theorem ellipseRegion1_rounds {a b : Int} (ha : 0 ≤ a) (hb : 0 < b) {n m : Nat} {x y : Int}
    (hn : (a * y - b * x).toNat + 1 ≤ n) (hm : (a * y - b * x).toNat + 1 ≤ m) :
    ellipseRegion1 a b n x y (ellipseP1 a b x y) =
      ellipseRegion1 a b m x y (ellipseP1 a b x y) := by
  induction n generalizing m x y with
  | zero => omega
  | succ n ih =>
    obtain ⟨m, rfl⟩ := Nat.exists_eq_add_of_le' ((Nat.le_add_left 1 _).trans hm)
    rcases lt_or_ge (b * x) (a * y) with hrun | hend
    · have hrow := mul_le_mul_of_nonneg_left (ellipseNextRow_bounds a b x y).2 ha
      have hcol : b * (x + 1) = b * x + b := by ring
      rw [ellipseRegion1_succ hrun, ellipseRegion1_succ hrun,
        ih (by omega) (m := m) (by omega)]
    · rw [ellipseRegion1_of_le hend, ellipseRegion1_of_le hend]

/-! ### The ellipse generator (41_rasterizer.md R128) -/

/-- The value region 1 starts from is `P1` at the top of the minor axis. -/
theorem ellipseP1_start (rx ry : Int) :
    4 * (ry * ry) - 4 * (rx * rx) * ry + rx * rx = ellipseP1 (rx * rx) (ry * ry) 0 ry := by
  unfold ellipseP1
  ring

theorem ellipseSteps_of_neg {rx ry : Int} (h : rx < 0 ∨ ry < 0) : ellipseSteps rx ry = [] :=
  if_pos h

theorem ellipseSteps_of_nonneg {rx ry : Int} (hrx : 0 ≤ rx) (hry : 0 ≤ ry) :
    ellipseSteps rx ry =
      ellipseRegion1 (rx * rx) (ry * ry) ((rx * rx * ry).toNat + 1) 0 ry
        (ellipseP1 (rx * rx) (ry * ry) 0 ry) := by
  rw [← ellipseP1_start]
  exact if_neg (by omega)

theorem ellipseSteps_quadrant {rx ry : Int} {p : Int × Int} (hp : p ∈ ellipseSteps rx ry) :
    0 ≤ p.1 ∧ 0 ≤ p.2 ∧ p.2 ≤ ry := by
  by_cases hneg : rx < 0 ∨ ry < 0
  · simp [ellipseSteps_of_neg hneg] at hp
  · rw [ellipseSteps_of_nonneg (by omega) (by omega)] at hp
    exact ellipseRegion1_quadrant (mul_self_nonneg rx) (mul_self_nonneg ry) le_rfl hp

theorem length_ellipseSteps_le {rx ry : Int} (hrx : 0 ≤ rx) (hry : 0 ≤ ry) :
    ((ellipseSteps rx ry).length : Int) ≤ rx + ry + 1 := by
  rw [ellipseSteps_of_nonneg hrx hry]
  simpa using length_ellipseRegion1_le hrx _ le_rfl hry le_rfl (by omega)

/-- Region 1 of an ellipse of no height is empty, and region 2 is the centre. -/
theorem ellipseRegion1_zero_height (a p1 : Int) (n : Nat) :
    ellipseRegion1 a 0 (n + 1) 0 0 p1 = [(0, 0)] := by
  obtain ⟨x', p2', -, hloop⟩ := ellipseRegion2_succ le_rfl a 0 0 (ellipseP2 a 0 0 0)
  rw [ellipseRegion1_of_le (by simp), hloop, ellipseRegion2_of_neg (by decide)]

theorem ellipseSteps_zero_height {rx : Int} (hrx : 0 ≤ rx) : ellipseSteps rx 0 = [(0, 0)] := by
  rw [ellipseSteps_of_nonneg hrx le_rfl]
  exact ellipseRegion1_zero_height ..

theorem mem_ellipseSteps_zero_width {ry : Int} (hry : 0 ≤ ry) (p : Int × Int) :
    p ∈ ellipseSteps 0 ry ↔ p.1 = 0 ∧ 0 ≤ p.2 ∧ p.2 ≤ ry := by
  rcases hry.eq_or_lt with rfl | hpos
  · rw [ellipseSteps_zero_height le_rfl, List.mem_singleton, Prod.ext_iff]
    omega
  · have hp2 : ellipseP2 0 (ry * ry) 0 ry = ry * ry := by unfold ellipseP2; ring
    rw [ellipseSteps_of_nonneg le_rfl hry, zero_mul, ellipseRegion1_of_le (by simp), hp2,
      mem_ellipseRegion2_column (mul_pos hpos hpos) (by omega)]

/-- Region 1 of an ellipse ends by its own test. -/
theorem ellipseRegion1_eq_ellipseSteps {rx ry : Int} (hrx : 0 ≤ rx) (hry : 0 ≤ ry) {n : Nat}
    (hn : (rx * rx * ry).toNat + 1 ≤ n) :
    ellipseRegion1 (rx * rx) (ry * ry) n 0 ry (ellipseP1 (rx * rx) (ry * ry) 0 ry) =
      ellipseSteps rx ry := by
  rcases hry.eq_or_lt with rfl | hpos
  · obtain ⟨n, rfl⟩ := Nat.exists_eq_add_of_le' ((Nat.le_add_left 1 _).trans hn)
    rw [ellipseSteps_zero_height hrx]
    exact ellipseRegion1_zero_height ..
  · rw [ellipseSteps_of_nonneg hrx hry]
    exact ellipseRegion1_rounds (mul_self_nonneg rx) (mul_pos hpos hpos) (by simpa using hn)
      (by simp)

/-- Settles O24: region 1 stays below the diagonal of the ellipse's box, and region 2 takes a round
for each row. -/
theorem ellipseStepsQuadrant : Obligations.EllipseStepsQuadrant := by
  refine ⟨fun rx ry => ⟨ellipseSteps_of_neg, fun hrx hry => ?_, fun p => ellipseSteps_quadrant⟩,
    fun ry hry x y => mem_ellipseSteps_zero_width hry (x, y),
    fun rx => ellipseSteps_zero_height, fun rx ry n hrx hry hn => ?_,
    fun a b x y p2 n hn => ellipseRegion2_rounds a b x p2 (by omega) (by omega)⟩
  · exact (length_ellipseSteps_le hrx hry).trans (by omega)
  · rw [ellipseP1_start]
    exact ellipseRegion1_eq_ellipseSteps hrx hry hn

/-! ### `ELLIPSE` and `ELLIPSEF` (41_rasterizer.md R129, R130) -/

theorem mem_ellipsePoints {cx cy rx ry x y : Int} :
    (x, y) ∈ ellipsePoints cx cy rx ry ↔ ∃ p ∈ ellipseSteps rx ry,
      ((x - cx).natAbs : Int) = p.1 ∧ ((y - cy).natAbs : Int) = p.2 := by
  rw [ellipsePoints, List.mem_flatMap]
  refine exists_congr fun p => and_congr_right fun hp => ?_
  obtain ⟨hx, hy, -⟩ := ellipseSteps_quadrant hp
  simp only [ellipseQuadrants, List.mem_cons, List.not_mem_nil, or_false, Prod.mk.injEq]
  omega

theorem mem_ellipseFillPoints {cx cy rx ry x y : Int} :
    (x, y) ∈ ellipseFillPoints cx cy rx ry ↔ ∃ p ∈ ellipseSteps rx ry,
      ((y - cy).natAbs : Int) = p.2 ∧ ((x - cx).natAbs : Int) ≤ p.1 := by
  rw [ellipseFillPoints, List.mem_flatMap]
  refine exists_congr fun p => and_congr_right fun hp => ?_
  obtain ⟨hx, hy, -⟩ := ellipseSteps_quadrant hp
  simp only [ellipseChords, List.mem_append, mem_chord hx]
  omega

/-- An ellipse of no height is its centre (93_implementation_defined.md I7). -/
theorem mem_ellipsePoints_zero_height {cx cy rx x y : Int} (hrx : 0 ≤ rx) :
    (x, y) ∈ ellipsePoints cx cy rx 0 ↔ x = cx ∧ y = cy := by
  rw [mem_ellipsePoints, ellipseSteps_zero_height hrx]
  simp only [List.mem_singleton, exists_eq_left]
  omega

/-- An ellipse of no width is the segment of its minor axis. -/
theorem mem_ellipsePoints_zero_width {cx cy ry x y : Int} (hry : 0 ≤ ry) :
    (x, y) ∈ ellipsePoints cx cy 0 ry ↔ x = cx ∧ cy - ry ≤ y ∧ y ≤ cy + ry := by
  simp only [mem_ellipsePoints, mem_ellipseSteps_zero_width hry]
  constructor
  · rintro ⟨p, hp, hdist⟩
    omega
  · intro h
    exact ⟨(0, (y - cy).natAbs), by omega, by omega, rfl⟩

/-- Where an ellipse of no width or no height is filled, it is no larger than its outline. -/
theorem mem_ellipseFillPoints_of_columns_zero {cx cy rx ry x y : Int}
    (h : ∀ p ∈ ellipseSteps rx ry, p.1 = 0) :
    (x, y) ∈ ellipseFillPoints cx cy rx ry ↔ (x, y) ∈ ellipsePoints cx cy rx ry := by
  rw [mem_ellipseFillPoints, mem_ellipsePoints]
  refine exists_congr fun p => and_congr_right fun hp => ?_
  have := h p hp
  omega

theorem mem_ellipseFillPoints_zero_height {cx cy rx x y : Int} (hrx : 0 ≤ rx) :
    (x, y) ∈ ellipseFillPoints cx cy rx 0 ↔ x = cx ∧ y = cy := by
  rw [mem_ellipseFillPoints_of_columns_zero, mem_ellipsePoints_zero_height hrx]
  simp [ellipseSteps_zero_height hrx]

theorem mem_ellipseFillPoints_zero_width {cx cy ry x y : Int} (hry : 0 ≤ ry) :
    (x, y) ∈ ellipseFillPoints cx cy 0 ry ↔ x = cx ∧ cy - ry ≤ y ∧ y ≤ cy + ry := by
  rw [mem_ellipseFillPoints_of_columns_zero, mem_ellipsePoints_zero_width hry]
  exact fun p hp => ((mem_ellipseSteps_zero_width hry p).mp hp).1

/-- Settles O25: the quadrants of a point are the points with its distances from the centre. -/
theorem ellipseResult : Obligations.EllipseResult := by
  intro cx cy rx ry colour s
  refine ⟨_, ellipsePoints cx cy rx ry, rfl, plotPoints_painted .., fun x y => mem_ellipsePoints,
    ?_, ?_, ?_, fun hneg => ?_⟩
  · rintro ⟨rfl, rfl⟩ x y
    exact mem_ellipsePoints_zero_height le_rfl
  · rintro ⟨rfl, hry⟩ x y
    exact mem_ellipsePoints_zero_width hry.le
  · rintro ⟨hrx, rfl⟩ x y
    exact mem_ellipsePoints_zero_height hrx.le
  · rw [ellipsePoints, ellipseSteps_of_neg hneg]
    rfl

/-- Settles O26: the chords of a point are the rows at its height from the centre. -/
theorem ellipsefResult : Obligations.EllipsefResult := by
  intro cx cy rx ry colour s
  refine ⟨_, ellipseFillPoints cx cy rx ry, rfl, plotPoints_painted ..,
    fun x y => mem_ellipseFillPoints, ?_, ?_, ?_, fun hneg => ?_⟩
  · rintro ⟨rfl, rfl⟩ x y
    exact mem_ellipseFillPoints_zero_height le_rfl
  · rintro ⟨rfl, hry⟩ x y
    exact mem_ellipseFillPoints_zero_width hry.le
  · rintro ⟨hrx, rfl⟩ x y
    exact mem_ellipseFillPoints_zero_height hrx.le
  · rw [ellipseFillPoints, ellipseSteps_of_neg hneg]
    rfl

end Sys2Proof.Machine

namespace Sys2Proof.Machine

/-! ### Reads of `SRC` (20_memory.md R52) -/

theorem srcRead_of_lt {s : State} {a : Nat} (h : a < s.params.srcSize) :
    srcRead s a = some (Mem.read s.src a) :=
  if_pos h

theorem srcRead_of_le {s : State} {a : Nat} (h : s.params.srcSize ≤ a) : srcRead s a = none :=
  if_neg h.not_gt

/-! ### `BLIT` (42_compositor.md R153, R154) -/

theorem execBlit_of_argumentError {src : Nat} {vx0 vx1 : Int} (harg : src = 0 ∨ vx1 < vx0)
    (x0 y0 w h bg fg : Int) (s : State) :
    execBlit src x0 y0 vx0 vx1 w h bg fg s = complete sentinel s := by
  unfold execBlit
  by_cases hsrc : src = 0
  · rw [if_pos hsrc]
  · rw [if_neg hsrc, if_pos (harg.resolve_left hsrc)]

section ValidArguments

variable {src : Nat} {x0 y0 vx0 vx1 w h bg fg : Int} {s : State} {fb : Mem}

theorem execBlit_of_done (hsrc : src ≠ 0) (hwin : vx0 ≤ vx1)
    (hcore : blitCore (fun k => srcRead s (src + k)) s.orient x0 y0 vx0 vx1 w h bg fg s.fb =
      .done fb) :
    execBlit src x0 y0 vx0 vx1 w h bg fg s = complete resultOk { s with fb := fb } := by
  rw [execBlit, if_neg hsrc, if_neg hwin.not_gt, hcore]

theorem execBlit_of_outOfRange (hsrc : src ≠ 0) (hwin : vx0 ≤ vx1)
    (hcore : blitCore (fun k => srcRead s (src + k)) s.orient x0 y0 vx0 vx1 w h bg fg s.fb =
      .outOfRange fb) :
    execBlit src x0 y0 vx0 vx1 w h bg fg s = raiseSrcFault { s with fb := fb } := by
  rw [execBlit, if_neg hsrc, if_neg hwin.not_gt, hcore]

end ValidArguments

/-- Settles O27: every visible byte is read, so `BlitCore` draws the whole block. -/
theorem blitDraws : Obligations.BlitDraws := by
  intro src x0 y0 vx0 vx1 w h bg fg s hsrc hwin hin
  obtain ⟨fb, hcore, hpaint⟩ := blitCore_painted
    (rd := fun k => srcRead s (src + k)) (rdb := fun k => Mem.read s.src (src + k))
    (fun i j hv => srcRead_of_lt (hin i j hv)) s.orient y0 bg fg s.fb
  exact ⟨fb, execBlit_of_done hsrc hwin hcore, hpaint⟩

/-- Settles O29: the visible bytes before the first one outside `SRC` are read, so `BlitCore` stops
at that one. -/
theorem blitFaults : Obligations.BlitFaults := by
  intro src x0 y0 vx0 vx1 w h bg fg s i j hsrc hwin hv hout hbefore
  obtain ⟨fb, hcore, hpaint⟩ := blitCore_outOfRange
    (rd := fun k => srcRead s (src + k)) (rdb := fun k => Mem.read s.src (src + k)) hv
    (srcRead_of_le hout)
    (fun i' j' hv' hlt => srcRead_of_lt (hbefore i' j' hv' hlt)) s.orient y0 bg fg s.fb
  exact ⟨fb, execBlit_of_outOfRange hsrc hwin hcore, hpaint⟩

/-- Settles O28: both argument errors are met before `BlitCore` reads or draws. -/
theorem blitArgumentErrors : Obligations.BlitArgumentErrors :=
  fun _ x0 y0 _ _ w h bg fg s harg => execBlit_of_argumentError harg x0 y0 w h bg fg s

end Sys2Proof.Machine

namespace Sys2Proof.Machine

/-! ### `MLOAD` (43_movie_player.md R171 to R173) -/

/-- Field `k` of the header of the file at `src`, as a number (43_movie_player.md R171); the model
reads it as the word `headerField s src k` (`headerField_toNat`). -/
abbrev fileField (s : State) (src k : Nat) : Nat :=
  u32At s.params.hostEndian s.src (src + 4 * k)

/-- The size of the frame records that the header of the file at `src` declares
(43_movie_player.md R172). -/
abbrev fileFrameSize (s : State) (src : Nat) : Nat :=
  recordBytes s.params.scanOrient (fileField s src 3) (fileField s src 4) (fileField s src 7)

theorem headerField_eq_iff {s : State} {src k : Nat} {w : Word} :
    headerField s src k = w ↔ fileField s src k = w.toNat := by
  rw [← BitVec.toNat_inj, headerField_toNat]

theorem readHeader_frameSize {s : State} {src : Nat}
    (hbpp : fileField s src 7 = 1 ∨ fileField s src 7 = 2) :
    (readHeader s src).frameSize s.params = fileFrameSize s src := by
  have hword : (readHeader s src).bpp = 1#32 ∨ (readHeader s src).bpp = 2#32 :=
    hbpp.imp headerField_eq_iff.mpr headerField_eq_iff.mpr
  rw [frameSize_eq hword]
  simp only [readHeader, headerField_toNat]

theorem readHeader_totalSize {s : State} {src : Nat}
    (hbpp : fileField s src 7 = 1 ∨ fileField s src 7 = 2) :
    (readHeader s src).totalSize s.params = 32 + fileField s src 6 * fileFrameSize s src := by
  rw [Header.totalSize, readHeader_frameSize hbpp]
  simp only [readHeader, headerField_toNat]

/-- The checks of `MLOAD` on the file at `src`, said of its u32 fields (43_movie_player.md R173). -/
theorem headerAccepted_readHeader_iff {s : State} {src len : Nat} :
    headerAccepted s.params (readHeader s src) len = true ↔
      fileField s src 0 = 0x4C564946 ∧ (fileField s src 7 = 1 ∨ fileField s src 7 = 2) ∧
        1 ≤ fileField s src 5 ∧ 1 ≤ fileField s src 6 ∧
        32 + fileField s src 6 * fileFrameSize s src ≤ s.params.movieMaxBytes ∧
        len = 32 + fileField s src 6 * fileFrameSize s src := by
  have hmagic : (readHeader s src).magic = Config.magic ↔ fileField s src 0 = 0x4C564946 :=
    headerField_eq_iff
  have hbpp : (readHeader s src).bpp = 1#32 ∨ (readHeader s src).bpp = 2#32 ↔
      fileField s src 7 = 1 ∨ fileField s src 7 = 2 :=
    or_congr headerField_eq_iff headerField_eq_iff
  have hfps : (readHeader s src).fps.toNat = fileField s src 5 := headerField_toNat s src 5
  have hcount : (readHeader s src).frameCount.toNat = fileField s src 6 :=
    headerField_toNat s src 6
  rw [headerAccepted_iff, hmagic, hbpp, hfps, hcount]
  refine and_congr_right fun _ => and_congr_right fun hbpp => ?_
  rw [readHeader_totalSize hbpp]

theorem execMload_of_outOfRange {src len : Nat} {s : State} (hsrc : src ≠ 0)
    (hout : s.params.srcSize < src + len) : execMload src len s = raiseSrcFault s := by
  rw [execMload, if_neg hsrc, if_pos hout]

theorem execMload_of_accepted {src len : Nat} {s : State} (hsrc : src ≠ 0)
    (hin : ¬s.params.srcSize < src + len) (hlen : 32 ≤ len)
    (hok : headerAccepted s.params (readHeader s src) len = true) :
    execMload src len s =
      complete resultOk (installMovie (readHeader s src) src (releaseMovie s)) := by
  rw [execMload, if_neg hsrc, if_neg hin, if_neg hlen.not_gt, if_pos hok]

theorem execMload_of_rejected {src len : Nat} {s : State}
    (hin : src ≠ 0 → ¬s.params.srcSize < src + len)
    (hbad : src ≠ 0 → 32 ≤ len → ¬headerAccepted s.params (readHeader s src) len = true) :
    execMload src len s = complete sentinel (releaseMovie s) := by
  unfold execMload
  by_cases hsrc : src = 0
  · rw [if_pos hsrc]
  rw [if_neg hsrc, if_neg (hin hsrc)]
  by_cases hlen : len < Config.headerSize
  · rw [if_pos hlen]
  · rw [if_neg hlen, if_neg (hbad hsrc (Nat.not_lt.mp hlen))]

/-- Settles O30: a range outside `SRC`, an accepted file and any other operand are the three ways
through `execMload`, and the model's checks on the header words are those on the u32 fields. -/
theorem mloadResult : Obligations.MloadResult := by
  intro src len s f fs good out
  refine ⟨fun hout => execMload_of_outOfRange hout.1 hout.2, fun hin hgood => ?_,
    fun hin hbad => ?_⟩
  · obtain ⟨hsrc, hlen, hchecks⟩ := hgood
    have hok := headerAccepted_readHeader_iff.mpr hchecks
    obtain ⟨-, hbpp, -, -, -, htotal⟩ := headerAccepted_readHeader_iff.mp hok
    rw [exec, execMload_of_accepted hsrc (fun hlt => hin ⟨hsrc, hlt⟩) hlen hok, complete_eq_next,
      installMovie]
    simp only [releaseMovie_params, releaseMovie_src, readHeader_totalSize hbpp,
      readHeader_frameSize hbpp, ← htotal]
    simp only [readHeader, headerField_eq]
    rfl
  · have hexec : execMload src len s = complete sentinel (releaseMovie s) :=
      execMload_of_rejected (fun hsrc hlt => hin ⟨hsrc, hlt⟩)
        fun hsrc hlen hok => hbad ⟨hsrc, hlen, headerAccepted_readHeader_iff.mp hok⟩
    rw [exec, hexec]
    rfl

/-! ### `MREWIND` and `MTEARDOWN` (43_movie_player.md R176, R187) -/

/-- Settles O31: `execMrewind` writes `PSTATE` on a loaded movie alone. -/
theorem mrewindResult : Obligations.MrewindResult := by
  intro s
  by_cases hl : s.loaded = true
  · rw [exec, execMrewind, if_pos hl, if_pos hl]; rfl
  · rw [exec, execMrewind, if_neg hl, if_neg hl]; rfl

/-- Settles O39: the cleared framebuffer is the byte fill with `0x00`, which reads as `0x00`
everywhere. -/
theorem mteardownResult : Obligations.MteardownResult := by
  intro s
  have hread : ∀ a, Mem.read (Mem.fill Config.fbBytes 0x00#8) a = 0#8 := fun a => by
    rw [Mem.read_fill, ite_self]
  refine ⟨Mem.fill Config.fbBytes 0x00#8, rfl, hread, ?_⟩
  refine List.eq_replicate_iff.mpr ⟨length_fbBytes _, fun b hb => ?_⟩
  obtain ⟨a, -, rfl⟩ := List.mem_map.mp hb
  exact hread a

/-! ### The arms of `MSTEP` (43_movie_player.md R183) -/

section Arms

variable {s : State} (colour : Int)

theorem execMstep_of_stopped (h : s.loaded = false ∨ s.pstate = .stopped) :
    execMstep colour s = complete PState.stopped.code { s with pstate := .stopped } := by
  by_cases hl : s.loaded = true
  · have hp : s.pstate = .stopped := h.resolve_left (by simp [hl])
    have hs : { s with pstate := .stopped } = s := by rw [← hp]
    rw [hs]
    simp only [execMstep, hl, hp, if_true]
  · rw [execMstep, if_neg hl]

theorem execMstep_of_start (hl : s.loaded = true) (hp : s.pstate = .start) :
    execMstep colour s =
      complete PState.running.code { s with frameIdx := 0, pstate := .running } := by
  simp only [execMstep, hl, hp, if_true]

theorem execMstep_of_lastFrame (hl : s.loaded = true) (hp : s.pstate = .running)
    (hlast : s.hdr.frameCount.toNat ≤ s.frameIdx + 1) :
    execMstep colour s = complete PState.stopped.code { s with pstate := .stopped } := by
  simp only [execMstep, hl, hp, if_true]
  rw [if_neg (by omega)]

theorem execMstep_of_nextFrame (hl : s.loaded = true) (hp : s.pstate = .running)
    (hnext : s.frameIdx + 1 < s.hdr.frameCount.toNat) :
    execMstep colour s = showFrame colour { s with frameIdx := s.frameIdx + 1 } := by
  simp only [execMstep, hl, hp, if_true]
  rw [if_pos (by omega)]

end Arms

/-- Every state is in one of the four arms. -/
theorem mstep_arms (s : State) :
    (s.loaded = false ∨ s.pstate = .stopped) ∨ (s.loaded = true ∧ s.pstate = .start) ∨
      (s.loaded = true ∧ s.pstate = .running ∧ s.hdr.frameCount.toNat ≤ s.frameIdx + 1) ∨
      (s.loaded = true ∧ s.pstate = .running ∧ s.frameIdx + 1 < s.hdr.frameCount.toNat) := by
  cases s.loaded with
  | false => exact .inl (.inl rfl)
  | true =>
    cases s.pstate with
    | stopped => exact .inl (.inr rfl)
    | start => exact .inr (.inl ⟨rfl, rfl⟩)
    | running =>
      exact .inr (.inr ((le_or_gt _ _).imp (fun h => ⟨rfl, rfl, h⟩) fun h => ⟨rfl, rfl, h⟩))

/-- Settles O32: the arms of `MSTEP` that draw nothing. -/
theorem mstepWithoutFrame : Obligations.MstepWithoutFrame := fun colour _ =>
  ⟨fun h => execMstep_of_stopped colour h, fun hl hp => execMstep_of_start colour hl hp,
    fun hl hp hlast => execMstep_of_lastFrame colour hl hp hlast⟩

end Sys2Proof.Machine

namespace Sys2Proof.Machine

/-! ### Drawing a frame (43_movie_player.md R177 to R183) -/

/-- The arm of `MSTEP` that draws: the next frame lies in the movie, so it is drawn to the end, and
`Pace()` always goes on (43_movie_player.md R181, R185). -/
theorem execMstep_draws_nextFrame {s : State} (hm : MovieLoaded s) (hl : s.loaded = true)
    (hp : s.pstate = .running) (hnext : s.frameIdx + 1 < s.hdr.frameCount.toNat) (colour : Int) :
    ∃ fb t, Painted s.orient (moviePaint s (s.frameIdx + 1) colour) s.fb fb ∧
      execMstep colour s = .next t ∧
      pace { s with
        fb := fb, frameIdx := s.frameIdx + 1, events := s.events ++ [.flush fb] } = .next t := by
  have hmovie : MovieLoaded { s with frameIdx := s.frameIdx + 1 } :=
    hm.congr rfl rfl rfl rfl hnext
  obtain ⟨fb, hdraw, hpaint⟩ := framePixels_painted hmovie hnext colour s.fb
  obtain ⟨t, ht⟩ := pace_isNext { s with
    fb := fb, frameIdx := s.frameIdx + 1, events := s.events ++ [.flush fb] }
  exact ⟨fb, t, hpaint, (execMstep_of_frame hl hp hnext hdraw).trans ht, ht⟩

/-- Settles O33: `execMstep_draws_nextFrame`, and pacing keeps the frame. -/
theorem mstepDrawsFrame : Obligations.MstepDrawsFrame := by
  intro colour s hinv hl hp hnext
  obtain ⟨fb, t, hpaint, hexec, hpace⟩ :=
    execMstep_draws_nextFrame (hinv.loaded hl) hl hp hnext colour
  refine ⟨fb, t, hpaint, hexec, hpace, ?_⟩
  obtain ⟨now, draws, ds, -, ⟨-, ms, rfl⟩ | rfl⟩ := pace_next_state hpace <;>
    exact ⟨rfl, rfl, hp⟩

/-- The field of a 1-bit frame is the bit that the compositor reads (43_movie_player.md R178,
42_compositor.md R151). -/
theorem fieldOfByte_one_eq_one_iff (b : Byte) (i : Nat) :
    fieldOfByte 1 b (i % 8) = 1 ↔ bitmapBit b i = true := by
  have hshift : (framePpb 1 - 1 - i % 8) * 1 = 7 - i % 8 := Nat.mul_one _
  rw [fieldOfByte, hshift, Nat.and_two_pow_sub_one_eq_mod, Nat.shiftRight_eq_div_pow, bitmapBit,
    BitVec.getLsbD, Nat.testBit_eq_decide_div_mod_eq, decide_eq_true_iff, pow_one]

section OneBitHorizontal

variable {s : State} (hbpp : s.hdr.bpp = 1#32) (hscan : s.params.scanOrient = .horizontal)

include hbpp hscan

/-- A 1-bit frame scanned horizontally has its bits where a bitmap has them (43_movie_player.md
R178). -/
theorem frameByteOffset_oneBit (base i j : Nat) :
    frameByteOffset s.params.scanOrient s.hdr base i j =
      base + (j * ceilDiv s.hdr.lcdW.toNat 8 + i / 8) := by
  rw [hscan, ← Nat.add_assoc, frameByteOffset, hbpp]
  rfl

theorem framePixel_eq_blitPixel (base : Nat) (colour : Int) (j i : Nat) (fb : Mem) :
    framePixel s base colour j i fb =
      blitPixel (fun k => movRead s (base + k)) s.orient (frameOrigin s.params s.hdr).1
        (frameOrigin s.params s.hdr).2 0 191 (ceilDiv s.hdr.lcdW.toNat 8) 0 colour j i fb := by
  have hindex : frameFieldIndex s.params.scanOrient s.hdr i j = i % 8 := by
    rw [hscan, frameFieldIndex, hbpp]; rfl
  have hbits : s.hdr.bpp.toNat = 1 := congrArg BitVec.toNat hbpp
  have hright : (Config.screenW : Int) - 1 = 191 := rfl
  simp only [framePixel, blitPixel, frameField, frameByteOffset_oneBit hbpp hscan, hindex, hbits,
    hright]
  by_cases hout : (frameOrigin s.params s.hdr).1 + i < 0 ∨
      191 < (frameOrigin s.params s.hdr).1 + i
  · rw [if_pos hout, if_pos hout]
  · rw [if_neg hout, if_neg hout]
    cases movRead s (base + (j * ceilDiv s.hdr.lcdW.toNat 8 + i / 8)) with
    | none => rfl
    | some b =>
      simp only [Option.map_some, frameLevel, hbpp, fieldOfByte_one_eq_one_iff, if_true]

end OneBitHorizontal

/-- A loop whose rounds draw nothing draws nothing (00_scope.md R9). -/
theorem drawRange_of_skip {body : Nat → Mem → Drawn} (h : ∀ i fb, body i fb = .done fb)
    (n first : Nat) (fb : Mem) : drawRange body n first fb = .done fb := by
  induction n generalizing first with
  | zero => rfl
  | succ n ih => rw [drawRange, h]; exact ih (first + 1)

/-- A block with no columns or no rows draws nothing, which the loop of `BlitCore` says by itself
(42_compositor.md R150). -/
theorem blitCore_eq_drawRange (rd : Nat → Option Byte) (o : Orient) (x0 y0 vx0 vx1 : Int)
    (w h : Nat) (bg fg : Int) (fb : Mem) :
    blitCore rd o x0 y0 vx0 vx1 w h bg fg fb =
      drawRange (fun j => drawRange (blitPixel rd o x0 y0 vx0 vx1 (ceilDiv w 8) bg fg j) w 0)
        h 0 fb := by
  unfold blitCore
  split
  · next hempty =>
    obtain rfl | rfl : w = 0 ∨ h = 0 := by omega
    · exact (drawRange_of_skip (fun _ _ => rfl) h 0 fb).symm
    · rfl
  · rfl

/-- Settles O34: the two loops run the same body, pixel by pixel. -/
theorem frameDrawIsBlit : Obligations.FrameDrawIsBlit := by
  intro s base colour fb hbpp hscan
  rw [blitCore_eq_drawRange, framePixels]
  congr 1
  funext j
  congr 1
  funext i fb
  exact framePixel_eq_blitPixel hbpp hscan base colour j i fb

/-! ### `MSTEP` and `SRC` (43_movie_player.md R174) -/

/-- The clock is not in `SRC`. -/
theorem clock_withSrc (s : State) (m : Mem) :
    clock { s with src := m } = ((clock s).1, { (clock s).2 with src := m }) := by
  unfold clock
  dsimp only
  split <;> rfl

theorem paceAt_withSrc {now : Nat} {s t : State} (h : paceAt now s = .next t) (m : Mem) :
    paceAt now { s with src := m } = .next { t with src := m } := by
  unfold paceAt at h ⊢
  split at h
  · next hearly => injection h with h; subst h; exact if_pos hearly
  · next hlate => injection h with h; subst h; exact if_neg hlate

theorem pace_withSrc {s t : State} (h : pace s = .next t) (m : Mem) :
    pace { s with src := m } = .next { t with src := m } := by
  rw [pace, clock_withSrc]
  exact paceAt_withSrc h m

/-- The pixels of a frame are read from `MOV_BUF` (43_movie_player.md R181). -/
theorem frameDraw_withSrc (base : Nat) (colour : Int) (s : State) (m : Mem) :
    frameDraw base colour { s with src := m } = frameDraw base colour s := rfl

/-- What showing a frame can leave: the frame is drawn and flushed, then paced. -/
theorem showFrame_next {colour : Int} {s t : State} (h : showFrame colour s = .next t) :
    ∃ fb, frameDraw (frameBase s s.frameIdx) colour s = .ok fb ∧
      pace (emitFlush { s with fb := fb }) = .next t := by
  unfold showFrame at h
  split at h
  · next fb hdraw => exact ⟨fb, hdraw, h⟩
  · next fb hdraw => unfold frameDraw at hdraw; split at hdraw <;> cases hdraw
  · cases h

theorem showFrame_of_ok {colour : Int} {s : State} {fb : Mem}
    (h : frameDraw (frameBase s s.frameIdx) colour s = .ok fb) :
    showFrame colour s = pace (emitFlush { s with fb := fb }) := by
  rw [showFrame, h]

theorem showFrame_withSrc {colour : Int} {s t : State} (h : showFrame colour s = .next t)
    (m : Mem) : showFrame colour { s with src := m } = .next { t with src := m } := by
  obtain ⟨fb, hdraw, hpace⟩ := showFrame_next h
  rw [showFrame_of_ok ((frameDraw_withSrc _ colour s m).trans hdraw)]
  exact pace_withSrc hpace m

/-- Settles O40: no arm of `MSTEP` looks at `SRC`. -/
theorem mstepIgnoresSrc : Obligations.MstepIgnoresSrc := by
  intro colour s t m h
  rw [exec] at h ⊢
  rcases mstep_arms s with hstop | ⟨hl, hp⟩ | ⟨hl, hp, hlast⟩ | ⟨hl, hp, hnext⟩
  · rw [execMstep_of_stopped colour hstop, complete_eq_next] at h
    subst h
    exact execMstep_of_stopped colour hstop
  · rw [execMstep_of_start colour hl hp, complete_eq_next] at h
    subst h
    exact execMstep_of_start colour hl hp
  · rw [execMstep_of_lastFrame colour hl hp hlast, complete_eq_next] at h
    subst h
    exact execMstep_of_lastFrame colour hl hp hlast
  · rw [execMstep_of_nextFrame colour hl hp hnext] at h
    have hexec := execMstep_of_nextFrame (s := { s with src := m }) colour hl hp hnext
    exact hexec.trans (showFrame_withSrc h m)

end Sys2Proof.Machine

namespace Sys2Proof.Machine

/-! ### Pacing (43_movie_player.md R185, R186) -/

/-- The period of a movie that shows at least one frame a second (00_scope.md R9: `div` is defined
for a positive divisor). -/
theorem framePeriod_eq {h : Header} (hfps : 1 ≤ h.fps.toNat) :
    framePeriod h = 1000 / h.fps.toNat :=
  if_neg (Nat.ne_of_gt hfps)

section PaceAt

variable {s : State} {now : Nat}

theorem paceAt_of_early {ms : Nat} (hprev : s.hasPrev = true)
    (hearly : (now : Int) - s.tPrev < framePeriod s.hdr)
    (hms : (ms : Int) = framePeriod s.hdr - ((now : Int) - s.tPrev) + s.params.paceMarginMs) :
    paceAt now s =
      .next { s with events := s.events ++ [.sleep ms], sleeping := some now } := by
  rw [paceAt, if_pos ⟨hprev, hearly⟩, elapsed, ← hms]
  rfl

theorem paceAt_of_late
    (h : s.hasPrev = false ∨ (framePeriod s.hdr : Int) ≤ (now : Int) - s.tPrev) :
    paceAt now s =
      .next { s with
        tPrev := now, hasPrev := true, sleeping := none, res := 2#32, response := some 2#32 } := by
  have hlate : ¬(s.hasPrev = true ∧ elapsed now s < framePeriod s.hdr) := fun ⟨hprev, hearly⟩ =>
    h.elim (fun hp => absurd (hprev.symm.trans hp) nofun) hearly.not_ge
  rw [paceAt, if_neg hlate, finishPace_eq]

end PaceAt

/-- Settles O35: the two outcomes of `Pace()`, and the bounds of the sample it takes. -/
theorem paceDecidesSleep : Obligations.PaceDecidesSleep := by
  intro s hfps
  have hpast := clockLast_le_clock s
  rw [← framePeriod_eq hfps]
  refine ⟨(clock s).1, (clock s).2.clockDraws, (clock s).2.clockIn, hpast,
    fun hprev hearly => ⟨_, Int.toNat_of_nonneg (by omega), ?_, fun hstamp => by omega⟩,
    fun hlate => ?_, fun hfast hstamp => ⟨_, pace_of_late (.inr ?_), rfl⟩⟩
  · rw [pace_of_early hprev hearly, clock_eq]
  · rw [pace_of_late hlate, clock_eq]
  · have hzero : framePeriod s.hdr = 0 := by
      rw [framePeriod_eq hfps, Nat.div_eq_of_lt hfast]
    omega

theorem resumePace_of_atFlush {s : State} {now : Nat} (h : s.params.paceStamp = .atFlush) :
    resumePace now s =
      .next { s with
        tPrev := now, hasPrev := true, sleeping := none, res := 2#32, response := some 2#32 } := by
  rw [resumePace, h, ← finishPace_eq]

theorem resumePace_of_afterSleep {s : State} {now : Nat}
    (h : s.params.paceStamp = .afterSleep) :
    resumePace now s =
      .next { s with
        clockLast := (clock s).1, clockDraws := (clock s).2.clockDraws
        clockIn := (clock s).2.clockIn, tPrev := (clock s).1, hasPrev := true, sleeping := none
        res := 2#32, response := some 2#32 } := by
  rw [resumePace, h, finishPace_eq (clock s).1, clock_eq]

theorem takeAck_of_sleeping {s : State} {now : Nat} (h : s.sleeping = some now) :
    takeAck s = resumePace now (s.advance 1) := by
  rw [takeAck, h]

/-- Settles O36: the acknowledgement resumes `Pace()`, which stamps the sample it took or another
one. -/
theorem sleepAcknowledged : Obligations.SleepAcknowledged := by
  intro s now rest hf hr hsleep hinbox
  have hadv : s.advance 1 = { s with inbox := rest } := by simp [State.advance, hinbox]
  rw [step_of_ackSleep hf hr hinbox, takeAck_of_sleeping hsleep, hadv]
  exact ⟨fun hstamp => resumePace_of_atFlush hstamp,
    fun hstamp => ⟨_, _, _, clockLast_le_clock { s with inbox := rest },
      resumePace_of_afterSleep hstamp⟩⟩

/-- Settles O37: the time measured after a sleep is the period plus the margin where the stamp is
the flush, and `T` again where it is taken after the sleep. -/
theorem pacingOutcome : Obligations.PacingOutcome := by
  intro s T hprev hfps hT ms
  rw [← framePeriod_eq hfps] at hT
  have hms : ms = framePeriod s.hdr - T + s.params.paceMarginMs := by
    rw [framePeriod_eq hfps]
  refine ⟨_, paceAt_of_early (ms := ms) hprev (by omega) (by omega), rfl, rfl,
    fun hstamp => ⟨_, _, resumePace_of_atFlush hstamp, rfl, paceAt_of_late (.inr ?_), rfl, rfl⟩,
    fun hstamp hnow ins hins => ?_⟩
  · dsimp only
    omega
  · have hsample : ∀ es sl,
        (clock { s with events := es, sleeping := sl }).1 = s.tPrev + T + ms := fun es sl => by
      have hin : { s with events := es, sleeping := sl }.clockIn = ms :: ins := hins
      rw [clock_of_clockIn hin, hnow]
    refine ⟨_, _, resumePace_of_afterSleep hstamp, hsample _ _,
      paceAt_of_early (ms := ms) rfl ?_ ?_, rfl⟩ <;> dsimp only <;> omega

end Sys2Proof.Machine

namespace Sys2Proof.Machine

/-! ### One call of `MSTEP` to its completion (43_movie_player.md R184) -/

@[simp] theorem flushCount_append (es fs : List Event) :
    flushCount (es ++ fs) = flushCount es + flushCount fs :=
  List.countP_append

section PlayOnce

variable {s t u : State} {colour : Int}

theorem playOnce_of_awake (h : execMstep colour s = .next t) (hawake : t.sleeping = none) :
    playOnce colour s = some t := by
  simp only [playOnce, exec, h, hawake]

theorem playOnce_of_asleep {now : Nat} (h : execMstep colour s = .next t)
    (hasleep : t.sleeping = some now) (hack : resumePace now t = .next u) :
    playOnce colour s = some u := by
  simp only [playOnce, exec, h, hasleep, hack]

/-- The acknowledgement of a `SLEEP` writes the clock and the stamp, and completes the call, with
either value of `PACE_STAMP`. -/
theorem exists_resumePace_eq_next (now : Nat) (s : State) :
    ∃ last draws ins stamp, resumePace now s =
      .next { s with
        clockLast := last, clockDraws := draws, clockIn := ins, tPrev := stamp, hasPrev := true
        sleeping := none, res := 2#32, response := some 2#32 } := by
  cases h : s.params.paceStamp with
  | atFlush => exact ⟨s.clockLast, s.clockDraws, s.clockIn, now, resumePace_of_atFlush h⟩
  | afterSleep => exact ⟨_, _, _, _, resumePace_of_afterSleep h⟩

/-- A call that draws a frame returns `RUNNING` after one `FLUSH`, whether it sleeps or not. -/
theorem exists_playOnce_of_nextFrame (hm : MovieLoaded s) (hl : s.loaded = true)
    (hp : s.pstate = .running) (hnext : s.frameIdx + 1 < s.hdr.frameCount.toNat) :
    ∃ fb es last draws ins stamp, flushCount es = flushCount s.events + 1 ∧
      playOnce colour s = some { s with
        fb := fb, frameIdx := s.frameIdx + 1, events := es
        clockLast := last, clockDraws := draws, clockIn := ins, tPrev := stamp, hasPrev := true
        sleeping := none, res := 2#32, response := some 2#32 } := by
  obtain ⟨fb, t, -, hexec, hpace⟩ := execMstep_draws_nextFrame hm hl hp hnext colour
  obtain ⟨now, draws, ins, -, ⟨-, ms, rfl⟩ | rfl⟩ := pace_next_state hpace
  · obtain ⟨last, draws', ins', stamp, hack⟩ := exists_resumePace_eq_next now _
    exact ⟨fb, _, last, draws', ins', stamp, by simp [flushCount],
      playOnce_of_asleep hexec rfl hack⟩
  · exact ⟨fb, _, now, draws, ins, now, by simp [flushCount], playOnce_of_awake hexec rfl⟩

end PlayOnce

/-! ### A run of calls (43_movie_player.md R184) -/

/-- Calls of `MSTEP` have led from `s` to `t`, each to its completion: the movie is the same, and so
many frames were flushed. -/
structure Played (s : State) (flushes : Nat) (t : State) : Prop where
  loaded : t.loaded = true
  movie : MovieLoaded t
  hdr : t.hdr = s.hdr
  awake : t.sleeping = none
  flushed : flushCount t.events = flushCount s.events + flushes

/-- The last call answered `RUNNING` at frame `n`, and every frame from 1 to `n` was flushed. -/
structure PlayedTo (s : State) (n : Nat) (t : State) : Prop extends Played s n t where
  res : t.res = 2#32
  pstate : t.pstate = .running
  frameIdx : t.frameIdx = n

/-- The last call answered `STOPPED`. -/
structure PlayedOut (s : State) (flushes : Nat) (t : State) : Prop extends Played s flushes t where
  res : t.res = 0#32
  pstate : t.pstate = .stopped

section Calls

variable {s t : State} {n : Nat} (colour : Int)

/-- The call in `START`. -/
theorem exists_playOnce_start (hm : MovieLoaded s) (hl : s.loaded = true) (hp : s.pstate = .start)
    (hawake : s.sleeping = none) :
    ∃ u, playOnce colour { s with response := none } = some u ∧ PlayedTo s 0 u :=
  ⟨_, playOnce_of_awake (execMstep_of_start colour hl hp) hawake,
    { loaded := hl, movie := hm.congr rfl rfl rfl rfl hm.frameCount, hdr := rfl, awake := hawake
      flushed := rfl, res := rfl, pstate := rfl, frameIdx := rfl }⟩

/-- A call before the last frame. -/
theorem PlayedTo.exists_playOnce_next (h : PlayedTo s n t)
    (hn : n + 1 < s.hdr.frameCount.toNat) :
    ∃ u, playOnce colour { t with response := none } = some u ∧ PlayedTo s (n + 1) u := by
  have hnext : t.frameIdx + 1 < t.hdr.frameCount.toNat := by rwa [h.frameIdx, h.hdr]
  have hm : MovieLoaded { t with response := none } :=
    h.movie.congr rfl rfl rfl rfl h.movie.frameIdx
  obtain ⟨fb, es, last, draws, ins, stamp, hes, hplay⟩ :=
    exists_playOnce_of_nextFrame (colour := colour) hm h.loaded h.pstate hnext
  exact ⟨_, hplay,
    { loaded := h.loaded, movie := h.movie.congr rfl rfl rfl rfl hnext, hdr := h.hdr
      awake := rfl, flushed := by rw [hes, h.flushed, Nat.add_assoc], res := rfl
      pstate := h.pstate, frameIdx := congrArg (· + 1) h.frameIdx }⟩

/-- The call at the last frame. -/
theorem PlayedTo.exists_playOnce_last (h : PlayedTo s n t) (hn : s.hdr.frameCount.toNat ≤ n + 1) :
    ∃ u, playOnce colour { t with response := none } = some u ∧ PlayedOut s n u := by
  have hlast : t.hdr.frameCount.toNat ≤ t.frameIdx + 1 := by rwa [h.frameIdx, h.hdr]
  exact ⟨_, playOnce_of_awake (execMstep_of_lastFrame colour h.loaded h.pstate hlast) h.awake,
    { loaded := h.loaded, movie := h.movie.congr rfl rfl rfl rfl h.movie.frameIdx, hdr := h.hdr
      awake := h.awake, flushed := h.flushed, res := rfl, pstate := rfl }⟩

/-- A call in `STOPPED`. -/
theorem PlayedOut.exists_playOnce (h : PlayedOut s n t) :
    ∃ u, playOnce colour { t with response := none } = some u ∧ PlayedOut s n u :=
  ⟨_, playOnce_of_awake (execMstep_of_stopped colour (.inr h.pstate)) h.awake,
    { loaded := h.loaded, movie := h.movie.congr rfl rfl rfl rfl h.movie.frameIdx, hdr := h.hdr
      awake := h.awake, flushed := h.flushed, res := rfl, pstate := rfl }⟩

/-- The call after `n` calls. -/
theorem playTimes_succ {u : State} (ht : playTimes colour n s = some t)
    (hu : playOnce colour { t with response := none } = some u) :
    playTimes colour (n + 1) s = some u := by
  rw [playTimes, ht]
  exact hu

/-- Calls 1 to `N` of an `N`-frame movie. -/
theorem exists_playTimes_running (hm : MovieLoaded s) (hl : s.loaded = true)
    (hp : s.pstate = .start) (hawake : s.sleeping = none) (hn : n < s.hdr.frameCount.toNat) :
    ∃ t, playTimes colour (n + 1) s = some t ∧ PlayedTo s n t := by
  induction n with
  | zero =>
    obtain ⟨u, hu, hplayed⟩ := exists_playOnce_start colour hm hl hp hawake
    exact ⟨u, playTimes_succ colour rfl hu, hplayed⟩
  | succ n ih =>
    obtain ⟨t, ht, hplayed⟩ := ih (by omega)
    obtain ⟨u, hu, hplayed'⟩ := hplayed.exists_playOnce_next colour hn
    exact ⟨u, playTimes_succ colour ht hu, hplayed'⟩

/-- The calls after call `N` of an `N`-frame movie. -/
theorem exists_playTimes_stopped (hm : MovieLoaded s) (hl : s.loaded = true)
    (hp : s.pstate = .start) (hawake : s.sleeping = none) :
    ∃ t, playTimes colour (s.hdr.frameCount.toNat + n + 1) s = some t ∧
      PlayedOut s (s.hdr.frameCount.toNat - 1) t := by
  have hcount := hm.frameCount
  induction n with
  | zero =>
    obtain ⟨t, ht, hplayed⟩ := exists_playTimes_running colour hm hl hp hawake
      (n := s.hdr.frameCount.toNat - 1) (by omega)
    obtain ⟨u, hu, hplayed'⟩ := hplayed.exists_playOnce_last colour (by omega)
    rw [Nat.sub_add_cancel hcount] at ht
    exact ⟨u, playTimes_succ colour ht hu, hplayed'⟩
  | succ n ih =>
    obtain ⟨t, ht, hplayed⟩ := ih
    obtain ⟨u, hu, hplayed'⟩ := hplayed.exists_playOnce colour
    exact ⟨u, playTimes_succ colour ht hu, hplayed'⟩

end Calls

/-- Settles O38: by induction over the calls up to the last frame, and over those after it. An armed
movie has no `MSTEP` asleep, since only a running one sleeps. -/
theorem playbackStepCount : Obligations.PlaybackStepCount := by
  intro colour s hinv hl hp
  have hm := hinv.loaded hl
  have hawake : s.sleeping = none := by
    cases hsleep : s.sleeping with
    | none => rfl
    | some now => exact absurd (hp.symm.trans (hinv.sleeping now hsleep).pstate) nofun
  refine ⟨fun k hk hkN => ?_, fun k hk => ?_⟩
  · obtain ⟨n, rfl⟩ : ∃ n, k = n + 1 := ⟨k - 1, by omega⟩
    obtain ⟨t, ht, hplayed⟩ := exists_playTimes_running colour hm hl hp hawake hkN
    exact ⟨t, ht, hplayed.res, hplayed.pstate, hplayed.frameIdx, hplayed.flushed⟩
  · obtain ⟨n, rfl⟩ : ∃ n, k = s.hdr.frameCount.toNat + n + 1 :=
      ⟨k - s.hdr.frameCount.toNat - 1, by omega⟩
    obtain ⟨t, ht, hplayed⟩ := exists_playTimes_stopped colour hm hl hp hawake
    exact ⟨t, ht, hplayed.res, hplayed.pstate, hplayed.flushed⟩

end Sys2Proof.Machine

namespace Sys2Proof.Machine

/-! ### How a command can end (60_exceptions.md R204 to R206) -/

/-- Showing a frame ends in `Pace()`, a completion or a fault (43_movie_player.md R183). -/
theorem showFrame_ne_refused (colour : Int) (s : State) (r : Refusal) :
    showFrame colour s ≠ .refused r := by
  unfold showFrame
  split
  · next fb _ =>
    obtain ⟨t, ht⟩ := pace_isNext (emitFlush { s with fb := fb })
    exact ht ▸ nofun
  · exact complete_ne_refused _ _ r
  · exact raiseMovFault_ne_refused _ r

/-- No arm of `MSTEP` refuses (43_movie_player.md R183). -/
theorem execMstep_ne_refused (colour : Int) (s : State) (r : Refusal) :
    execMstep colour s ≠ .refused r := by
  rcases mstep_arms s with hstop | ⟨hl, hp⟩ | ⟨hl, hp, hlast⟩ | ⟨hl, hp, hnext⟩
  · rw [execMstep_of_stopped colour hstop]; exact complete_ne_refused _ _ r
  · rw [execMstep_of_start colour hl hp]; exact complete_ne_refused _ _ r
  · rw [execMstep_of_lastFrame colour hl hp hlast]; exact complete_ne_refused _ _ r
  · rw [execMstep_of_nextFrame colour hl hp hnext]; exact showFrame_ne_refused _ _ r

/-- A command completes, waits in its `SLEEP` or faults: the refusals are the port's, not a
command's (60_exceptions.md R205, R206). -/
theorem exec_ne_refused (i : Instr) (s : State) (r : Refusal) : exec i s ≠ .refused r := by
  cases i with
  | setori => rw [exec, execSetori]; split <;> exact complete_ne_refused _ _ r
  | rect => rw [exec, execRect]; split <;> exact complete_ne_refused _ _ r
  | rectf => rw [exec, execRectf]; split <;> exact complete_ne_refused _ _ r
  | mrewind => rw [exec, execMrewind]; split <;> exact complete_ne_refused _ _ r
  | blit =>
    rw [exec, execBlit]
    split_ifs
    · exact complete_ne_refused _ _ r
    · exact complete_ne_refused _ _ r
    · split
      · exact complete_ne_refused _ _ r
      · exact raiseSrcFault_ne_refused _ r
  | mload => rw [exec, execMload]; split_ifs <;> simp
  | mstep colour => exact execMstep_ne_refused colour s r
  | _ => exact complete_ne_refused _ _ r

/-- Settles O45: `exec_fault_cases` names the commands that fault, and a faulting `MSTEP` reads
outside a movie that the invariant would describe. -/
theorem commandsFaultOnlyOnReads : Obligations.CommandsFaultOnlyOnReads := by
  intro i s
  refine ⟨exec_ne_refused i s, fun f h => ?_⟩
  rcases exec_fault_cases h with ⟨hop, fb, rfl⟩ | ⟨c, rfl, hmstep⟩
  · exact ⟨_, .inl ⟨rfl, hop⟩, rfl, rfl, rfl, rfl, rfl, rfl, rfl, rfl⟩
  · have hinv : ¬Inv s := fun hinv => execMstep_ne_fault hinv.loaded c f hmstep
    obtain ⟨-, -, -, fb, -, rfl⟩ := execMstep_fault hmstep
    exact ⟨_, .inr ⟨rfl, rfl, hinv⟩, rfl, rfl, rfl, rfl, rfl, rfl, rfl, rfl⟩

/-! ### Events (60_exceptions.md R210) -/

/-- `FLUSH`, `MSTEP` and `MTEARDOWN` alone append events (60_exceptions.md R210). -/
theorem exec_keeps_events {i : Instr} {s t : State} (h : exec i s = .next t)
    (hi : i.opcode ∉ [Opcode.flush, .mstep, .mteardown]) : t.events = s.events := by
  cases i with
  | flush | mstep | mteardown => exact absurd (by simp [Instr.opcode]) hi
  | setori => rcases execSetori_next h with ⟨-, -, rfl⟩ | rfl <;> rfl
  | rect => rcases execRect_next h with rfl | rfl <;> rfl
  | rectf => rcases execRectf_next h with rfl | rfl <;> rfl
  | blit => rcases execBlit_next h with rfl | ⟨fb, -, rfl⟩ <;> rfl
  | mload => rcases execMload_next h with rfl | ⟨-, rfl⟩ <;> rfl
  | mrewind => rcases execMrewind_next h with ⟨-, rfl⟩ | rfl <;> rfl
  | _ => obtain rfl := complete_eq_next.mp h; rfl

/-- The arm of `MSTEP` that draws appends the frame's `FLUSH`, and then a `SLEEP` where it waits
(43_movie_player.md R183, R185). -/
theorem execMstep_events {colour : Int} {s t : State} (h : execMstep colour s = .next t)
    (hdraw : s.loaded = true ∧ s.pstate = .running ∧
      s.frameIdx + 1 < s.hdr.frameCount.toNat) :
    (t.events = s.events ++ [.flush t.fb] ∧ t.sleeping = none) ∨
      ∃ ms, t.events = s.events ++ [.flush t.fb, .sleep ms] ∧ t.sleeping ≠ none := by
  obtain ⟨hl, hp, hnext⟩ := hdraw
  rw [execMstep_of_nextFrame colour hl hp hnext] at h
  obtain ⟨fb, -, hpace⟩ := showFrame_next h
  obtain ⟨now, draws, ins, -, ⟨-, ms, rfl⟩ | rfl⟩ := pace_next_state hpace
  · exact .inr ⟨ms, by simp, nofun⟩
  · exact .inl ⟨rfl, rfl⟩

/-- The arms of `MSTEP` that draw nothing append no event (43_movie_player.md R183). -/
theorem execMstep_keeps_events {colour : Int} {s t : State} (h : execMstep colour s = .next t)
    (hdraw : ¬(s.loaded = true ∧ s.pstate = .running ∧
      s.frameIdx + 1 < s.hdr.frameCount.toNat)) : t.events = s.events := by
  rcases execMstep_next_state h with rfl | ⟨-, rfl⟩ | ⟨hl, hp, hnext, -⟩
  · rfl
  · rfl
  · exact absurd ⟨hl, hp, hnext⟩ hdraw

/-- Settles O51: `FLUSH` and `MTEARDOWN` complete after one `FLUSH`, `MSTEP` appends events in its
drawing arm alone, and every other command keeps the events. -/
theorem eventsOfEachCommand : Obligations.EventsOfEachCommand := by
  intro i s t h
  cases i with
  | flush | mteardown => obtain rfl := complete_eq_next.mp h; exact ⟨_, rfl, rfl⟩
  | mstep colour =>
    by_cases hdraw : s.loaded = true ∧ s.pstate = .running ∧
        s.frameIdx + 1 < s.hdr.frameCount.toNat
    · simp only [if_pos hdraw]
      rcases execMstep_events h hdraw with ⟨he, hs⟩ | ⟨ms, he, hs⟩
      · exact ⟨_, he, .inl ⟨rfl, hs⟩⟩
      · exact ⟨_, he, .inr ⟨ms, rfl, hs⟩⟩
    · simp only [if_neg hdraw]
      exact ⟨[], by rw [execMstep_keeps_events h hdraw, List.append_nil], rfl⟩
  | _ =>
    refine ⟨[], ?_, rfl⟩
    rw [exec_keeps_events h (by simp [Instr.opcode]), List.append_nil]

/-! ### Refusing and waiting (60_exceptions.md R213, R214, R216) -/

/-- Settles O53: a block that sleeps or whose response is unread is busy. -/
theorem concurrentCommandRefused : Obligations.ConcurrentCommandRefused := by
  intro s w rest hf hr hi hbusy
  have hb : s.busy = true := by
    simpa [State.busy, Option.isSome_iff_ne_none] using hbusy
  exact step_of_busy hf hr hi hb

/-- With no input from the host the step changes nothing (60_exceptions.md R216). -/
theorem step_of_noInput {s : State} (hf : s.faulted = false) (hr : s.refused = false)
    (hi : s.inbox = []) : step s = .next s := by
  simp only [step, fetch, hf, hr, hi, Bool.false_eq_true, if_false]

/-- Settles O55: an empty queue idles, and the words of a command that is still short have nothing
behind them for `awaitWords` to meet. -/
theorem waitingKeepsState : Obligations.WaitingKeepsState := by
  refine ⟨fun s hf hr hi => step_of_noInput hf hr hi, fun s op ws hready hlen hi => ?_⟩
  rw [← header_eq_shift] at hi
  obtain ⟨hleading, hafter⟩ := leadingWords_map_append (op.header :: ws) (is := []) nofun
  rw [List.map_cons, List.append_nil, ← hi] at hleading hafter
  rw [step_of_incomplete hready.faulted hready.refused hi hready.busy_eq_false
    (hleading ▸ decode_header_short hlen), awaitWords, hafter]

end Sys2Proof.Machine

namespace Sys2Proof.Machine

/-! ### Reset (10_state.md R36, 70_reset_and_hazards.md R230, R231) -/

/-- The reset state is one with no movie in it, as `MTEARDOWN` leaves. -/
theorem reset_movieInv : MovieInv State.reset := releaseMovie_movieInv State.reset

/-- At reset no command waits and no response is unread. -/
theorem reset_replyInv : ReplyInv State.reset := .of_awake rfl (.inl rfl)

/-- Settles O41: the byte stores are empty, the cursor is the origin, and there is neither a movie
nor a command under way. -/
theorem invAtReset : Obligations.InvAtReset where
  fbCanonical := rfl
  fbSize := rfl
  srcCanonical := rfl
  srcSize := rfl
  srcSizePos := Nat.le_add_left 1 Config.srcSizeLessOne
  curX := rfl
  curY := rfl
  frameIdx := reset_movieInv.frameIdx_lt
  unloaded := reset_movieInv.unloaded
  loaded := reset_movieInv.loaded
  noStamp := reset_movieInv.noStamp
  stampPast := reset_movieInv.stampPast
  response := reset_replyInv.response
  sleeping := reset_replyInv.sleeping

/-- The reset input leaves a run that has not stopped ready for a command. -/
theorem resetInput_ready {s : State} (hf : s.faulted = false) (hr : s.refused = false) :
    Ready (resetInput s) where
  faulted := hf
  refused := hr
  sleeping := resetInput_sleeping s
  response := resetInput_response s

/-- Settles O52: the step is `resetInput` past the input it takes, which empties the stores, the
other registers and the channels, and keeps what the host owns. -/
theorem resetInputRestores : Obligations.ResetInputRestores := by
  intro s rest hf hr hi
  have hready : Ready (resetInput (s.advance 1)) := resetInput_ready hf hr
  have hmovLen : (resetInput (s.advance 1)).movLen = 0 := by simp [State.movLen]
  refine ⟨resetInput (s.advance 1), step_of_reset hf hr hi, Mem.read_nil, ?_⟩
  simp [hi, hready, hmovLen, Header.zero]

end Sys2Proof.Machine
